-- ==== Sys2Proof/Word.lean ====
section
/-!
DEFINITION. The widths the spec moves: the 32-bit host word (20_memory.md R66), the 24-bit frame
(00_scope.md R8), a one-bit line level (00_scope.md R9) and a byte lane (20_memory.md R64).
-/

namespace Sys2Proof

/-- A word of the host register port: 32 bits (60_exceptions.md R220). -/
abbrev Word := BitVec 32

/-- A frame: the 24 bits of one conversion, most significant bit first (00_scope.md R8). -/
abbrev Frame := BitVec 24

/-- The level of a line: high is 1, low is 0 (00_scope.md R9). -/
abbrev Level := BitVec 1

/-- One byte lane of the host bus, and the width of a command's operand. -/
abbrev Byte := BitVec 8

end Sys2Proof
end

