-- ==== Sys2Proof/Config.lean ====
section
/-!
DEFINITION. What an implementation fixes (the parameters of 00_scope.md R7), the constants of the wire
format, and the free values: constants without a body, of which no proof can know a value.
-/

namespace Sys2Proof

/-- The input channel (30_encoding.md R84): A is coded 0, B is coded 1. -/
inductive Channel where
  | a
  | b
deriving DecidableEq, Repr

/-! ### Free values (00_scope.md R10, 93_implementation_defined.md U1-U6) -/

/-- The level the data line shows at a draw the environment's script does not fix (log 2). -/
opaque Config.freeLevel : Nat → Level

/-- The time that has passed since the last `Now()` at a draw the script does not fix (log 3). -/
opaque Config.freeDelta : Nat → Nat

/-- What a read of a register other than STATUS returns while BUSY = 1 (10_state.md R38, log 4). -/
opaque Config.freeWord : Nat → Word

/-! ### Open parameters: the spec names them and gives no value (log 5) -/

/-- T_SETTLE_NS, "a fixed delay" whose value the source does not give (92_eei_decisions.md D18). -/
opaque Config.settleNs : Nat

/-- GAIN_B, the fixed gain of channel B; no rule reads it (92_eei_decisions.md D38). -/
opaque Config.channelBGain : Nat

/-- BASE, the address of the register window, chosen by the platform (20_memory.md R62). -/
opaque Config.windowBase : Nat

/-! ### Fixed constants of the wire format (00_scope.md R7) -/

/-- FRAME_BITS. -/
def frameBits : Nat := 24

/-- SENTINEL_MAX. -/
def sentinelMax : Frame := 0x7FFFFF#24

/-- SENTINEL_MIN. -/
def sentinelMin : Frame := 0x800000#24

/-- The parameters of the block, in the order of 00_scope.md R7, and BASE of 20_memory.md R62. -/
structure Params where
  tGuardNs : Nat
  readyMaxTries : Nat
  pollIntervalNs : Nat
  tPdNs : Nat
  tPuNs : Nat
  recoveryReads : Nat
  resetSettleReads : Nat
  tSettleNs : Nat
  initChannel : Channel
  initGain : Byte
  gainB : Nat
  base : Nat
deriving DecidableEq, Repr

/-- The document's values of the parameters (00_scope.md R7); the OPEN ones are free constants. -/
def Params.default : Params where
  tGuardNs := 60000
  readyMaxTries := 40
  pollIntervalNs := 10000000
  tPdNs := 10000000
  tPuNs := 10000000
  recoveryReads := 6
  resetSettleReads := 6
  tSettleNs := Config.settleNs
  initChannel := .a
  initGain := 128#8
  gainB := Config.channelBGain
  base := Config.windowBase

/-- The host-side parameters of 00_scope.md R7: OPEN, taken as an argument by the host procedures of
45_host_aggregator.md. -/
structure HostParams where
  minMeasures : Nat
  maxMeasures : Nat
  desyncRetryLimit : Nat
deriving DecidableEq, Repr

end Sys2Proof
end

