-- ==== Sys2Proof/Syntax.lean ====
section
/-!
DEFINITION. The command set of the block, one constructor per row of spec/opcode_table.json
(30_encoding.md R82), and the assembler lines of 30_encoding.md R92.
-/

namespace Sys2Proof

/-- The six commands (00_scope.md R4, 30_encoding.md R82).  An operand is an 8-bit unsigned number,
so its type admits exactly the operands the encoding has (R83): every term of `Instr` is well formed. -/
inductive Instr where
  | readOne
  | setChannel (arg : Byte)
  | setGain (arg : Byte)
  | powerDown
  | powerUp
  | reset
deriving DecidableEq, Repr

/-- A line of assembly (30_encoding.md R92).  Operands are plain numbers here: one outside 0..255 is
a line that does not assemble (`Asm.wellFormed`). -/
inductive Asm where
  | readOne
  | setChannelA
  | setChannelB
  | setChannelRaw (n : Nat)
  | setGain (n : Nat)
  | powerDown
  | powerUp
  | reset
  | word (w : Word)
deriving DecidableEq, Repr

end Sys2Proof
end

