-- ==== Sys2Proof/WellFormed.lean ====
section
/-!
DEFINITION. The checks of the spec on what is given to the machine: command words (30_encoding.md R86),
assembler lines (R92), the block's parameters (00_scope.md R7, 70_reset_and_hazards.md R241) and the
host's (45_host_aggregator.md R192).  A term of `Instr` needs no check: its operand is 8 bits wide.
-/

namespace Sys2Proof

/-- The reserved fields of a command word are 0 (30_encoding.md R81). -/
def reservedClear (w : Word) : Bool :=
  w.extractLsb' 16 16 == 0#16 && w.extractLsb' 4 4 == 0#4

/-- The opcode is one of 0x1..0x6 (30_encoding.md R82). -/
def opcodeAssigned (w : Word) : Bool :=
  let op := w.extractLsb' 0 4
  1#4 ≤ op && op ≤ 6#4

/-- A command without an operand has ARG = 0 (30_encoding.md R81, R83). -/
def operandAllowed (w : Word) : Bool :=
  let op := w.extractLsb' 0 4
  op == 2#4 || op == 3#4 || w.extractLsb' 8 8 == 0#8

/-- A legal command word: none of the conditions of 30_encoding.md R86 holds. -/
def wordWellFormed (w : Word) : Bool :=
  reservedClear w && opcodeAssigned w && operandAllowed w

/-- "An operand outside 0..255 does not assemble" (30_encoding.md R92). -/
def Asm.wellFormed : Asm → Bool
  | .setChannelRaw n => n ≤ 255
  | .setGain n => n ≤ 255
  | _ => true

/-- The legal gains of channel A (00_scope.md R7, 30_encoding.md R85). -/
def gainLegal (g : Byte) : Bool := g == 64#8 || g == 128#8

/-- A configuration the model is built for (00_scope.md R7, 70_reset_and_hazards.md R241). -/
def Params.legal (p : Params) : Bool :=
  (1 ≤ p.readyMaxTries && p.readyMaxTries ≤ 255) &&
  (1 ≤ p.recoveryReads && p.recoveryReads ≤ 15) &&
  (1 ≤ p.resetSettleReads && p.resetSettleReads ≤ 15) &&
  gainLegal p.initGain

/-- The constraints a model must impose on the host's open bounds (45_host_aggregator.md R192): at least 2,
and 3 between them.  The host procedures refuse any other bounds. -/
def HostParams.legal (h : HostParams) : Bool :=
  2 ≤ h.minMeasures && h.minMeasures ≤ 3 && 3 ≤ h.maxMeasures

end Sys2Proof
end

