-- ==== Sys2Proof/Decode.lean ====
section
/-!
DEFINITION. The decoder of 30_encoding.md R86, total on 32-bit words and rejecting by name; after it the
encoder (R81, R82), the assembler (R92), the byte lanes of a word (20_memory.md R64), and
`decodeTableWord`, which reads a word as spec/opcode_table.json numbers its bits.
-/

namespace Sys2Proof

/-- Why a command word is illegal (30_encoding.md R86), in the order the decoder checks. -/
inductive IllegalWord where
  | reservedBits
  | reservedOpcode
  | operandNotZero
deriving DecidableEq, Repr

/-- OP, bits 3:0 of a command word (30_encoding.md R81). -/
def opField (w : Word) : BitVec 4 := w.extractLsb' 0 4

/-- ARG, bits 15:8 of a command word (30_encoding.md R81, R83). -/
def argField (w : Word) : Byte := w.extractLsb' 8 8

/-- A command that has no operand: its ARG must be 0. -/
def noOperand (arg : Byte) (i : Instr) : Except IllegalWord Instr :=
  if arg = 0#8 then .ok i else .error .operandNotZero

/-- `DecodeCmd` of 30_encoding.md R86. -/
def decodeCmd (w : Word) : Except IllegalWord Instr :=
  if w.extractLsb' 16 16 ≠ 0#16 ∨ w.extractLsb' 4 4 ≠ 0#4 then .error .reservedBits
  else
    let arg := argField w
    match (opField w).toNat with
    | 1 => noOperand arg .readOne
    | 2 => .ok (.setChannel arg)
    | 3 => .ok (.setGain arg)
    | 4 => noOperand arg .powerDown
    | 5 => noOperand arg .powerUp
    | 6 => noOperand arg .reset
    | _ => .error .reservedOpcode

/-- The opcode of a command (30_encoding.md R82). -/
def Instr.op : Instr → BitVec 4
  | .readOne => 0x1#4
  | .setChannel _ => 0x2#4
  | .setGain _ => 0x3#4
  | .powerDown => 0x4#4
  | .powerUp => 0x5#4
  | .reset => 0x6#4

/-- The ARG field of a command: its operand, or 0 (30_encoding.md R83). -/
def Instr.arg : Instr → Byte
  | .setChannel a => a
  | .setGain a => a
  | _ => 0#8

/-- The word of a command: `0000000000000000 AAAAAAAA 0000 OOOO` (30_encoding.md R81). -/
def encode (i : Instr) : Word := (i.arg ++ 0#4 ++ i.op).setWidth 32

/-- The mnemonic of a command, as the document spells it (30_encoding.md R82). -/
def Instr.mnemonic : Instr → String
  | .readOne => "read_one"
  | .setChannel _ => "set_channel"
  | .setGain _ => "set_gain"
  | .powerDown => "power_down"
  | .powerUp => "power_up"
  | .reset => "reset"

/-- The word of an assembler line, or nothing where it does not assemble (30_encoding.md R92). -/
def assemble (l : Asm) : Option Word :=
  if l.wellFormed then
    some <| match l with
      | .readOne => encode .readOne
      | .setChannelA => encode (.setChannel 0#8)
      | .setChannelB => encode (.setChannel 1#8)
      | .setChannelRaw n => encode (.setChannel (BitVec.ofNat 8 n))
      | .setGain n => encode (.setGain (BitVec.ofNat 8 n))
      | .powerDown => encode .powerDown
      | .powerUp => encode .powerUp
      | .reset => encode .reset
      | .word w => w
  else none

/-- Byte lane `k` of a word: lane 0 carries bits 7:0 (20_memory.md R64). -/
def byteLane (k : Nat) (w : Word) : Byte := w.extractLsb' (8 * k) 8

/-- The word whose lanes 0, 1, 2, 3 are given (20_memory.md R64). -/
def wordOfLanes (b0 b1 b2 b3 : Byte) : Word :=
  (b3 ++ b2 ++ b1 ++ b0).setWidth 32

/-- The command the decoder reads from an instruction of `nbits` bits numbered as
spec/opcode_table.json numbers them: a command is one 32-bit word, whose bytes are its four lanes. -/
def decodeTableWord (nbits w : Nat) : Option Instr :=
  let v : Nat := w % 2 ^ nbits
  if v < 2 ^ 32 then
    let b (k : Nat) : Byte := BitVec.ofNat 8 (v / 2 ^ (8 * k))
    match decodeCmd (wordOfLanes (b 0) (b 1) (b 2) (b 3)) with
    | .ok i => some i
    | .error _ => none
  else none

end Sys2Proof
end

