-- ==== Sys2Proof/Machine/State.lean ====
section
/-!
DEFINITION. The state of the machine as plain data (10_state.md R30-R50), the reasons a step can stop,
and the state after reset (10_state.md R49).
-/

namespace Sys2Proof.Machine

/-- Why the machine stops with a fault. -/
inductive Fault where
  /-- Raised by the host port for an access that 20_memory.md R65 does not admit: sub-word, misaligned
  or outside the window.  The spec gives it no step ("stuck").  Safe. -/
  | inadmissibleAccess
deriving DecidableEq, Repr

/-- Why the machine refuses a step. -/
inductive Refusal where
  /-- Raised by `exec` for an instruction that has no meaning yet.  No arm raises it.  Safe. -/
  | notModelled (mnemonic : String)
  /-- Raised by the step when the parameters are outside the ranges of 00_scope.md R7 or INIT_GAIN is
  not 64 or 128: the model is not built for such a block (70_reset_and_hazards.md R241).  Safe. -/
  | illegalConfiguration
deriving DecidableEq, Repr

/-- The status codes of 60_exceptions.md R210; the reserved codes 0x7..0xE do not exist. -/
inductive Code where
  | ok
  | notReady
  | timingViolation
  | invalidSample
  | protocolDesync
  | invalidParameter
  | illegalCommand
  | none
deriving DecidableEq, Repr

/-- The context of a read cycle (10_state.md R33). -/
inductive Ctx where
  | top
  | sub
deriving DecidableEq, Repr

/-- The labels of 10_state.md R33, in the order of their codes 0..10. -/
inductive Phase where
  | idle
  | poll
  | pollWait
  | data
  | trail
  | decode
  | recover
  | settleWait
  | pd
  | pu
  | resetSettle
deriving DecidableEq, Repr

/-- The program point of the command being run: which primitive comes next (10_state.md R33,
40_read_cycle.md R111, R120, 41_config.md R151, 42_power.md R170-R174).  `t0` is the first reading of
the pulse in progress.  `decode`, `recover` and `resetSettle` are points between primitives (log 12). -/
inductive Point where
  /-- No primitive is pending. -/
  | idle
  /-- Readiness wait: `ReadData` comes next. -/
  | poll
  /-- Readiness wait: `Sleep(POLL_INTERVAL_NS)` comes next. -/
  | pollWait
  /-- Data pulse: the first `Now` comes next. -/
  | dataStart
  /-- Data pulse: `SetClk(1)` comes next. -/
  | dataRise (t0 : Nat)
  /-- Data pulse: `SetClk(0)` comes next. -/
  | dataFall (t0 : Nat)
  /-- Data pulse: the second `Now` and the guard come next. -/
  | dataStop (t0 : Nat)
  /-- The pulse has passed the guard: the data sample comes next. -/
  | dataSample
  /-- Trailing pulse: the first `Now` comes next. -/
  | trailStart
  /-- Trailing pulse: `SetClk(1)` comes next. -/
  | trailRise (t0 : Nat)
  /-- Trailing pulse: `SetClk(0)` comes next. -/
  | trailFall (t0 : Nat)
  /-- Trailing pulse: the second `Now` and the guard come next. -/
  | trailStop (t0 : Nat)
  /-- The trailing phase is complete: sentinel test and decode come next. -/
  | decode
  /-- The head of the recovery loop. -/
  | recover
  /-- After the settle read: `Sleep(T_SETTLE_NS)` comes next. -/
  | settleWait
  /-- Power-down: `SetClk(0)` comes next. -/
  | pdLow
  /-- Power-down: `SetClk(1)` comes next. -/
  | pdHigh
  /-- Power-down: `Sleep(T_PD_NS)` comes next. -/
  | pdHold
  /-- Power-up: `SetClk(0)` comes next. -/
  | puLow
  /-- Power-up: `Sleep(T_PU_NS)` comes next. -/
  | puWait
  /-- The head of the settle loop of `reset`. -/
  | resetSettle
deriving DecidableEq, Repr

/-- STATUS (10_state.md R37). -/
structure Status where
  code : Code
  busy : Bool
  warn : Bool
  fatal : Bool
  settleCode : Code
deriving DecidableEq, Repr

/-- The stored fields of CONFIG (10_state.md R40); TRAIL is a view. -/
structure Setup where
  channel : Channel
  gainA : Byte
  armed : BitVec 2
  sampleCfg : BitVec 2
deriving DecidableEq, Repr

/-- DIAG (10_state.md R44). -/
structure Diag where
  polls : BitVec 8
  bitcnt : BitVec 8
  trailcnt : BitVec 4
  recValid : BitVec 4
deriving DecidableEq, Repr

/-- The counters of one read cycle (10_state.md R32). -/
structure Counters where
  tries : Nat
  i : Nat
  j : Nat
deriving DecidableEq, Repr

/-- The sequencer (10_state.md R32, R33): program point, context, the counters of the top-level cycle
and of the sub-cycle kept apart, the loop counters `k` and `v`, and the locals `cfg0` and `n` of
`Cycle` (40_read_cycle.md R120). -/
structure Sequencer where
  point : Point
  ctx : Ctx
  top : Counters
  sub : Counters
  k : Nat
  v : Nat
  cfg0 : BitVec 2
  n : Nat
deriving DecidableEq, Repr

/-- The environment (00_scope.md R10, R11): the levels and the time advances it will supply next, how
many free values have been drawn after its scripts ran out, and the last `Now()` result. -/
structure Env where
  levels : List Level
  deltas : List Nat
  draws : Nat
  lastNow : Nat
deriving DecidableEq, Repr

/-- The events of a run (00_scope.md R10). -/
inductive Event where
  | clkWrite (v : Level)
  | dataRead (b : Level)
  | timeRead (t : Nat)
  | sleep (d : Nat)
deriving DecidableEq, Repr

/-- What the host or the platform does next (60_exceptions.md R220, R226; 30_encoding.md R93). -/
inductive HostOp where
  /-- Write a command word to CMD and wait until BUSY = 0 (30_encoding.md R93), in one step (log 6). -/
  | command (w : Word)
  /-- A write access of `bytes` bytes at a bus address. -/
  | write (addr bytes : Nat) (v : Word)
  /-- A read access of `bytes` bytes at a bus address. -/
  | read (addr bytes : Nat)
  /-- `wait_idle`: poll STATUS until BUSY = 0. -/
  | waitIdle
  /-- Nothing: the engine runs one step of its own. -/
  | pause
  /-- Assert `rst`. -/
  | assertRst
  /-- Deassert `rst`. -/
  | releaseRst
deriving DecidableEq, Repr

/-- The whole state.  `params` never changes (log 1).  `env`, `bus`, `reads` and `events` belong to the
environment, the host and the run, and are no registers of the block. -/
structure State where
  params : Params
  rst : Bool
  clk : Level
  shreg : Frame
  cmdOp : BitVec 4
  cmdArg : Byte
  status : Status
  config : Setup
  raw : Frame
  sample : Word
  diag : Diag
  seq : Sequencer
  env : Env
  bus : List HostOp
  reads : List Word
  events : List Event
deriving DecidableEq, Repr

/-- STATUS at reset (10_state.md R49): 0x00000F1F. -/
def Status.atReset : Status where
  code := .none
  busy := true
  warn := false
  fatal := false
  settleCode := .none

/-- DIAG at reset, and as a top-level cycle and `reset` clear it (10_state.md R44). -/
def Diag.zero : Diag where
  polls := 0#8
  bitcnt := 0#8
  trailcnt := 0#4
  recValid := 0#4

/-- Counters at reset (10_state.md R32). -/
def Counters.zero : Counters where
  tries := 0
  i := 0
  j := 0

/-- The sequencer at reset: PHASE = IDLE and the counters 0 (10_state.md R49); CTX, `cfg0` and `n` have
no reset value in the spec (DESIGN CHOICE, log 10). -/
def Sequencer.atReset : Sequencer where
  point := .idle
  ctx := .top
  top := .zero
  sub := .zero
  k := 0
  v := 0
  cfg0 := 0#2
  n := 0

/-- An environment without scripts: every draw is a free value (log 2, log 3). -/
def Env.start : Env where
  levels := []
  deltas := []
  draws := 0
  lastNow := 0

/-- The block with the given parameters at the deassertion of `rst` (10_state.md R49): BUSY = 1 and
PHASE = IDLE, so that the next step begins the automatic `reset` (70_reset_and_hazards.md R240). -/
def State.resetWith (p : Params) : State where
  params := p
  rst := false
  clk := 0#1
  shreg := 0#24
  cmdOp := 0#4
  cmdArg := 0#8
  status := .atReset
  config := ⟨p.initChannel, p.initGain, 0#2, 0#2⟩
  raw := 0#24
  sample := 0#32
  diag := .zero
  seq := .atReset
  env := .start
  bus := []
  reads := []
  events := []

/-- The machine right after reset, with the document's parameters (00_scope.md R7). -/
def State.reset : State := State.resetWith Params.default

end Sys2Proof.Machine
end

