-- ==== Sys2Proof/Machine/Ops.lean ====
section
/-!
DEFINITION. The named operations: the primitives of 00_scope.md R10 and the pulse (40_read_cycle.md R111),
the counters (10_state.md R32), the acceptance and the end of a command (60_exceptions.md R216, R222),
and block reset (70_reset_and_hazards.md R240).  The spec has no exception entry and no return from one
(60_exceptions.md R216, R217); `finish` is what stands in their place.
-/

namespace Sys2Proof.Machine

/-! ### Draws (00_scope.md R10) -/

/-- The next level of the data line: the next of the script, else a free value (log 2). -/
def Env.nextLevel (e : Env) : Level :=
  match e.levels with
  | b :: _ => b
  | [] => Config.freeLevel e.draws

/-- The environment after a level has been drawn. -/
def Env.afterLevel (e : Env) : Env :=
  match e.levels with
  | _ :: rest => { e with levels := rest }
  | [] => { e with draws := e.draws + 1 }

/-- The time that passes until the next `Now()`: the next of the script, else a free value (log 3). -/
def Env.nextDelta (e : Env) : Nat :=
  match e.deltas with
  | d :: _ => d
  | [] => Config.freeDelta e.draws

/-- The next `Now()` result: never below the last one, because the advance is a natural number. -/
def Env.nextNow (e : Env) : Nat := e.lastNow + e.nextDelta

/-- The environment after the time source has been read. -/
def Env.afterNow (e : Env) : Env :=
  match e.deltas with
  | _ :: rest => { e with deltas := rest, lastNow := e.nextNow }
  | [] => { e with draws := e.draws + 1, lastNow := e.nextNow }

/-! ### The primitives (00_scope.md R10); the history is newest first (log 25) -/

/-- `SetClk(v)`. -/
def setClk (v : Level) (s : State) : State :=
  { s with clk := v, events := .clkWrite v :: s.events }

/-- `ReadData() -> b`. -/
def readData (s : State) : Level × State :=
  (s.env.nextLevel,
   { s with env := s.env.afterLevel, events := .dataRead s.env.nextLevel :: s.events })

/-- `Now() -> t`. -/
def now (s : State) : Nat × State :=
  (s.env.nextNow,
   { s with env := s.env.afterNow, events := .timeRead s.env.nextNow :: s.events })

/-- `Sleep(d)`: an event whose duration no rule reads. -/
def sleep (d : Nat) (s : State) : State :=
  { s with events := .sleep d :: s.events }

/-- `Pulse() -> Nat` (40_read_cycle.md R111): the measured duration of the high phase. -/
def pulse (s : State) : Nat × State :=
  let first := now s
  let second := now (setClk 0#1 (setClk 1#1 first.2))
  (second.1 - first.1, second.2)

/-! ### Counters (10_state.md R32): the cycle in progress uses the pair its context names -/

/-- The counters of the cycle in progress. -/
def counters (s : State) : Counters :=
  match s.seq.ctx with
  | .top => s.seq.top
  | .sub => s.seq.sub

/-- Writes the counters of the cycle in progress. -/
def setCounters (c : Counters) (s : State) : State :=
  match s.seq.ctx with
  | .top => { s with seq.top := c }
  | .sub => { s with seq.sub := c }

/-- A write to DIAG by a cycle: top-level cycles only (40_read_cycle.md R124). -/
def noteDiag (d : Diag) (s : State) : State :=
  match s.seq.ctx with
  | .top => { s with diag := d }
  | .sub => s

/-- Moves the program point (10_state.md R33). -/
def goTo (p : Point) (s : State) : State := { s with seq.point := p }

/-- `CONFIG.ARMED <- 0`, UNKNOWN (10_state.md R41). -/
def disarm (s : State) : State := { s with config.armed := 0#2 }

/-- DIAG cleared (10_state.md R44). -/
def clearDiag (s : State) : State := { s with diag := .zero }

/-! ### Acceptance and end of a command (60_exceptions.md R216, R222) -/

/-- Acceptance: BUSY set, WARN cleared, OP and ARG latched (60_exceptions.md R222, 10_state.md R35). -/
def accept (op : BitVec 4) (arg : Byte) (s : State) : State :=
  { s with status.busy := true, status.warn := false, cmdOp := op, cmdArg := arg }

/-- End of a command that ran no primitive: the code is written and BUSY falls. -/
def retire (c : Code) (s : State) : State :=
  { s with status.code := c, status.busy := false }

/-- End of a command that ran: as `retire`, and the sequencer is IDLE again (60_exceptions.md R216). -/
def finish (c : Code) (s : State) : State := goTo .idle (retire c s)

/-- An illegal command word: accepted, nothing but WARN, CODE and the latches change
(30_encoding.md R86, 60_exceptions.md R222, log 11). -/
def illegalCommand (w : Word) (s : State) : State :=
  retire .illegalCommand (accept (opField w) (argField w) s)

/-- Every piece of block state at its reset value (10_state.md R49, 70_reset_and_hazards.md R240).  The
parameters, the environment, the host's side and the history of the run are not block state and stay
(log 24); the level of `rst` is given. -/
def blockReset (rst : Bool) (s : State) : State :=
  { State.resetWith s.params with
    rst := rst, env := s.env, bus := s.bus, reads := s.reads, events := s.events }

end Sys2Proof.Machine
end

