-- ==== Sys2Proof/Machine/Operands.lean ====
section
/-!
DEFINITION. The operand forms and the datapath: channel code and gain (30_encoding.md R84, R85), trailing
count (R88, 40_read_cycle.md R112), shift register step (R114), guard (R115), sentinels and decode
(R117, R118).
-/

namespace Sys2Proof.Machine

/-- The channel an operand of `set_channel` selects, if it selects one (30_encoding.md R84). -/
def channelOfArg (arg : Byte) : Option Channel :=
  if arg = 0#8 then some .a else if arg = 1#8 then some .b else none

/-- The code of a channel, as CONFIG.CHANNEL shows it (30_encoding.md R84). -/
def channelBit : Channel → BitVec 1
  | .a => 0#1
  | .b => 1#1

/-- `TrailCount(ch, ga)` (40_read_cycle.md R112). -/
def trailCount (c : Channel) (gainA : Byte) : Nat :=
  match c with
  | .a => if gainA = 128#8 then 1 else 3
  | .b => 2

/-- The trailing count of the configuration in force: CONFIG.TRAIL (10_state.md R40). -/
def trailOf (s : State) : Nat := trailCount s.config.channel s.config.gainA

/-- `SHREG[22:0] :: b` (10_state.md R31). -/
def shiftIn (r : Frame) (b : Level) : Frame := (r.extractLsb' 0 23 ++ b).setWidth 24

/-- The guard: a pulse measured at `e` trips it when `e >= T_GUARD_NS` (40_read_cycle.md R115). -/
def guardTrips (p : Params) (e : Nat) : Bool := p.tGuardNs ≤ e

/-- The two patterns that carry no sample (40_read_cycle.md R117). -/
def isSentinel (r : Frame) : Bool := r == sentinelMax || r == sentinelMin

/-- `Decode(r)`, on unbounded integers (40_read_cycle.md R118). -/
def decodeSample (r : Frame) : Int :=
  if r.getLsbD 23 then -(((r ^^^ 0xFFFFFF#24).toNat : Int) + 1) else (r.toNat : Int)

/-- `sext_32(r)`: what SAMPLE receives (40_read_cycle.md R118). -/
def deliver (r : Frame) : Word := r.signExtend 32

end Sys2Proof.Machine
end

