-- ==== Sys2Proof/Machine/Flags.lean ====
section
/-!
DEFINITION. The flags and the host-visible register words: status codes (60_exceptions.md R210), PHASE
codes (10_state.md R33), the words of STATUS, CONFIG, RAW, SAMPLE and DIAG (R36-R45), and the settings of
WARN, FATAL and SETTLE_CODE (R39).
-/

namespace Sys2Proof.Machine

/-- The 4-bit numbers of the status codes (60_exceptions.md R210). -/
def Code.bits : Code → BitVec 4
  | .ok => 0x0#4
  | .notReady => 0x1#4
  | .timingViolation => 0x2#4
  | .invalidSample => 0x3#4
  | .protocolDesync => 0x4#4
  | .invalidParameter => 0x5#4
  | .illegalCommand => 0x6#4
  | .none => 0xF#4

/-- A code a read cycle can end with (60_exceptions.md R210, R214): OK, NOT_READY,
TIMING_VIOLATION, INVALID_SAMPLE or PROTOCOL_DESYNC. -/
def Code.isCycleCode : Code → Bool
  | .ok => true
  | .notReady => true
  | .timingViolation => true
  | .invalidSample => true
  | .protocolDesync => true
  | .invalidParameter => false
  | .illegalCommand => false
  | .none => false

/-- The codes of PHASE (10_state.md R33). -/
def Phase.bits : Phase → BitVec 4
  | .idle => 0#4
  | .poll => 1#4
  | .pollWait => 2#4
  | .data => 3#4
  | .trail => 4#4
  | .decode => 5#4
  | .recover => 6#4
  | .settleWait => 7#4
  | .pd => 8#4
  | .pu => 9#4
  | .resetSettle => 10#4

/-- The label of a program point (10_state.md R33). -/
def Point.phase : Point → Phase
  | .idle => .idle
  | .poll => .poll
  | .pollWait => .pollWait
  | .dataStart => .data
  | .dataRise _ => .data
  | .dataFall _ => .data
  | .dataStop _ => .data
  | .dataSample => .data
  | .trailStart => .trail
  | .trailRise _ => .trail
  | .trailFall _ => .trail
  | .trailStop _ => .trail
  | .decode => .decode
  | .recover => .recover
  | .settleWait => .settleWait
  | .pdLow => .pd
  | .pdHigh => .pd
  | .pdHold => .pd
  | .puLow => .pu
  | .puWait => .pu
  | .resetSettle => .resetSettle

/-- PHASE (10_state.md R33). -/
def phase (s : State) : Phase := s.seq.point.phase

/-! ### The flags (10_state.md R38, R39) -/

/-- `STATUS.WARN <- 1`, by `set_gain` on channel B only (60_exceptions.md R212). -/
def setWarn (s : State) : State := { s with status.warn := true }

/-- `STATUS.FATAL <- f`, by the end of `reset` only (42_power.md R174). -/
def setFatal (f : Bool) (s : State) : State := { s with status.fatal := f }

/-- `STATUS.SETTLE_CODE <- c`, by a settle read only (41_config.md R151). -/
def setSettleCode (c : Code) (s : State) : State := { s with status.settleCode := c }

/-! ### The register words (10_state.md section 2); the unlisted upper bits are reserved and read 0 -/

/-- STATUS = CODE | BUSY<<4 | WARN<<5 | FATAL<<6 | SETTLE_CODE<<8 (10_state.md R37). -/
def statusWord (s : State) : Word :=
  (s.status.settleCode.bits ++ 0#1 ++ BitVec.ofBool s.status.fatal ++
    BitVec.ofBool s.status.warn ++ BitVec.ofBool s.status.busy ++ s.status.code.bits).setWidth 32

/-- CONFIG = CHANNEL | GAIN_A<<8 | TRAIL<<16 | ARMED<<18 | SAMPLE_CFG<<20 (10_state.md R40). -/
def configWord (s : State) : Word :=
  (s.config.sampleCfg ++ s.config.armed ++ BitVec.ofNat 2 (trailOf s) ++
    s.config.gainA ++ 0#7 ++ channelBit s.config.channel).setWidth 32

/-- RAW: the frame in bits 23:0, bits 31:24 read 0 (10_state.md R43). -/
def rawWord (s : State) : Word := s.raw.setWidth 32

/-- DIAG = POLLS | BITCNT<<8 | TRAILCNT<<16 | REC_VALID<<20 (10_state.md R44). -/
def diagWord (s : State) : Word :=
  (s.diag.recValid ++ s.diag.trailcnt ++ s.diag.bitcnt ++ s.diag.polls).setWidth 32

/-- The offsets of the window (20_memory.md R62). -/
def cmdOffset : Nat := 0x00
/-- STATUS. -/
def statusOffset : Nat := 0x04
/-- RAW. -/
def rawOffset : Nat := 0x08
/-- SAMPLE. -/
def sampleOffset : Nat := 0x0C
/-- CONFIG. -/
def configOffset : Nat := 0x10
/-- DIAG. -/
def diagOffset : Nat := 0x14

/-- The word of the register at an offset of the window, exact while BUSY = 0: CMD reads 0
(10_state.md R36), the reserved offsets read 0 (R45). -/
def registerWord (off : Nat) (s : State) : Word :=
  if off = statusOffset then statusWord s
  else if off = rawOffset then rawWord s
  else if off = sampleOffset then s.sample
  else if off = configOffset then configWord s
  else if off = diagOffset then diagWord s
  else 0#32

end Sys2Proof.Machine
end

