-- ==== Sys2Proof/Machine/ReadCycle.lean ====
section
/-!
DEFINITION. The read cycle (40_read_cycle.md R111-R120), in the shape of its pseudocode, and `read_one`
(R110).  The register writes between the primitives are named operations, which the sequencer
(Machine/Sequencer.lean) uses too.
-/

namespace Sys2Proof.Machine

/-! ### The register writes of the cycle (40_read_cycle.md R120) -/

/-- The context of the cycle in progress (10_state.md R33). -/
def setCtx (ctx : Ctx) (s : State) : State := { s with seq.ctx := ctx }

/-- The first `tries` of a cycle: 0 (R113). -/
def clearTries (s : State) : State := setCounters { counters s with tries := 0 } s

/-- The start of a cycle: a top-level one clears DIAG; `tries <- 0`. -/
def beginCycle (ctx : Ctx) (s : State) : State := clearTries (noteDiag .zero (setCtx ctx s))

/-- After a readiness sample: `tries <- tries + 1`, and DIAG.POLLS in a top-level cycle (R113). -/
def pollDone (s : State) : State :=
  let t := (counters s).tries + 1
  noteDiag { s.diag with polls := BitVec.ofNat 8 t } (setCounters { counters s with tries := t } s)

/-- The start of the data phase: `cfg0`, `n`, `SHREG <- 0` and the pulse counter (R114). -/
def beginData (s : State) : State :=
  setCounters { counters s with i := 0 }
    { s with seq.cfg0 := s.config.armed, seq.n := trailOf s, shreg := 0#24 }

/-- After the sample of a data pulse: shift in, count, DIAG.BITCNT in a top-level cycle (R114). -/
def bitDone (b : Level) (s : State) : State :=
  let i := (counters s).i + 1
  noteDiag { s.diag with bitcnt := BitVec.ofNat 8 i }
    (setCounters { counters s with i := i } { s with shreg := shiftIn s.shreg b })

/-- The end of the data phase and the start of the trailing phase: RAW if the cycle latches (R114). -/
def beginTrail (latch : Bool) (s : State) : State :=
  setCounters { counters s with j := 0 } { s with raw := if latch then s.shreg else s.raw }

/-- After a trailing pulse that passed: count, DIAG.TRAILCNT in a top-level cycle (R116). -/
def trailDone (s : State) : State :=
  let j := (counters s).j + 1
  noteDiag { s.diag with trailcnt := BitVec.ofNat 4 j } (setCounters { counters s with j := j } s)

/-- The end of a complete trailing phase: `CONFIG.ARMED <- n` (R116). -/
def armTrail (s : State) : State := { s with config.armed := BitVec.ofNat 2 s.seq.n }

/-- The code of the frame: sentinels carry no sample (R117). -/
def frameCode (s : State) : Code := if isSentinel s.shreg then .invalidSample else .ok

/-- What the decode writes: SAMPLE and SAMPLE_CFG, if the cycle latches and the frame carries a sample
(R118). -/
def latchSample (latch : Bool) (s : State) : State :=
  if latch && !isSentinel s.shreg then
    { s with sample := deliver s.shreg, config.sampleCfg := s.seq.cfg0 }
  else s

/-! ### The phases -/

/-- The readiness wait with `m` samples left: whether the line read low (R113). -/
def pollLoop : Nat → State → Bool × State
  | 0, s => (false, s)
  | m + 1, s =>
    let r := readData s
    let t := pollDone r.2
    if r.1 = 0#1 then (true, t) else pollLoop m (sleep t.params.pollIntervalNs t)

/-- The data phase with `m` pulses left: whether every pulse passed the guard (R114). -/
def dataLoop : Nat → State → Bool × State
  | 0, s => (true, s)
  | m + 1, s =>
    let p := pulse s
    if guardTrips p.2.params p.1 then (false, disarm p.2)
    else
      let r := readData p.2
      dataLoop m (bitDone r.1 r.2)

/-- The trailing phase with `m` pulses left: whether every pulse passed the guard (R116). -/
def trailLoop : Nat → State → Bool × State
  | 0, s => (true, s)
  | m + 1, s =>
    let p := pulse s
    if guardTrips p.2.params p.1 then (false, disarm p.2) else trailLoop m (trailDone p.2)

/-- How the phases of a cycle end: with a code, or at a trailing pulse that tripped the guard, where a
top-level cycle recovers and a sub-cycle does not (R116). -/
inductive CycleEnd where
  | code (c : Code)
  | trailTrip
deriving DecidableEq, Repr

/-- The four phases of `Cycle(ctx, latch)` after its start, up to the recovery (R120). -/
def cycleBody (latch : Bool) (s : State) : CycleEnd × State :=
  let ready := pollLoop s.params.readyMaxTries s
  if !ready.1 then (.code .notReady, ready.2)
  else
    let bits := dataLoop frameBits (beginData ready.2)
    if !bits.1 then (.code .timingViolation, bits.2)
    else
      let t := beginTrail latch bits.2
      let trail := trailLoop t.seq.n t
      if !trail.1 then (.trailTrip, trail.2)
      else
        let d := armTrail trail.2
        (.code (frameCode d), latchSample latch d)

/-- `Cycle(SUB, latch = false)`: it never recovers (R116, R119). -/
def subCycle (s : State) : Code × State :=
  let r := cycleBody false (beginCycle .sub s)
  match r.1 with
  | .code c => (c, r.2)
  | .trailTrip => (.timingViolation, r.2)

/-! ### Loops of sub-cycles (40_read_cycle.md R119, 42_power.md R174) -/

/-- The start of such a loop: `k <- 0; v <- 0`. -/
def beginSubs (s : State) : State := { s with seq.k := 0, seq.v := 0 }

/-- After a sub-cycle: `k` counts it, `v` counts it if it returned OK. -/
def subDone (c : Code) (s : State) : State :=
  { s with seq.k := s.seq.k + 1, seq.v := if c = .ok then s.seq.v + 1 else s.seq.v }

/-- `m` sub-cycles, always all of them. -/
def subLoop : Nat → State → State
  | 0, s => s
  | m + 1, s => let r := subCycle s; subLoop m (subDone r.1 r.2)

/-- The code a recovery leaves to its top-level cycle (R116). -/
def recoveryCode (v : Nat) : Code := if v = 0 then .protocolDesync else .timingViolation

/-- `DIAG.REC_VALID <- v` (R116, 42_power.md R174). -/
def noteRecValid (s : State) : State := { s with diag.recValid := BitVec.ofNat 4 s.seq.v }

/-- The end of a recovery: DIAG.REC_VALID, and the top-level cycle is in progress again (R116). -/
def endRecovery (s : State) : State := setCtx .top (noteRecValid s)

/-- `Recover()` and what the top-level cycle does with its count (R116, R119). -/
def recoverTop (s : State) : Code × State :=
  let t := subLoop s.params.recoveryReads (beginSubs s)
  (recoveryCode t.seq.v, endRecovery t)

/-- `Cycle(TOP, latch)` (R120). -/
def topCycle (latch : Bool) (s : State) : Code × State :=
  let r := cycleBody latch (beginCycle .top s)
  match r.1 with
  | .code c => (c, r.2)
  | .trailTrip => recoverTop r.2

/-! ### The command -/

/-- `STATUS.CODE <- Cycle(TOP, latch = true)`, with acceptance and end (R110). -/
def readOneResult (s : State) : State :=
  let r := topCycle true (accept 0x1#4 0#8 s)
  finish r.1 r.2

/-- `read_one` (40_read_cycle.md R110). -/
def execReadOne (s : State) : Host.Outcome State Fault Refusal := .next (readOneResult s)

end Sys2Proof.Machine
end

