-- ==== Sys2Proof/Machine/ConfigCommands.lean ====
section
/-!
DEFINITION. The configuration commands `set_channel` and `set_gain` and their settle read
(41_config.md R150-R156).
-/

namespace Sys2Proof.Machine

/-- `Settle()` (41_config.md R151): one top-level cycle whose code goes to SETTLE_CODE, then the delay. -/
def settle (s : State) : State :=
  let r := topCycle false s
  sleep r.2.params.tSettleNs (setSettleCode r.1 r.2)

/-- `CONFIG.CHANNEL <- c` (41_config.md R150). -/
def setChannel (c : Channel) (s : State) : State := { s with config.channel := c }

/-- `CONFIG.GAIN_A <- g` (41_config.md R153). -/
def setGainA (g : Byte) (s : State) : State := { s with config.gainA := g }

/-- The effect of `set_channel` (41_config.md R150). -/
def setChannelResult (arg : Byte) (s : State) : State :=
  let s := accept 0x2#4 arg s
  match channelOfArg s.cmdArg with
  | none => retire .invalidParameter s
  | some c => finish .ok (settle (setChannel c s))

/-- The effect of `set_gain`: the channel is tested before the value (41_config.md R153, R154). -/
def setGainResult (arg : Byte) (s : State) : State :=
  let s := accept 0x3#4 arg s
  if s.config.channel = .b then retire .ok (setWarn s)
  else if gainLegal s.cmdArg then finish .ok (settle (setGainA s.cmdArg s))
  else retire .invalidParameter s

/-- `set_channel` (41_config.md R150). -/
def execSetChannel (arg : Byte) (s : State) : Host.Outcome State Fault Refusal :=
  .next (setChannelResult arg s)

/-- `set_gain` (41_config.md R153). -/
def execSetGain (arg : Byte) (s : State) : Host.Outcome State Fault Refusal :=
  .next (setGainResult arg s)

end Sys2Proof.Machine
end

