-- ==== Sys2Proof/Machine/PowerCommands.lean ====
section
/-!
DEFINITION. The power commands `power_down`, `power_up` and `reset` (42_power.md R170-R176).
-/

namespace Sys2Proof.Machine

/-- `SetClk(0); SetClk(1); Sleep(T_PD_NS); CONFIG.ARMED <- 0` (42_power.md R170).  The high phase is not
guarded (40_read_cycle.md R115). -/
def enterPowerDown (s : State) : State :=
  disarm (sleep s.params.tPdNs (setClk 1#1 (setClk 0#1 s)))

/-- `SetClk(0); Sleep(T_PU_NS)` (42_power.md R172). -/
def leavePowerDown (s : State) : State := sleep s.params.tPuNs (setClk 0#1 s)

/-- The code of the self-test: OK when at least one settle sub-cycle returned OK (42_power.md R174). -/
def resetCode (v : Nat) : Code := if v = 0 then .protocolDesync else .ok

/-- The end of `reset`: REC_VALID, FATAL and CODE from the count of valid sub-cycles (42_power.md R174). -/
def endReset (s : State) : State :=
  finish (resetCode s.seq.v) (setFatal (s.seq.v == 0) (noteRecValid s))

/-- The effect of `reset`: clear DIAG, power-cycle the chip, run the settle loop (42_power.md R174). -/
def resetResult (s : State) : State :=
  let t := leavePowerDown (enterPowerDown (clearDiag (accept 0x6#4 0#8 s)))
  endReset (subLoop t.params.resetSettleReads (beginSubs t))

/-- `power_down` (42_power.md R170). -/
def execPowerDown (s : State) : Host.Outcome State Fault Refusal :=
  .next (finish .ok (enterPowerDown (accept 0x4#4 0#8 s)))

/-- `power_up` (42_power.md R172). -/
def execPowerUp (s : State) : Host.Outcome State Fault Refusal :=
  .next (finish .ok (leavePowerDown (accept 0x5#4 0#8 s)))

/-- `reset` (42_power.md R174). -/
def execReset (s : State) : Host.Outcome State Fault Refusal := .next (resetResult s)

end Sys2Proof.Machine
end

