-- ==== Sys2Proof/Machine/Dispatch.lean ====
section
/-!
DEFINITION. Which meaning each command has: one arm per constructor of `Instr`.
-/

namespace Sys2Proof.Machine

def exec (i : Instr) (s : State) : Host.Outcome State Fault Refusal :=
  match i with
  | .readOne => Sys2Proof.Machine.execReadOne s
  | .setChannel arg => Sys2Proof.Machine.execSetChannel arg s
  | .setGain arg => Sys2Proof.Machine.execSetGain arg s
  | .powerDown => Sys2Proof.Machine.execPowerDown s
  | .powerUp => Sys2Proof.Machine.execPowerUp s
  | .reset => Sys2Proof.Machine.execReset s

end Sys2Proof.Machine
end

