-- ==== Sys2Proof/Machine/Sequencer.lean ====
section
/-!
DEFINITION. The engine one primitive at a time (00_scope.md R10, R11; 10_state.md R33): where a command
starts and what one step of its own does.  It uses the same primitives and the same register writes as
the commands' meanings, which run a command to its end; between primitives the registers are those of the
program points, and BUSY = 1 throughout (10_state.md R38).  At `decode`, `recover` and `resetSettle` a
step runs no primitive (log 12).
-/

namespace Sys2Proof.Machine

/-- A cycle at its first primitive (40_read_cycle.md R120). -/
def startCycle (ctx : Ctx) (s : State) : State := goTo .poll (beginCycle ctx s)

/-- Acceptance of a command and everything before its first primitive (60_exceptions.md R222). -/
def start (i : Instr) (s : State) : State :=
  let s := accept i.op i.arg s
  match i with
  | .readOne => startCycle .top s
  | .setChannel _ =>
    match channelOfArg s.cmdArg with
    | none => retire .invalidParameter s
    | some c => startCycle .top (setChannel c s)
  | .setGain _ =>
    if s.config.channel = .b then retire .ok (setWarn s)
    else if gainLegal s.cmdArg then startCycle .top (setGainA s.cmdArg s)
    else retire .invalidParameter s
  | .powerDown => goTo .pdLow s
  | .powerUp => goTo .puLow s
  | .reset => goTo .pdLow (clearDiag s)

/-- Whether the cycle in progress latches: only the top-level cycle of `read_one` (40_read_cycle.md R120). -/
def latching (s : State) : Bool := s.seq.ctx == .top && s.cmdOp == Instr.readOne.op

/-- Whether the running command is `reset` (10_state.md R35). -/
def runsReset (s : State) : Bool := s.cmdOp == Instr.reset.op

/-- Where the loop of sub-cycles in progress has its head: in `reset` or in a recovery. -/
def subHead (s : State) : Point := if runsReset s then .resetSettle else .recover

/-- A cycle has ended with a code: a top-level one ends `read_one`, or is the settle read of a
configuration command (41_config.md R151); a sub-cycle returns to its loop. -/
def cycleEnded (c : Code) (s : State) : State :=
  match s.seq.ctx with
  | .top =>
    if s.cmdOp = Instr.readOne.op then finish c s else goTo .settleWait (setSettleCode c s)
  | .sub => goTo (subHead s) (subDone c s)

/-- A trailing pulse has tripped the guard (40_read_cycle.md R116). -/
def trailTripped (s : State) : State :=
  match s.seq.ctx with
  | .top => goTo .recover (beginSubs s)
  | .sub => cycleEnded .timingViolation s

/-- One step of the engine from its program point.  IDLE with BUSY = 1 is the moment after `rst` has been
deasserted: the automatic `reset` begins, exactly as if its word had been accepted
(70_reset_and_hazards.md R240). -/
def tick (s : State) : State :=
  match s.seq.point with
  | .idle => if s.status.busy then start .reset s else s
  | .poll =>
    let r := readData s
    let t := pollDone r.2
    if r.1 = 0#1 then goTo .dataStart (beginData t) else goTo .pollWait t
  | .pollWait =>
    let t := sleep s.params.pollIntervalNs s
    if (counters t).tries = t.params.readyMaxTries then cycleEnded .notReady t else goTo .poll t
  | .dataStart => let r := now s; goTo (.dataRise r.1) r.2
  | .dataRise t0 => goTo (.dataFall t0) (setClk 1#1 s)
  | .dataFall t0 => goTo (.dataStop t0) (setClk 0#1 s)
  | .dataStop t0 =>
    let r := now s
    if guardTrips r.2.params (r.1 - t0) then cycleEnded .timingViolation (disarm r.2)
    else goTo .dataSample r.2
  | .dataSample =>
    let r := readData s
    let t := bitDone r.1 r.2
    if (counters t).i = frameBits then goTo .trailStart (beginTrail (latching t) t)
    else goTo .dataStart t
  | .trailStart => let r := now s; goTo (.trailRise r.1) r.2
  | .trailRise t0 => goTo (.trailFall t0) (setClk 1#1 s)
  | .trailFall t0 => goTo (.trailStop t0) (setClk 0#1 s)
  | .trailStop t0 =>
    let r := now s
    if guardTrips r.2.params (r.1 - t0) then trailTripped (disarm r.2)
    else
      let t := trailDone r.2
      if (counters t).j = t.seq.n then goTo .decode (armTrail t) else goTo .trailStart t
  | .decode => cycleEnded (frameCode s) (latchSample (latching s) s)
  | .recover =>
    if s.seq.k < s.params.recoveryReads then startCycle .sub s
    else cycleEnded (recoveryCode s.seq.v) (endRecovery s)
  | .settleWait => finish .ok (sleep s.params.tSettleNs s)
  | .pdLow => goTo .pdHigh (setClk 0#1 s)
  | .pdHigh => goTo .pdHold (setClk 1#1 s)
  | .pdHold =>
    let t := disarm (sleep s.params.tPdNs s)
    if runsReset t then goTo .puLow t else finish .ok t
  | .puLow => goTo .puWait (setClk 0#1 s)
  | .puWait =>
    let t := sleep s.params.tPuNs s
    if runsReset t then goTo .resetSettle (beginSubs t) else finish .ok t
  | .resetSettle =>
    if s.seq.k < s.params.resetSettleReads then startCycle .sub s else endReset s

/-- One step of the engine; while `rst` is asserted no primitive runs (70_reset_and_hazards.md R240). -/
def engineStep (s : State) : State := if s.rst then s else tick s

/-- `m` steps of the engine. -/
def engineSteps : Nat → State → State
  | 0, s => s
  | m + 1, s => engineSteps m (engineStep s)

end Sys2Proof.Machine
end

