-- ==== Sys2Proof/Machine/HostPort.lean ====
section
/-!
DEFINITION. The host register port and the `rst` input (60_exceptions.md R220, R222, R226; 20_memory.md R62,
R65, R67, R68; 70_reset_and_hazards.md R240, R244), and what one step of the machine does.
-/

namespace Sys2Proof.Machine

/-- The offset of an access in the window, if it is admitted: a 32-bit access at a multiple of 4 within
the 32 bytes from BASE (20_memory.md R62, R65). -/
def windowOffset (p : Params) (addr bytes : Nat) : Option Nat :=
  if bytes = 4 ∧ p.base ≤ addr ∧ addr < p.base + 32 ∧ (addr - p.base) % 4 = 0 then
    some (addr - p.base)
  else none

/-- Whether a write to CMD is ignored: while BUSY = 1 (60_exceptions.md R222) and while `rst` is asserted
(70_reset_and_hazards.md R240). -/
def cmdIgnored (s : State) : Bool := s.rst || s.status.busy

/-- A write to CMD (60_exceptions.md R222): the command is accepted and waits at its first primitive. -/
def writeCmd (w : Word) (s : State) : State :=
  if cmdIgnored s then s
  else
    match decodeCmd w with
    | .error _ => illegalCommand w s
    | .ok i => start i s

/-- A write to the register at an offset: only CMD takes it (20_memory.md R67). -/
def writeRegister (off : Nat) (v : Word) (s : State) : State :=
  if off = cmdOffset then writeCmd v s else s

/-- A read of the register at an offset: exact while BUSY = 0 and for STATUS, else a free value
(10_state.md R38, 20_memory.md R68, log 4).  What the host gets back is put on `reads`. -/
def readRegister (off : Nat) (s : State) : State :=
  if s.status.busy ∧ off ≠ statusOffset then
    { s with reads := Config.freeWord s.env.draws :: s.reads, env.draws := s.env.draws + 1 }
  else { s with reads := registerWord off s :: s.reads }

/-- A command written to CMD by a host that then waits for BUSY = 0 (30_encoding.md R93): the command's
meaning, or ILLEGAL_COMMAND; an ignored write leaves the wait. -/
def commandStep (w : Word) (s : State) : Host.Outcome State Fault Refusal :=
  if cmdIgnored s then .next { s with bus := .waitIdle :: s.bus }
  else
    match decodeCmd w with
    | .error _ => .next (illegalCommand w s)
    | .ok i => exec i s

/-- A host operation, which has been taken from the queue. -/
def hostStep (op : HostOp) (s : State) : Host.Outcome State Fault Refusal :=
  match op with
  | .command w => commandStep w s
  | .write addr bytes v =>
    match windowOffset s.params addr bytes with
    | none => .fault .inadmissibleAccess
    | some off => .next (writeRegister off v s)
  | .read addr bytes =>
    match windowOffset s.params addr bytes with
    | none => .fault .inadmissibleAccess
    | some off => .next (readRegister off s)
  | .waitIdle =>
    if s.status.busy then .next (engineStep { s with bus := .waitIdle :: s.bus }) else .next s
  | .pause => .next (engineStep s)
  | .assertRst => .next (blockReset true s)
  | .releaseRst => .next { s with rst := false }

/-- One step of the machine: the next host operation, or, where none is pending, one step of the engine.
Parameters outside their ranges are refused (70_reset_and_hazards.md R241). -/
def stepOf (s : State) : Host.Outcome State Fault Refusal :=
  if s.params.legal then
    match s.bus with
    | [] => .next (engineStep s)
    | op :: rest => hostStep op { s with bus := rest }
  else .refused .illegalConfiguration

/-- The block idle and the word as the host's next command (log 8). -/
def placeCommand (w : Word) (s : State) : State :=
  { s with rst := false, status.busy := false, seq.point := .idle, bus := .command w :: s.bus }

end Sys2Proof.Machine
end

