-- ==== Sys2Proof/Machine/Step.lean ====
section
/-!
DEFINITION. The step of the machine, and the state in which a given word is the next command it runs.
-/

namespace Sys2Proof.Machine

/-- One step (Machine/HostPort.lean). -/
def step (s : State) : Host.Outcome State Fault Refusal := stepOf s

/-- The state in which the very next step runs the command whose word, numbered as
spec/opcode_table.json numbers its bits, is `w`.  The block fetches nothing: the host writes a command to
CMD while BUSY = 0, so the block is made idle and the word is put at the head of the host's queue (log 8). -/
def State.withFetchWord (s : State) (nbits w : Nat) : State :=
  placeCommand (BitVec.ofNat 32 (w % 2 ^ nbits)) s

end Sys2Proof.Machine
end

