-- ==== Sys2Proof/Machine/Aggregator.lean ====
section
/-!
DEFINITION. The host's reference procedures (45_host_aggregator.md R190-R197): no rule of the block depends
on them.  They drive the machine through its own port, one host operation at a time.
-/

namespace Sys2Proof.Machine

/-- What the measure-count check answers (45_host_aggregator.md R191).  `illegalBounds`: the host's bounds
violate the constraints of R192, and no procedure runs under them (log 27). -/
inductive CountCheck where
  | accepted
  | invalidParameter
  | illegalBounds
deriving DecidableEq, Repr

/-- How an `acquire` ends.  `running`: the loop, or a wait for a busy block, has not ended within the fuel
given; it need not ever end (45_host_aggregator.md R195, log 21).  `stopped`: the machine faulted or refused.
`illegalBounds`: as in `CountCheck` (log 27). -/
inductive Acquired where
  | samples (l : List Word)
  | invalidParameter
  | protocolDesync
  | running
  | stopped
  | illegalBounds
deriving DecidableEq, Repr

/-- `validate_measure_count(times)` (45_host_aggregator.md R191), under bounds R192 admits.  The count is any
integer, a negative one being rejected (DEDUCED from the rule's "every integer", log 28). -/
def validateMeasureCount (h : HostParams) (times : Int) : CountCheck :=
  if h.legal then
    if (h.minMeasures : Int) ≤ times ∧ times ≤ h.maxMeasures then .accepted else .invalidParameter
  else .illegalBounds

/-- The host issues one operation to an otherwise empty queue. -/
def issue (op : HostOp) (s : State) : Host.Outcome State Fault Refusal := step { s with bus := [op] }

/-- The host's read of a register (00_scope.md R10 `MemRead(off, 4)`). -/
def memRead (off : Nat) (s : State) : Option (Word × State) :=
  match issue (.read (s.params.base + off) 4) s with
  | .next t => some (t.reads.headD 0#32, t)
  | .fault _ => none
  | .refused _ => none

/-- `get_channel` = `MemRead(0x10, 4)[0]` (30_encoding.md R93): a draw while BUSY = 1 (10_state.md R38). -/
def getChannel (s : State) : Option (BitVec 1 × State) :=
  (memRead configOffset s).map fun r => (r.1.extractLsb' 0 1, r.2)

/-- `get_gain`, alias `channel_a_gain` = `MemRead(0x10, 4)[15:8]`, whatever the channel (30_encoding.md R93):
a draw while BUSY = 1. -/
def getGain (s : State) : Option (Byte × State) :=
  (memRead configOffset s).map fun r => (r.1.extractLsb' 8 8, r.2)

/-- The rest of a `wait_idle` the host has queued (30_encoding.md R93): the machine steps until the wait has been
taken, at most `polls` times. -/
def awaitIdle : Nat → State → Except (Acquired × State) State
  | 0, s => if s.bus = [] then .ok s else .error (.running, s)
  | polls + 1, s =>
    if s.bus = [] then .ok s
    else
      match step s with
      | .next t => awaitIdle polls t
      | .fault _ => .error (.stopped, s)
      | .refused _ => .error (.stopped, s)

/-- What the host gets back when BUSY has fallen: STATUS.CODE, and SAMPLE if it is OK
(45_host_aggregator.md R193). -/
def readResult (s : State) : Except (Acquired × State) ((BitVec 4 × Option Word) × State) :=
  match memRead statusOffset s with
  | none => .error (.stopped, s)
  | some (st, t) =>
    let c := st.extractLsb' 0 4
    if c = Code.ok.bits then
      match memRead sampleOffset t with
      | none => .error (.stopped, t)
      | some (x, u) => .ok ((c, some x), u)
    else .ok ((c, none), t)

/-- One round of `acquire`: `read_one`, `wait_idle`, and what it gets back (45_host_aggregator.md R193).  A busy
block ignores the write, and the round waits for the command in progress (60_exceptions.md R222).  An error ends
the call. -/
def acquireRound (polls : Nat) (s : State) :
    Except (Acquired × State) ((BitVec 4 × Option Word) × State) :=
  match issue (.command (encode .readOne)) s with
  | .next t =>
    match awaitIdle polls t with
    | .ok u => readResult u
    | .error e => .error e
  | .fault _ => .error (.stopped, s)
  | .refused _ => .error (.stopped, s)

/-- The loop of `acquire` (45_host_aggregator.md R193), with `rounds` rounds at most and `polls` steps at most in
each wait; `out` is oldest first, `d` counts the desyncs of this call. -/
def acquireLoop (h : HostParams) (times polls : Nat) : Nat → List Word → Nat → State → Acquired × State
  | 0, out, _, s => (if out.length < times then .running else .samples out, s)
  | rounds + 1, out, d, s =>
    if out.length < times then
      match acquireRound polls s with
      | .error e => e
      | .ok ((_, some x), t) => acquireLoop h times polls rounds (out ++ [x]) d t
      | .ok ((c, none), t) =>
        if c = Code.protocolDesync.bits then
          if h.desyncRetryLimit < d + 1 then (.protocolDesync, t)
          else acquireLoop h times polls rounds out (d + 1) t
        else acquireLoop h times polls rounds out d t
    else (.samples out, s)

/-- `acquire(times)`, alias `get_raw_data(times)` (45_host_aggregator.md R193); `fuel` bounds the rounds, and the
steps of each wait (log 21).  A count that is accepted is not negative. -/
def acquire (h : HostParams) (times : Int) (fuel : Nat) (s : State) : Acquired × State :=
  match validateMeasureCount h times with
  | .accepted => acquireLoop h times.toNat fuel fuel [] 0 s
  | .invalidParameter => (.invalidParameter, s)
  | .illegalBounds => (.illegalBounds, s)

/-- The result of the document's `reset() -> bool`, after the `reset` command has ended: true exactly
when STATUS.CODE = OK (45_host_aggregator.md R197). -/
def resetSucceeded (s : State) : Bool := (statusWord s).extractLsb' 0 4 == Code.ok.bits

end Sys2Proof.Machine
end

