-- ==== Sys2Proof/Safety.lean ====
section
/-!
DEFINITION. The terms in which claims are stated: when the host may issue a command, the invariants of the
block's registers, of its sequencer and of its history, and environments whose next answers are given.
-/

namespace Sys2Proof.Machine

/-- The host may issue a command: `rst` is low and BUSY = 0 (60_exceptions.md R222, R226). -/
def Idle (s : State) : Prop := s.rst = false ∧ s.status.busy = false

/-- The SAMPLE the host reads is new and belongs to the configuration in force (41_config.md R152,
60_exceptions.md R226): no command is in progress, the last one was `read_one`, so that no configuration change
came after the sample, it returned OK, and SAMPLE_CFG = TRAIL. -/
def SampleTrusted (s : State) : Prop :=
  s.status.busy = false ∧ s.cmdOp = Instr.readOne.op ∧ s.status.code = .ok ∧
    s.config.sampleCfg = BitVec.ofNat 2 (trailOf s)

/-! ### Runs -/

/-- `m` steps of the machine, ending early where a step stops. -/
def runSteps : Nat → State → Host.Outcome State Fault Refusal
  | 0, s => .next s
  | m + 1, s =>
    match step s with
    | .next t => runSteps m t
    | .fault r => .fault r
    | .refused r => .refused r

/-- From `u` the engine ends in `t`, and so does the machine under each of the host's queues that only let the
engine run, whatever is queued behind them: as many pauses as the engine takes steps, no operation at all, and a
wait for BUSY = 0.  The pauses and the wait are taken from the queue (log 7, log 26). -/
structure RunsTo (u t : State) : Prop where
  paused : ∃ m, engineSteps m u = t ∧
    ∀ rest, runSteps m { u with bus := List.replicate m .pause ++ rest } = .next { t with bus := rest }
  alone : ∃ m, runSteps m { u with bus := [] } = .next { t with bus := [] }
  waiting : ∀ rest, ∃ m, runSteps m { u with bus := .waitIdle :: rest } = .next { t with bus := rest }

/-! ### Register invariants -/

/-- CONFIG.GAIN_A is 64 or 128 (10_state.md R42); CHANNEL is A or B by its type. -/
def ConfigLegal (s : State) : Prop := gainLegal s.config.gainA = true

/-- SAMPLE is the delivery of a frame that is no sentinel (40_read_cycle.md R117, R118; its reset value 0
is the delivery of frame 0). -/
def SampleSound (s : State) : Prop := ∃ r : Frame, isSentinel r = false ∧ s.sample = deliver r

/-- STATUS.SETTLE_CODE takes only 0x0..0x4 or 0xF (60_exceptions.md R210). -/
def SettleCodeLegal (s : State) : Prop :=
  s.status.settleCode.isCycleCode = true ∨ s.status.settleCode = .none

/-! ### The history -/

/-- The results of `Now()` in a history. -/
def timeReads : List Event → List Nat
  | [] => []
  | .timeRead t :: es => t :: timeReads es
  | .clkWrite _ :: es => timeReads es
  | .dataRead _ :: es => timeReads es
  | .sleep _ :: es => timeReads es

/-- Every `Now()` result is at least every earlier one, and none is above the last one
(00_scope.md R10; the history is newest first). -/
def TimeOrdered (s : State) : Prop :=
  (s.env.lastNow :: timeReads s.events).Pairwise (fun later earlier => earlier ≤ later)

/-- How many pulses a history holds: each is one `SetClk(1)` (40_read_cycle.md R111). -/
def highWrites (es : List Event) : Nat := es.count (.clkWrite 1#1)

/-! ### The sequencer (10_state.md R32, R33, R44) -/

/-- The sub-cycles the loop of the running command has in all. -/
def loopBound (s : State) : Nat :=
  if s.cmdOp = Instr.reset.op then s.params.resetSettleReads else s.params.recoveryReads

/-- The upper bound of `k` and `v` (10_state.md R32). -/
def maxLoop (p : Params) : Nat := max p.recoveryReads p.resetSettleReads

/-- The running command runs top-level cycles: `read_one`, `set_channel` or `set_gain`. -/
def runsTopCycle (s : State) : Prop := s.cmdOp = 1#4 ∨ s.cmdOp = 2#4 ∨ s.cmdOp = 3#4

/-- A cycle is in progress, in a context its command has (10_state.md R33). -/
def CycleInProgress (s : State) : Prop :=
  match s.seq.ctx with
  | .top => runsTopCycle s
  | .sub => (runsTopCycle s ∨ s.cmdOp = Instr.reset.op) ∧ s.seq.k < loopBound s

/-- The counters of one cycle within their ranges (10_state.md R32). -/
def Counters.inRange (p : Params) (c : Counters) : Prop :=
  c.tries ≤ p.readyMaxTries ∧ c.i ≤ frameBits ∧ c.j ≤ 3

/-- What holds at each program point: the counters are still below the bound of their loop. -/
def PointSound (s : State) : Prop :=
  match s.seq.point with
  | .idle => True
  | .poll => (counters s).tries < s.params.readyMaxTries ∧ CycleInProgress s
  | .pollWait => CycleInProgress s
  | .dataStart => (counters s).i < frameBits ∧ s.seq.n = trailOf s ∧ CycleInProgress s
  | .dataRise _ => (counters s).i < frameBits ∧ s.seq.n = trailOf s ∧ CycleInProgress s
  | .dataFall _ => (counters s).i < frameBits ∧ s.seq.n = trailOf s ∧ CycleInProgress s
  | .dataStop _ => (counters s).i < frameBits ∧ s.seq.n = trailOf s ∧ CycleInProgress s
  | .dataSample => (counters s).i < frameBits ∧ s.seq.n = trailOf s ∧ CycleInProgress s
  | .trailStart => (counters s).j < s.seq.n ∧ s.seq.n = trailOf s ∧ CycleInProgress s
  | .trailRise _ => (counters s).j < s.seq.n ∧ s.seq.n = trailOf s ∧ CycleInProgress s
  | .trailFall _ => (counters s).j < s.seq.n ∧ s.seq.n = trailOf s ∧ CycleInProgress s
  | .trailStop _ => (counters s).j < s.seq.n ∧ s.seq.n = trailOf s ∧ CycleInProgress s
  | .decode => s.config.armed = BitVec.ofNat 2 (trailOf s) ∧ CycleInProgress s
  | .recover => s.seq.k ≤ s.params.recoveryReads ∧ runsTopCycle s
  | .settleWait => s.cmdOp = 2#4 ∨ s.cmdOp = 3#4
  | .pdLow => s.cmdOp = Instr.powerDown.op ∨ s.cmdOp = Instr.reset.op
  | .pdHigh => s.cmdOp = Instr.powerDown.op ∨ s.cmdOp = Instr.reset.op
  | .pdHold => s.cmdOp = Instr.powerDown.op ∨ s.cmdOp = Instr.reset.op
  | .puLow => s.cmdOp = Instr.powerUp.op ∨ s.cmdOp = Instr.reset.op
  | .puWait => s.cmdOp = Instr.powerUp.op ∨ s.cmdOp = Instr.reset.op
  | .resetSettle => s.seq.k ≤ s.params.resetSettleReads ∧ s.cmdOp = Instr.reset.op

/-- DIAG's fields within their legal values (10_state.md R44). -/
def DiagInRange (s : State) : Prop :=
  s.diag.polls.toNat ≤ s.params.readyMaxTries ∧ s.diag.bitcnt.toNat ≤ frameBits ∧
    s.diag.trailcnt.toNat ≤ 3 ∧ s.diag.recValid.toNat ≤ maxLoop s.params

/-- The sequencer's invariant: no counter passes its bound (10_state.md R32), DIAG stays legal (R44), a
command in progress shows BUSY = 1 (R38), and the program point fits the running command (R33). -/
structure SequencerSound (s : State) : Prop where
  busy : s.seq.point ≠ .idle → s.status.busy = true
  top : s.seq.top.inRange s.params
  sub : s.seq.sub.inRange s.params
  loops : s.seq.k ≤ maxLoop s.params ∧ s.seq.v ≤ s.seq.k
  diag : DiagInRange s
  point : PointSound s

/-! ### Environments whose next answers are given (explicit hypotheses on the draws, 00_scope.md R10) -/

/-- The levels of the 24 data samples of a frame, most significant bit first (30_encoding.md R89). -/
def frameLevels (x : Frame) : List Level := (List.range 24).map fun p => x.extractLsb' (23 - p) 1

/-- Ready after `m` high samples, then the frame `x`. -/
def readyLevels (m : Nat) (x : Frame) : List Level := List.replicate m 1#1 ++ 0#1 :: frameLevels x

/-- The two time advances of each pulse: before its first `Now`, and its measured duration. -/
def pulseDeltas (ps : List (Nat × Nat)) : List Nat := ps.flatMap fun p => [p.1, p.2]

/-- Every pulse of the list measures below the guard (40_read_cycle.md R115). -/
def allPass (p : Params) (ps : List (Nat × Nat)) : Prop := ∀ q ∈ ps, q.2 < p.tGuardNs

end Sys2Proof.Machine
end

