-- ==== Sys2Proof/Certificates/Slice0/Obligations.lean ====
section
/-!
DEFINITION. The statements about the machine.  A statement whose hypotheses fix the environment's next
answers (levels of the data line, time advances) says so; every other one holds whatever the environment
answers, free values included.
-/

open Sys2Proof Sys2Proof.Machine

/-! ### Encoding -/

/-- 30_encoding.md R81-R83, R86: a word decodes to a command exactly when it is that command's word. -/
def Obligations.DecodeInvertsEncode : Prop :=
  ∀ (w : Word) (i : Instr), decodeCmd w = .ok i ↔ encode i = w

/-- 30_encoding.md R86: a word is illegal exactly when a reserved bit is set, the opcode is 0x0 or
0x7..0xF, or a command without an operand has ARG ≠ 0. -/
def Obligations.IllegalWordsAreTheReservedPatterns : Prop :=
  ∀ w : Word, (∃ why, decodeCmd w = .error why) ↔
    (w.extractLsb' 16 16 ≠ 0#16 ∨ w.extractLsb' 4 4 ≠ 0#4 ∨
      (w.extractLsb' 0 4 = 0#4 ∨ 7#4 ≤ w.extractLsb' 0 4) ∨
      ((w.extractLsb' 0 4 = 1#4 ∨ w.extractLsb' 0 4 = 4#4 ∨ w.extractLsb' 0 4 = 5#4 ∨
        w.extractLsb' 0 4 = 6#4) ∧ w.extractLsb' 8 8 ≠ 0#8))

/-- 30_encoding.md R81, 20_memory.md R64: the word of every command, given as the number
spec/opcode_table.json numbers and laid out in byte lanes, reads back as that command. -/
def Obligations.TableWordsDecodeToTheirCommands : Prop :=
  ∀ i : Instr, decodeTableWord 32 (encode i).toNat = some i

/-- 30_encoding.md R92, 95_test_vectors.md section 2.5: words of the spec and what they decode to. -/
def Obligations.SpecWordsDecode : Prop :=
  decodeCmd 0x00000001#32 = .ok .readOne ∧ decodeCmd 0x00000102#32 = .ok (.setChannel 1#8) ∧
    decodeCmd 0x00004003#32 = .ok (.setGain 64#8) ∧ decodeCmd 0x00000004#32 = .ok .powerDown ∧
    decodeCmd 0x00000005#32 = .ok .powerUp ∧ decodeCmd 0x00000006#32 = .ok .reset ∧
    decodeCmd 0x00014003#32 = .error .reservedBits ∧ decodeCmd 0x00000007#32 = .error .reservedOpcode ∧
    decodeCmd 0x00000106#32 = .error .operandNotZero

/-- 30_encoding.md R92: `set_channel #n` and `set_gain n` assemble for n = 0..255 to the words the table
gives, and an operand outside 0..255 does not assemble. -/
def Obligations.AssemblerWords : Prop :=
  (∀ n : Nat, n ≤ 255 →
    assemble (.setChannelRaw n) = some (0x00000002#32 ||| (BitVec.ofNat 32 n <<< 8)) ∧
    assemble (.setGain n) = some (0x00000003#32 ||| (BitVec.ofNat 32 n <<< 8))) ∧
  (∀ n : Nat, 255 < n → assemble (.setChannelRaw n) = none ∧ assemble (.setGain n) = none)

/-! ### The step -/

/-- 30_encoding.md R93, 60_exceptions.md R222: a command the host writes to an idle block, waiting for it,
is decoded and run; the step takes it from the host's queue and adds nothing (log 6).  With no host operation
pending, on a pause, and on a wait while BUSY = 1 (the wait stays), a step is one step of the engine; a wait ends
when BUSY = 0; a command issued while its write is ignored leaves the wait (log 7, log 26). -/
def Obligations.StepRunsDecodedCommand : Prop :=
  (∀ (s : State) (w : Word) (i : Instr) (rest : List HostOp),
    s.params.legal = true → Idle s → s.bus = .command w :: rest → decodeCmd w = .ok i →
    step s = exec i { s with bus := rest }) ∧
  (∀ (s : State) (rest : List HostOp), s.params.legal = true →
    (s.bus = [] → step s = .next (engineStep s)) ∧
    (s.bus = .pause :: rest → step s = .next (engineStep { s with bus := rest })) ∧
    (s.bus = .waitIdle :: rest → s.status.busy = true → step s = .next (engineStep s)) ∧
    (s.bus = .waitIdle :: rest → s.status.busy = false → step s = .next { s with bus := rest }) ∧
    (∀ w, s.bus = .command w :: rest → ¬ Idle s → step s = .next { s with bus := .waitIdle :: rest }))

/-- Log 8: the state that places a command's word runs exactly that command in its next step. -/
def Obligations.PlacedWordRunsNext : Prop :=
  ∀ (s : State) (w : Nat) (i : Instr),
    s.params.legal = true → decodeTableWord 32 w = some i →
    step (s.withFetchWord 32 w) =
      exec i { s with rst := false, status.busy := false, seq.point := .idle }

/-- 30_encoding.md R86, 60_exceptions.md R222: an illegal word, written either way to an idle block, sets
CODE to ILLEGAL_COMMAND and clears WARN; no primitive runs and nothing else changes but the latches
(log 11). -/
def Obligations.IllegalWordSetsCodeOnly : Prop :=
  ∀ (s : State) (w : Word) (why : IllegalWord) (rest : List HostOp),
    s.params.legal = true → Idle s →
    (s.bus = .command w :: rest ∨ s.bus = .write s.params.base 4 w :: rest) →
    decodeCmd w = .error why →
    step s = .next { s with
      bus := rest, cmdOp := w.extractLsb' 0 4, cmdArg := w.extractLsb' 8 8,
      status := { s.status with code := .illegalCommand, warn := false } }

/-- 60_exceptions.md R222, 20_memory.md R75: a CMD write while BUSY = 1 is ignored. -/
def Obligations.BusyCommandWriteIsIgnored : Prop :=
  ∀ (s : State) (w : Word) (rest : List HostOp),
    s.params.legal = true → s.status.busy = true → s.bus = .write s.params.base 4 w :: rest →
    step s = .next { s with bus := rest }

/-- 10_state.md R35, 70_reset_and_hazards.md R240: on acceptance of a write to CMD, legal or not, CMD_OP and
CMD_ARG are latched; only an accepted write, block reset and the start of the automatic `reset` change
them. -/
def Obligations.LatchesFollowAcceptance : Prop :=
  (∀ (s : State) (w : Word) (rest : List HostOp), s.params.legal = true → Idle s →
    (s.bus = .command w :: rest ∨ s.bus = .write s.params.base 4 w :: rest) →
    ∃ t, step s = .next t ∧ t.cmdOp = w.extractLsb' 0 4 ∧ t.cmdArg = w.extractLsb' 8 8) ∧
  (∀ s t : State, step s = .next t → (t.cmdOp ≠ s.cmdOp ∨ t.cmdArg ≠ s.cmdArg) →
    (∃ w rest, Idle s ∧ (s.bus = .command w :: rest ∨ s.bus = .write s.params.base 4 w :: rest)) ∨
    (∃ rest, s.bus = .assertRst :: rest) ∨
    (s.rst = false ∧ s.status.busy = true ∧ s.seq.point = .idle))

/-- 60_exceptions.md R222, R223, 10_state.md R33: a command accepted by a plain write to CMD, run by the
engine one step at a time, ends in the state the command's meaning gives, and the machine's own steps run it there
(the two granularities are the model's: log 6, log 12). -/
def Obligations.EngineStepsRefineCommand : Prop :=
  ∀ (s : State) (w : Word) (i : Instr) (rest : List HostOp),
    s.params.legal = true → Idle s → s.bus = .write s.params.base 4 w :: rest →
    decodeCmd w = .ok i →
    ∃ u t, step s = .next u ∧ exec i { s with bus := rest } = .next t ∧ RunsTo u t

/-- 70_reset_and_hazards.md R240: the step that deasserts `rst` makes it low and changes nothing else (log 23);
from a block that shows its reset values (IDLE, BUSY = 1: log 9) the engine then ends in the state the meaning of
`reset` gives, and the machine's own steps run it there; so they do from such a block with `rst` low already. -/
def Obligations.DeassertionRunsReset : Prop :=
  (∀ (s : State) (rest : List HostOp), s.params.legal = true → s.bus = .releaseRst :: rest →
    step s = .next { s with rst := false, bus := rest } ∧
    (s.status.busy = true → s.seq.point = .idle →
      ∃ t, exec .reset { s with rst := false, bus := rest } = .next t ∧
        RunsTo { s with rst := false, bus := rest } t)) ∧
  (∀ s : State, s.params.legal = true → s.rst = false → s.status.busy = true → s.seq.point = .idle →
    ∃ t, exec .reset s = .next t ∧ RunsTo s t)

/-- 20_memory.md R65, 60_exceptions.md R231: only a host access that is not a 32-bit access at a multiple
of 4 in the window stops the machine, and each such access does.  That the spec's "stuck" is a fault of this
name, and that nothing else faults, is the model's (log 15). -/
def Obligations.OnlyInadmissibleAccessFaults : Prop :=
  ∀ (s : State), s.params.legal = true →
    ((∃ r, step s = .fault r) ↔
      ∃ addr bytes rest, (s.bus = .read addr bytes :: rest ∨ ∃ v, s.bus = .write addr bytes v :: rest) ∧
        ¬ (bytes = 4 ∧ s.params.base ≤ addr ∧ addr < s.params.base + 32 ∧
            (addr - s.params.base) % 4 = 0))

/-- 70_reset_and_hazards.md R241, 00_scope.md R7: a configuration is refused exactly when INIT_GAIN is not
64 or 128 or a count is outside its range (at every step: log 16). -/
def Obligations.RefusedExactlyForIllegalConfiguration : Prop :=
  ∀ s : State, (∃ r, step s = .refused r) ↔
    ¬ ((s.params.initGain = 64#8 ∨ s.params.initGain = 128#8) ∧
        1 ≤ s.params.readyMaxTries ∧ s.params.readyMaxTries ≤ 255 ∧
        1 ≤ s.params.recoveryReads ∧ s.params.recoveryReads ≤ 15 ∧
        1 ≤ s.params.resetSettleReads ∧ s.params.resetSettleReads ≤ 15)

/-! ### The register window -/

/-- 20_memory.md R67, R68, 10_state.md R36-R45: while BUSY = 0 a read returns the register's word, CMD and
the reserved offsets read 0, and nothing else changes.  30_encoding.md R93: `get_channel` and `get_gain` return
CONFIG's fields by such a read (issued to an otherwise empty queue: log 21). -/
def Obligations.IdleReadReturnsRegister : Prop :=
  (∀ (s : State) (off : Nat) (rest : List HostOp),
    s.params.legal = true → s.status.busy = false → off < 32 → off % 4 = 0 →
    s.bus = .read (s.params.base + off) 4 :: rest →
    step s = .next { s with
      bus := rest, reads := (if off = 0x04 then statusWord s else if off = 0x08 then rawWord s
       else if off = 0x0C then s.sample else if off = 0x10 then configWord s
       else if off = 0x14 then diagWord s else 0#32) :: s.reads }) ∧
  (∀ s : State, s.params.legal = true → s.status.busy = false →
    getChannel s = some (channelBit s.config.channel, { s with bus := [], reads := configWord s :: s.reads }) ∧
    getGain s = some (s.config.gainA, { s with bus := [], reads := configWord s :: s.reads }))

/-- 10_state.md R38, 20_memory.md R68: while BUSY = 1 a read of STATUS is exact and changes nothing else;
a read of another register returns some word and changes no block state (the word is a free value: log 4), and
so do `get_channel` and `get_gain` (30_encoding.md R93). -/
def Obligations.BusyReadIsExactForStatusOnly : Prop :=
  (∀ (s : State) (off : Nat) (rest : List HostOp),
    s.params.legal = true → s.status.busy = true → off < 32 → off % 4 = 0 →
    s.bus = .read (s.params.base + off) 4 :: rest →
    (off = 0x04 → step s = .next { s with bus := rest, reads := statusWord s :: s.reads }) ∧
    (off ≠ 0x04 → step s = .next { s with
      bus := rest, reads := Config.freeWord s.env.draws :: s.reads, env.draws := s.env.draws + 1 })) ∧
  (∀ s : State, s.params.legal = true → s.status.busy = true →
    let t := { s with bus := [], reads := Config.freeWord s.env.draws :: s.reads, env.draws := s.env.draws + 1 }
    getChannel s = some ((Config.freeWord s.env.draws).extractLsb' 0 1, t) ∧
    getGain s = some ((Config.freeWord s.env.draws).extractLsb' 8 8, t))

/-- 20_memory.md R67, 10_state.md R37, R40, R43-R45: host writes to every offset but CMD are ignored. -/
def Obligations.WritesOutsideCmdAreIgnored : Prop :=
  ∀ (s : State) (off : Nat) (v : Word) (rest : List HostOp),
    s.params.legal = true → 0 < off → off < 32 → off % 4 = 0 →
    s.bus = .write (s.params.base + off) 4 v :: rest →
    step s = .next { s with bus := rest }

/-- 10_state.md R37, R40, R43, R44: the fields of the register words, the reserved ones reading 0, with the
numbers of the status codes (60_exceptions.md R210) and of the channels (30_encoding.md R84). -/
def Obligations.RegisterWordFields : Prop :=
  (Code.ok.bits = 0#4 ∧ Code.notReady.bits = 1#4 ∧ Code.timingViolation.bits = 2#4 ∧
    Code.invalidSample.bits = 3#4 ∧ Code.protocolDesync.bits = 4#4 ∧ Code.invalidParameter.bits = 5#4 ∧
    Code.illegalCommand.bits = 6#4 ∧ Code.none.bits = 0xF#4 ∧
    channelBit .a = 0#1 ∧ channelBit .b = 1#1) ∧
  ∀ s : State,
    ((statusWord s).extractLsb' 0 4 = s.status.code.bits ∧
      (statusWord s).extractLsb' 4 1 = BitVec.ofBool s.status.busy ∧
      (statusWord s).extractLsb' 5 1 = BitVec.ofBool s.status.warn ∧
      (statusWord s).extractLsb' 6 1 = BitVec.ofBool s.status.fatal ∧
      (statusWord s).extractLsb' 7 1 = 0#1 ∧
      (statusWord s).extractLsb' 8 4 = s.status.settleCode.bits ∧
      (statusWord s).extractLsb' 12 20 = 0#20) ∧
    ((configWord s).extractLsb' 0 1 = channelBit s.config.channel ∧
      (configWord s).extractLsb' 1 7 = 0#7 ∧
      (configWord s).extractLsb' 8 8 = s.config.gainA ∧
      (configWord s).extractLsb' 16 2 = BitVec.ofNat 2 (trailCount s.config.channel s.config.gainA) ∧
      (configWord s).extractLsb' 18 2 = s.config.armed ∧
      (configWord s).extractLsb' 20 2 = s.config.sampleCfg ∧
      (configWord s).extractLsb' 22 10 = 0#10) ∧
    ((rawWord s).extractLsb' 0 24 = s.raw ∧ (rawWord s).extractLsb' 24 8 = 0#8) ∧
    ((diagWord s).extractLsb' 0 8 = s.diag.polls ∧ (diagWord s).extractLsb' 8 8 = s.diag.bitcnt ∧
      (diagWord s).extractLsb' 16 4 = s.diag.trailcnt ∧ (diagWord s).extractLsb' 20 4 = s.diag.recValid ∧
      (diagWord s).extractLsb' 24 8 = 0#8)

/-! ### The datapath -/

/-- 30_encoding.md R88, 40_read_cycle.md R112: (A,128) gives 1 trailing pulse, (A,64) gives 3, (B,any) gives
2, and CONFIG.TRAIL shows the count. -/
def Obligations.TrailCountTable : Prop :=
  ∀ s : State,
    (s.config.channel = .a → s.config.gainA = 128#8 →
      trailOf s = 1 ∧ (configWord s).extractLsb' 16 2 = 1#2) ∧
    (s.config.channel = .a → s.config.gainA = 64#8 →
      trailOf s = 3 ∧ (configWord s).extractLsb' 16 2 = 3#2) ∧
    (s.config.channel = .b → trailOf s = 2 ∧ (configWord s).extractLsb' 16 2 = 2#2)

/-- 40_read_cycle.md R115: the guard trips at T_GUARD_NS and above, and passes below. -/
def Obligations.GuardTripsAtThreshold : Prop :=
  ∀ (p : Params) (e : Nat), (p.tGuardNs ≤ e → guardTrips p e = true) ∧
    (e < p.tGuardNs → guardTrips p e = false)

/-- 40_read_cycle.md R118, R125: the decode law, and the delivered word read as signed equals the decode. -/
def Obligations.DecodeIsTwosComplement : Prop :=
  ∀ r : Frame,
    decodeSample r = (r.toNat : Int) - (if r.getLsbD 23 then 2 ^ 24 else 0) ∧
    (deliver r).toInt = decodeSample r

/-- 40_read_cycle.md R125, 30_encoding.md R90: encoding s to 24 bits and decoding returns s over
[-2^23+1, 2^23-2], these patterns are no sentinels, and every other frame is a sentinel. -/
def Obligations.DecodeRoundTripAndRange : Prop :=
  (∀ x : Int, -(2 ^ 23) + 1 ≤ x → x ≤ 2 ^ 23 - 2 →
    decodeSample (BitVec.ofInt 24 x) = x ∧ isSentinel (BitVec.ofInt 24 x) = false) ∧
  (∀ r : Frame, isSentinel r = false →
    -(2 ^ 23) + 1 ≤ decodeSample r ∧ decodeSample r ≤ 2 ^ 23 - 2)

/-- 30_encoding.md R89: the sample taken after data pulse p is bit 24 - p of the raw value: with the line low
at sample m + 1, the 24 data samples `bits` and every pulse below the guard, RAW holds them so. -/
def Obligations.FrameBitOrder : Prop :=
  ∀ (s : State) (m : Nat) (bits : List Level) (ps : List (Nat × Nat)) (L : List Level) (D : List Nat),
    s.params.legal = true → m < s.params.readyMaxTries → bits.length = 24 →
    s.env.levels = List.replicate m 1#1 ++ 0#1 :: (bits ++ L) → s.env.deltas = pulseDeltas ps ++ D →
    ps.length = 24 + trailOf s → allPass s.params ps →
    ∃ t, exec .readOne s = .next t ∧
      ∀ p, 1 ≤ p → p ≤ 24 → t.raw.extractLsb' (24 - p) 1 = bits.getD (p - 1) 0#1

/-! ### `read_one` -/

/-- 40_read_cycle.md R110: `read_one` completes in every state with one of the five codes of a cycle; it
leaves FATAL, SETTLE_CODE, CHANNEL, GAIN_A, the parameters and the host's side as they were. -/
def Obligations.ReadOneCompletesWithinItsFrame : Prop :=
  ∀ s : State, ∃ t, exec .readOne s = .next t ∧
    t.status = { s.status with code := t.status.code, busy := false, warn := false } ∧
    (t.status.code = .ok ∨ t.status.code = .notReady ∨ t.status.code = .timingViolation ∨
      t.status.code = .invalidSample ∨ t.status.code = .protocolDesync) ∧
    t.config.channel = s.config.channel ∧ t.config.gainA = s.config.gainA ∧
    t.cmdOp = 1#4 ∧ t.cmdArg = 0#8 ∧ t.seq.point = .idle ∧
    t.params = s.params ∧ t.rst = s.rst ∧ t.bus = s.bus ∧ t.reads = s.reads

/-- 40_read_cycle.md R121-R123 (rows OK, INVALID_SAMPLE, NOT_READY): the state each outcome leaves. -/
def Obligations.ReadOneOutcomesWithoutTrip : Prop :=
  ∀ s : State, s.params.legal = true → ∃ t, exec .readOne s = .next t ∧
    (t.status.code = .ok →
      isSentinel t.raw = false ∧ t.sample = deliver t.raw ∧ t.config.sampleCfg = s.config.armed ∧
      t.config.armed = BitVec.ofNat 2 (trailOf s) ∧ t.clk = 0#1 ∧ t.diag.bitcnt = 24#8 ∧
      t.diag.trailcnt = BitVec.ofNat 4 (trailOf s) ∧ t.diag.recValid = 0#4 ∧
      highWrites t.events = highWrites s.events + 24 + trailOf s) ∧
    (t.status.code = .invalidSample →
      isSentinel t.raw = true ∧ t.sample = s.sample ∧ t.config.sampleCfg = s.config.sampleCfg ∧
      t.config.armed = BitVec.ofNat 2 (trailOf s) ∧ t.clk = 0#1 ∧ t.diag.bitcnt = 24#8 ∧
      t.diag.trailcnt = BitVec.ofNat 4 (trailOf s) ∧ t.diag.recValid = 0#4 ∧
      highWrites t.events = highWrites s.events + 24 + trailOf s) ∧
    (t.status.code = .notReady →
      t.raw = s.raw ∧ t.sample = s.sample ∧ t.config = s.config ∧ t.clk = s.clk ∧
      t.shreg = s.shreg ∧ t.diag = ⟨BitVec.ofNat 8 s.params.readyMaxTries, 0#8, 0#4, 0#4⟩ ∧
      highWrites t.events = highWrites s.events)

/-- 40_read_cycle.md R116, R121-R123 (rows TIMING_VIOLATION, PROTOCOL_DESYNC): a data trip leaves RAW and
sets ARMED to 0; a trailing trip ends with TIMING_VIOLATION when REC_VALID ≥ 1 and PROTOCOL_DESYNC when it
is 0; no sample is delivered. -/
def Obligations.ReadOneOutcomesWithTrip : Prop :=
  ∀ s : State, s.params.legal = true → ∃ t, exec .readOne s = .next t ∧
    (t.status.code = .timingViolation ∨ t.status.code = .protocolDesync →
      t.sample = s.sample ∧ t.config.sampleCfg = s.config.sampleCfg ∧ t.clk = 0#1 ∧
      ((t.status.code = .timingViolation ∧ t.diag.bitcnt.toNat < 24 ∧ t.diag.trailcnt = 0#4 ∧
          t.diag.recValid = 0#4 ∧ t.raw = s.raw ∧ t.config.armed = 0#2 ∧
          highWrites t.events = highWrites s.events + t.diag.bitcnt.toNat + 1) ∨
       (t.diag.bitcnt = 24#8 ∧ t.diag.trailcnt.toNat < trailOf s ∧
          t.diag.recValid.toNat ≤ s.params.recoveryReads ∧
          (t.status.code = .protocolDesync ↔ t.diag.recValid = 0#4))))

/-- 40_read_cycle.md R120, 95_test_vectors.md 2.1, 2.4: with the line low at sample m + 1, the frame x on the line and
every pulse below the guard, `read_one` reports x (or INVALID_SAMPLE for a sentinel) after 24 + n pulses. -/
def Obligations.ReadOneReturnsTheFrame : Prop :=
  ∀ (s : State) (m : Nat) (x : Frame) (ps : List (Nat × Nat)) (L : List Level) (D : List Nat),
    s.params.legal = true → m < s.params.readyMaxTries →
    s.env.levels = readyLevels m x ++ L → s.env.deltas = pulseDeltas ps ++ D →
    ps.length = 24 + trailOf s → allPass s.params ps →
    ∃ t, exec .readOne s = .next t ∧
      t.status.code = (if isSentinel x then .invalidSample else .ok) ∧
      t.raw = x ∧ t.shreg = x ∧ t.clk = 0#1 ∧
      t.sample = (if isSentinel x then s.sample else deliver x) ∧
      t.config = { s.config with armed := BitVec.ofNat 2 (trailOf s),
                                 sampleCfg := if isSentinel x then s.config.sampleCfg else s.config.armed } ∧
      t.diag = ⟨BitVec.ofNat 8 (m + 1), 24#8, BitVec.ofNat 4 (trailOf s), 0#4⟩ ∧
      highWrites t.events = highWrites s.events + 24 + trailOf s ∧
      t.env.levels = L ∧ t.env.deltas = D ∧ t.env.draws = s.env.draws

/-- 40_read_cycle.md R113, R121, 95_test_vectors.md P6: when no readiness sample reads low, `read_one` samples and sleeps
READY_MAX_TRIES times, writes no clock level and ends with NOT_READY. -/
def Obligations.ReadOneNotReady : Prop :=
  ∀ (s : State) (L : List Level), s.params.legal = true →
    s.env.levels = List.replicate s.params.readyMaxTries 1#1 ++ L →
    ∃ t, exec .readOne s = .next t ∧ t.status.code = .notReady ∧
      t.config = s.config ∧ t.raw = s.raw ∧ t.sample = s.sample ∧ t.clk = s.clk ∧ t.shreg = s.shreg ∧
      t.diag = ⟨BitVec.ofNat 8 s.params.readyMaxTries, 0#8, 0#4, 0#4⟩ ∧
      t.env = { s.env with levels := L } ∧
      t.events = (List.replicate s.params.readyMaxTries
        [Event.sleep s.params.pollIntervalNs, Event.dataRead 1#1]).flatten ++ s.events

/-- 40_read_cycle.md R114, R121: when data pulse i trips the guard, i - 1 bits have been sampled, no
trailing pulse is issued, ARMED is 0 and RAW, SAMPLE and SAMPLE_CFG are unchanged. -/
def Obligations.ReadOneDataPulseTrip : Prop :=
  ∀ (s : State) (m a e : Nat) (bits : List Level) (ps : List (Nat × Nat)) (L : List Level) (D : List Nat),
    s.params.legal = true → m < s.params.readyMaxTries → bits.length < 24 →
    s.env.levels = List.replicate m 1#1 ++ 0#1 :: (bits ++ L) →
    s.env.deltas = pulseDeltas ps ++ a :: e :: D →
    ps.length = bits.length → allPass s.params ps → s.params.tGuardNs ≤ e →
    ∃ t, exec .readOne s = .next t ∧ t.status.code = .timingViolation ∧
      t.config = { s.config with armed := 0#2 } ∧ t.raw = s.raw ∧ t.sample = s.sample ∧ t.clk = 0#1 ∧
      t.diag = ⟨BitVec.ofNat 8 (m + 1), BitVec.ofNat 8 bits.length, 0#4, 0#4⟩ ∧
      highWrites t.events = highWrites s.events + bits.length + 1 ∧
      t.env.levels = L ∧ t.env.deltas = D

/-- 40_read_cycle.md R116, R119, R121, 95_test_vectors.md P4': when a trailing pulse trips and no recovery sub-cycle finds
the line low, `read_one` ends with PROTOCOL_DESYNC, RAW holding the frame, ARMED = 0 and FATAL unchanged. -/
def Obligations.ReadOneTrailTripUnrecovered : Prop :=
  ∀ (s : State) (m a e : Nat) (x : Frame) (ps : List (Nat × Nat)) (L : List Level) (D : List Nat),
    s.params.legal = true → m < s.params.readyMaxTries →
    s.env.levels = readyLevels m x ++
      (List.replicate (s.params.recoveryReads * s.params.readyMaxTries) 1#1 ++ L) →
    s.env.deltas = pulseDeltas ps ++ a :: e :: D →
    24 ≤ ps.length → ps.length < 24 + trailOf s → allPass s.params ps → s.params.tGuardNs ≤ e →
    ∃ t, exec .readOne s = .next t ∧ t.status.code = .protocolDesync ∧
      t.status.fatal = s.status.fatal ∧ t.raw = x ∧ t.sample = s.sample ∧
      t.config = { s.config with armed := 0#2 } ∧ t.clk = 0#1 ∧
      t.diag = ⟨BitVec.ofNat 8 (m + 1), 24#8, BitVec.ofNat 4 (ps.length - 24), 0#4⟩ ∧
      highWrites t.events = highWrites s.events + ps.length + 1 ∧
      t.env.levels = L ∧ t.env.deltas = D

/-- 40_read_cycle.md R116, R119, R121, 95_test_vectors.md P4: when a trailing pulse trips and every recovery sub-cycle reads a
frame, REC_VALID counts those that are no sentinels, and the code is TIMING_VIOLATION if there is one. -/
def Obligations.ReadOneTrailTripRecovered : Prop :=
  ∀ (s : State) (m a e : Nat) (x : Frame) (ys : List Frame) (ps qs : List (Nat × Nat)) (L : List Level)
    (D : List Nat),
    s.params.legal = true → m < s.params.readyMaxTries → ys.length = s.params.recoveryReads →
    s.env.levels = readyLevels m x ++ (ys.flatMap (readyLevels 0) ++ L) →
    s.env.deltas = pulseDeltas ps ++ a :: e :: (pulseDeltas qs ++ D) →
    24 ≤ ps.length → ps.length < 24 + trailOf s → allPass s.params ps → s.params.tGuardNs ≤ e →
    qs.length = ys.length * (24 + trailOf s) → allPass s.params qs →
    ∃ t, exec .readOne s = .next t ∧
      t.status.code = (if ys.all isSentinel then .protocolDesync else .timingViolation) ∧
      t.raw = x ∧ t.sample = s.sample ∧
      t.config = { s.config with armed := BitVec.ofNat 2 (trailOf s) } ∧ t.clk = 0#1 ∧
      t.diag = ⟨BitVec.ofNat 8 (m + 1), 24#8, BitVec.ofNat 4 (ps.length - 24),
                BitVec.ofNat 4 (ys.countP (fun y => !isSentinel y))⟩ ∧
      highWrites t.events = highWrites s.events + ps.length + 1 + qs.length ∧
      t.env.levels = L ∧ t.env.deltas = D

/-! ### `set_channel` and `set_gain` -/

/-- 41_config.md R150, R153, R155, 30_encoding.md R84, R85: `set_channel` with an operand other than 0 and
1, and `set_gain` on channel A with one other than 64 and 128, fail with INVALID_PARAMETER; nothing else
changes and no primitive runs. -/
def Obligations.InvalidOperandsChangeNothingElse : Prop :=
  ∀ (s : State) (arg : Byte),
    (arg ≠ 0#8 → arg ≠ 1#8 → exec (.setChannel arg) s = .next { s with
      cmdOp := 2#4, cmdArg := arg,
      status := { s.status with code := .invalidParameter, busy := false, warn := false } }) ∧
    (s.config.channel = .a → arg ≠ 64#8 → arg ≠ 128#8 → exec (.setGain arg) s = .next { s with
      cmdOp := 3#4, cmdArg := arg,
      status := { s.status with code := .invalidParameter, busy := false, warn := false } })

/-- 41_config.md R150, R151, R152: with operand 0 or 1 `set_channel` commits the channel, runs its settle
read and its delay, and returns OK whatever the settle read returned; GAIN_A, RAW, SAMPLE, SAMPLE_CFG and
FATAL are unchanged, and a complete settle read leaves ARMED = TRAIL. -/
def Obligations.SetChannelCommitsAndSettles : Prop :=
  ∀ (s : State) (arg : Byte) (c : Channel), (arg = 0#8 ∧ c = .a ∨ arg = 1#8 ∧ c = .b) →
    ∃ t, exec (.setChannel arg) s = .next t ∧
      t.status = { s.status with code := .ok, busy := false, warn := false,
                                 settleCode := t.status.settleCode } ∧
      t.status.settleCode.isCycleCode = true ∧
      t.config.channel = c ∧ t.config.gainA = s.config.gainA ∧ t.config.sampleCfg = s.config.sampleCfg ∧
      t.raw = s.raw ∧ t.sample = s.sample ∧ t.cmdOp = 2#4 ∧ t.cmdArg = arg ∧ t.seq.point = .idle ∧
      t.events.head? = some (.sleep s.params.tSettleNs) ∧
      (t.status.settleCode = .ok ∨ t.status.settleCode = .invalidSample →
        t.config.armed = BitVec.ofNat 2 (trailOf t)) ∧
      (t.status.settleCode = .notReady → t.config.armed = s.config.armed) ∧
      t.params = s.params ∧ t.rst = s.rst ∧ t.bus = s.bus ∧ t.reads = s.reads

/-- 41_config.md R153, 60_exceptions.md R212: on channel B `set_gain` returns OK with WARN = 1 for every
operand, and changes nothing else. -/
def Obligations.SetGainOnChannelBWarnsOnly : Prop :=
  ∀ (s : State) (arg : Byte), s.config.channel = .b →
    exec (.setGain arg) s = .next { s with
      cmdOp := 3#4, cmdArg := arg,
      status := { s.status with code := .ok, busy := false, warn := true } }

/-- 41_config.md R153, R151, R152: on channel A with operand 64 or 128 `set_gain` commits the gain, runs
its settle read and its delay, and returns OK whatever the settle read returned. -/
def Obligations.SetGainCommitsAndSettles : Prop :=
  ∀ (s : State) (arg : Byte), s.config.channel = .a → (arg = 64#8 ∨ arg = 128#8) →
    ∃ t, exec (.setGain arg) s = .next t ∧
      t.status = { s.status with code := .ok, busy := false, warn := false,
                                 settleCode := t.status.settleCode } ∧
      t.status.settleCode.isCycleCode = true ∧
      t.config.channel = .a ∧ t.config.gainA = arg ∧ t.config.sampleCfg = s.config.sampleCfg ∧
      t.raw = s.raw ∧ t.sample = s.sample ∧ t.cmdOp = 3#4 ∧ t.cmdArg = arg ∧ t.seq.point = .idle ∧
      t.events.head? = some (.sleep s.params.tSettleNs) ∧
      (t.status.settleCode = .ok ∨ t.status.settleCode = .invalidSample →
        t.config.armed = BitVec.ofNat 2 (trailOf t)) ∧
      (t.status.settleCode = .notReady → t.config.armed = s.config.armed) ∧
      t.params = s.params ∧ t.rst = s.rst ∧ t.bus = s.bus ∧ t.reads = s.reads

/-- 41_config.md R151, R152, 95_test_vectors.md 2.6: with a ready chip and fast pulses the settle read of either setter
issues 24 + n pulses, n of the configuration just committed, and leaves ARMED = n and DIAG its counts. -/
def Obligations.SettleReadArmsNewConfiguration : Prop :=
  ∀ (s : State) (i : Instr) (c : Channel) (g : Byte) (m : Nat) (x : Frame) (ps : List (Nat × Nat))
    (L : List Level) (D : List Nat),
    (i = .setChannel 0#8 ∧ c = .a ∧ g = s.config.gainA ∨
      i = .setChannel 1#8 ∧ c = .b ∧ g = s.config.gainA ∨
      s.config.channel = .a ∧ (g = 64#8 ∨ g = 128#8) ∧ i = .setGain g ∧ c = .a) →
    s.params.legal = true → m < s.params.readyMaxTries →
    s.env.levels = readyLevels m x ++ L → s.env.deltas = pulseDeltas ps ++ D →
    ps.length = 24 + trailCount c g → allPass s.params ps →
    ∃ t, exec i s = .next t ∧ t.status.code = .ok ∧
      t.status.settleCode = (if isSentinel x then .invalidSample else .ok) ∧
      t.config = ⟨c, g, BitVec.ofNat 2 (trailCount c g), s.config.sampleCfg⟩ ∧ t.clk = 0#1 ∧
      t.diag = ⟨BitVec.ofNat 8 (m + 1), 24#8, BitVec.ofNat 4 (trailCount c g), 0#4⟩ ∧
      highWrites t.events = highWrites s.events + 24 + trailCount c g ∧
      t.env.levels = L ∧ t.env.deltas = D

/-! ### `power_down`, `power_up`, `reset` -/

/-- 42_power.md R170: the whole effect of `power_down` (the history is newest first, log 25), and its word. -/
def Obligations.PowerDownEffect : Prop :=
  encode .powerDown = 0x00000004#32 ∧
  ∀ s : State, exec .powerDown s = .next { s with
    clk := 1#1, cmdOp := 4#4, cmdArg := 0#8, config := { s.config with armed := 0#2 },
    status := { s.status with code := .ok, busy := false, warn := false },
    seq := { s.seq with point := .idle },
    events := .sleep s.params.tPdNs :: .clkWrite 1#1 :: .clkWrite 0#1 :: s.events }

/-- 42_power.md R172: the whole effect of `power_up` (the history is newest first, log 25), and its word. -/
def Obligations.PowerUpEffect : Prop :=
  encode .powerUp = 0x00000005#32 ∧
  ∀ s : State, exec .powerUp s = .next { s with
    clk := 0#1, cmdOp := 5#4, cmdArg := 0#8,
    status := { s.status with code := .ok, busy := false, warn := false },
    seq := { s.seq with point := .idle },
    events := .sleep s.params.tPuNs :: .clkWrite 0#1 :: s.events }

/-- 42_power.md R174, R175: `reset` ends with OK and FATAL = 0 when at least one settle sub-cycle returned
OK, and with PROTOCOL_DESYNC and FATAL = 1 when none did; it leaves the clock low and writes no result
register, no configuration and no SETTLE_CODE.  Its first five events are the power cycle, in the rule's order (the
history is newest first, log 25). -/
def Obligations.ResetSelfTestOutcome : Prop :=
  ∀ s : State, s.params.legal = true → ∃ t, exec .reset s = .next t ∧
    (t.status.code = .ok ∧ t.status.fatal = false ∧ t.diag.recValid ≠ 0#4 ∨
      t.status.code = .protocolDesync ∧ t.status.fatal = true ∧ t.diag.recValid = 0#4) ∧
    t.diag.recValid.toNat ≤ s.params.resetSettleReads ∧
    t.diag.polls = 0#8 ∧ t.diag.bitcnt = 0#8 ∧ t.diag.trailcnt = 0#4 ∧ t.clk = 0#1 ∧
    t.status.busy = false ∧ t.status.warn = false ∧ t.status.settleCode = s.status.settleCode ∧
    t.config.channel = s.config.channel ∧ t.config.gainA = s.config.gainA ∧
    t.config.sampleCfg = s.config.sampleCfg ∧ t.raw = s.raw ∧ t.sample = s.sample ∧
    t.cmdOp = 6#4 ∧ t.cmdArg = 0#8 ∧ t.seq.point = .idle ∧
    (∃ es, t.events = es ++ (.sleep s.params.tPuNs :: .clkWrite 0#1 :: .sleep s.params.tPdNs ::
      .clkWrite 1#1 :: .clkWrite 0#1 :: s.events)) ∧
    t.params = s.params ∧ t.rst = s.rst ∧ t.bus = s.bus ∧ t.reads = s.reads

/-- 42_power.md R174, 95_test_vectors.md 2.7: with a frame for every settle sub-cycle and fast pulses, REC_VALID counts the
frames that are no sentinels, ARMED is the trailing count of the configuration in force, and the pulses are
the one of the power cycle and 24 + n per sub-cycle. -/
def Obligations.ResetCountsValidFrames : Prop :=
  ∀ (s : State) (ys : List Frame) (ps : List (Nat × Nat)) (L : List Level) (D : List Nat),
    s.params.legal = true → ys.length = s.params.resetSettleReads →
    s.env.levels = ys.flatMap (readyLevels 0) ++ L → s.env.deltas = pulseDeltas ps ++ D →
    ps.length = ys.length * (24 + trailOf s) → allPass s.params ps →
    ∃ t, exec .reset s = .next t ∧
      t.status.code = (if ys.all isSentinel then .protocolDesync else .ok) ∧
      t.status.fatal = ys.all isSentinel ∧
      t.diag = ⟨0#8, 0#8, 0#4, BitVec.ofNat 4 (ys.countP (fun y => !isSentinel y))⟩ ∧
      t.config.armed = BitVec.ofNat 2 (trailOf s) ∧ t.clk = 0#1 ∧
      highWrites t.events = highWrites s.events + 1 + ps.length ∧
      t.env.levels = L ∧ t.env.deltas = D

/-- 42_power.md R174, 95_test_vectors.md 2.7: when the line never reads low, `reset` reports PROTOCOL_DESYNC with FATAL = 1,
ARMED = 0 and DIAG all 0.  Its events are the power cycle, in the rule's order, and then a sample and a sleep of
POLL_INTERVAL_NS for every readiness sample of every sub-cycle (the history is newest first, log 25). -/
def Obligations.ResetFindsNoChip : Prop :=
  ∀ (s : State) (L : List Level), s.params.legal = true →
    s.env.levels = List.replicate (s.params.resetSettleReads * s.params.readyMaxTries) 1#1 ++ L →
    ∃ t, exec .reset s = .next t ∧ t.status.code = .protocolDesync ∧ t.status.fatal = true ∧
      t.diag = ⟨0#8, 0#8, 0#4, 0#4⟩ ∧ t.config = { s.config with armed := 0#2 } ∧ t.clk = 0#1 ∧
      highWrites t.events = highWrites s.events + 1 ∧ t.env.levels = L ∧
      t.events = (List.replicate (s.params.resetSettleReads * s.params.readyMaxTries)
        [Event.sleep s.params.pollIntervalNs, Event.dataRead 1#1]).flatten ++
        (.sleep s.params.tPuNs :: .clkWrite 0#1 :: .sleep s.params.tPdNs ::
          .clkWrite 1#1 :: .clkWrite 0#1 :: s.events)

/-- 40_read_cycle.md R126, 42_power.md R176: `read_one` runs at most
(2 READY_MAX_TRIES + 132)(1 + RECOVERY_READS) primitives and `reset` at most
5 + RESET_SETTLE_READS (2 READY_MAX_TRIES + 132); each primitive is one event of the history. -/
def Obligations.PrimitiveBounds : Prop :=
  ∀ s : State,
    (∃ t es, exec .readOne s = .next t ∧ t.events = es ++ s.events ∧
      es.length ≤ (2 * s.params.readyMaxTries + 132) * (1 + s.params.recoveryReads)) ∧
    (∃ t es, exec .reset s = .next t ∧ t.events = es ++ s.events ∧
      es.length ≤ 5 + s.params.resetSettleReads * (2 * s.params.readyMaxTries + 132))

/-! ### Rules about every command -/

/-- 10_state.md R43, 40_read_cycle.md R122: no command but `read_one` writes RAW, SAMPLE or SAMPLE_CFG, and
`read_one` writes SAMPLE and SAMPLE_CFG only when it returns OK.  41_config.md R152, 60_exceptions.md R226: the host
may trust SAMPLE as data of the configuration in force after a `read_one` that returned OK and began with
ARMED = TRAIL, and after nothing else. -/
def Obligations.ResultsWrittenByReadOneOnly : Prop :=
  ∀ (i : Instr) (s : State), ∃ t, exec i s = .next t ∧
    (i ≠ .readOne → t.raw = s.raw ∧ t.sample = s.sample ∧ t.config.sampleCfg = s.config.sampleCfg) ∧
    (i = .readOne → t.status.code ≠ .ok →
      t.sample = s.sample ∧ t.config.sampleCfg = s.config.sampleCfg) ∧
    (SampleTrusted t ↔
      i = .readOne ∧ t.status.code = .ok ∧ s.config.armed = BitVec.ofNat 2 (trailOf s))

/-- 10_state.md R39: WARN is cleared when any command is accepted, an illegal word included, and set only by
`set_gain` on channel B; FATAL is 1 when `reset` ends with PROTOCOL_DESYNC and 0 when it ends with OK, and no
other command writes it. -/
def Obligations.WarnAndFatalHaveOneWriterEach : Prop :=
  (∀ (i : Instr) (s : State), ∃ t, exec i s = .next t ∧
    (t.status.warn = true ↔ (∃ g, i = .setGain g) ∧ s.config.channel = .b) ∧
    (i ≠ .reset → t.status.fatal = s.status.fatal) ∧
    (i = .reset → t.status.code = .protocolDesync ∧ t.status.fatal = true ∨
      t.status.code = .ok ∧ t.status.fatal = false)) ∧
  (∀ (w : Word) (s : State), (accept (opField w) (argField w) s).status.warn = false ∧
    (illegalCommand w s).status.warn = false ∧ (illegalCommand w s).status.fatal = s.status.fatal)

/-- 10_state.md R41: after a command ARMED is what it was, or 0, or the trailing count of the
configuration in force. -/
def Obligations.ArmedIsKeptClearedOrTrail : Prop :=
  ∀ (i : Instr) (s : State), ∃ t, exec i s = .next t ∧
    (t.config.armed = s.config.armed ∨ t.config.armed = 0#2 ∨
      t.config.armed = BitVec.ofNat 2 (trailOf t))

/-- 95_test_vectors.md 2.8, 20_memory.md R75: what the host has queued and read does not change what a command
does (the queue is the model's: log 7). -/
def Obligations.HostQueueDoesNotDisturbCommand : Prop :=
  ∀ (i : Instr) (s : State) (b : List HostOp) (r : List Word), ∃ t, exec i s = .next t ∧
    exec i { s with bus := b, reads := r } = .next { t with bus := b, reads := r }

/-! ### Invariants of every step -/

/-- 10_state.md R42: GAIN_A stays legal, and keeps its value in every step from CHANNEL = B but a block
reset. -/
def Obligations.ConfigurationStaysLegal : Prop :=
  ∀ s t : State, ConfigLegal s → step s = .next t → ConfigLegal t ∧
    (s.config.channel = .b → (∀ rest, s.bus ≠ .assertRst :: rest) → t.config.gainA = s.config.gainA)

/-- 40_read_cycle.md R117, R118: SAMPLE always is the delivery of a frame that is no sentinel. -/
def Obligations.SampleIsNeverASentinel : Prop :=
  ∀ s t : State, SampleSound s → step s = .next t → SampleSound t

/-- 60_exceptions.md R210: SETTLE_CODE takes only 0x0..0x4 or 0xF. -/
def Obligations.SettleCodeStaysACycleCode : Prop :=
  ∀ s t : State, SettleCodeLegal s → step s = .next t → SettleCodeLegal t

/-- 00_scope.md R10: every `Now()` result is at least every earlier one (the sum form and the start 0 are the
model's: log 3). -/
def Obligations.TimeNeverRunsBackwards : Prop :=
  ∀ s t : State, TimeOrdered s → step s = .next t → TimeOrdered t

/-- 10_state.md R32, R33, R38, R44: no counter and no DIAG field passes its bound, BUSY = 1 while a command
is in progress, and the program point fits the running command (the points and the
counts of completed items are the model's: log 12, log 13). -/
def Obligations.SequencerStaysSound : Prop :=
  ∀ s t : State, SequencerSound s → step s = .next t → SequencerSound t

/-- 10_state.md R49 and the definitions of the invariants: they hold at reset. -/
def Obligations.InvariantsHoldAtReset : Prop :=
  ConfigLegal State.reset ∧ SampleSound State.reset ∧ SettleCodeLegal State.reset ∧
    TimeOrdered State.reset ∧ SequencerSound State.reset

/-- 00_scope.md R7, 10_state.md (parameters are fixed for the life of the block): no step changes them (that they
are a field of the state is the model's: log 1). -/
def Obligations.ParametersNeverChange : Prop :=
  ∀ s t : State, step s = .next t → t.params = s.params

/-- 10_state.md R39, 42_power.md R175: FATAL changes only in a step of `reset` or by block reset. -/
def Obligations.FatalChangesOnlyInReset : Prop :=
  ∀ s t : State, SequencerSound s → step s = .next t → t.status.fatal ≠ s.status.fatal →
    t.cmdOp = 6#4 ∨ ∃ rest, s.bus = .assertRst :: rest

/-! ### Block reset -/

/-- 10_state.md R49, 70_reset_and_hazards.md R240: asserting `rst` sets every piece of block state to its
reset value (CTX, `cfg0` and `n`, to which the spec gives none, are left out: log 10). -/
def Obligations.AssertingRstSetsResetValues : Prop :=
  ∀ (s : State) (rest : List HostOp), s.params.legal = true → s.bus = .assertRst :: rest →
    ∃ t, step s = .next t ∧ t.rst = true ∧ t.clk = 0#1 ∧ t.shreg = 0#24 ∧
      t.seq.point.phase = .idle ∧ t.seq.top = ⟨0, 0, 0⟩ ∧ t.seq.sub = ⟨0, 0, 0⟩ ∧ t.seq.k = 0 ∧ t.seq.v = 0 ∧
      t.cmdOp = 0#4 ∧ t.cmdArg = 0#8 ∧ statusWord t = 0x00000F1F#32 ∧
      t.config = ⟨s.params.initChannel, s.params.initGain, 0#2, 0#2⟩ ∧
      t.raw = 0#24 ∧ t.sample = 0#32 ∧ diagWord t = 0#32

/-- 70_reset_and_hazards.md R240: while `rst` is asserted no primitive runs, host writes are ignored and
every piece of block state holds (what a read then returns is the model's: log 23). -/
def Obligations.AssertedRstHoldsTheBlock : Prop :=
  ∀ (s t : State), s.rst = true → s.status.busy = true → step s = .next t →
    (∀ rest, s.bus ≠ .releaseRst :: rest) → (∀ rest, s.bus ≠ .assertRst :: rest) →
    t = { s with bus := t.bus, reads := t.reads, env := { s.env with draws := t.env.draws } }

/-- 10_state.md R49, 95_test_vectors.md P1: the register words right after reset, with the document's
parameters (that reset is the moment of deassertion: log 9). -/
def Obligations.ResetRegisterWords : Prop :=
  statusWord State.reset = 0x00000F1F#32 ∧ configWord State.reset = 0x00018000#32 ∧
    rawWord State.reset = 0#32 ∧ State.reset.sample = 0#32 ∧ diagWord State.reset = 0#32 ∧
    State.reset.clk = 0#1 ∧ State.reset.shreg = 0#24 ∧ State.reset.cmdOp = 0#4 ∧
    State.reset.cmdArg = 0#8 ∧ phase State.reset = .idle

/-! ### The host's procedures -/

/-- 45_host_aggregator.md R191: under bounds R192 admits, a count in [MIN_MEASURES, MAX_MEASURES] succeeds; any
other integer fails, and the procedure it was given to ends with InvalidParameter and has issued no command: the
machine is as it was. -/
def Obligations.MeasureCountCheck : Prop :=
  ∀ (h : HostParams) (times : Int), h.legal = true →
    (validateMeasureCount h times = .accepted ↔ h.minMeasures ≤ times ∧ times ≤ h.maxMeasures) ∧
    (¬ (h.minMeasures ≤ times ∧ times ≤ h.maxMeasures) →
      validateMeasureCount h times = .invalidParameter ∧
      ∀ (fuel : Nat) (s : State), acquire h times fuel s = (.invalidParameter, s))

/-- 45_host_aggregator.md R192, R194: bounds other than 2 ≤ MIN_MEASURES ≤ 3 ≤ MAX_MEASURES are refused and no
command is issued (the answer is the model's: log 27); when `acquire` returns a list, the bounds are not such, its
length is `times`, which lies between them, and every element is a decoded non-sentinel in [-2^23+1, 2^23-2]; the
block need not be idle, if SAMPLE is sound (an invariant of every step). -/
def Obligations.AcquireReturnsDecodedSamples : Prop :=
  (∀ (h : HostParams) (times : Int) (fuel : Nat) (s : State),
    ¬ (2 ≤ h.minMeasures ∧ h.minMeasures ≤ 3 ∧ 3 ≤ h.maxMeasures) →
    validateMeasureCount h times = .illegalBounds ∧ acquire h times fuel s = (.illegalBounds, s)) ∧
  (∀ (h : HostParams) (times : Int) (fuel : Nat) (s t : State) (l : List Word),
    Idle s ∨ SampleSound s → acquire h times fuel s = (.samples l, t) →
    (2 ≤ h.minMeasures ∧ h.minMeasures ≤ 3 ∧ 3 ≤ h.maxMeasures) ∧
    (l.length : Int) = times ∧ (h.minMeasures : Int) ≤ times ∧ times ≤ h.maxMeasures ∧
    ∀ x ∈ l, -(2 ^ 23) + 1 ≤ x.toInt ∧ x.toInt ≤ 2 ^ 23 - 2)

/-- 45_host_aggregator.md R193, 95_test_vectors.md L1.3: an idle block that reads the frame x without a trip gives
`acquire` its sample in one round (the host's operations are steps of the model: log 6, log 7).  60_exceptions.md
R222, 30_encoding.md R93: a busy block ignores the round's write, and after the wait the round gets back what the
command in progress left (log 21, log 26). -/
def Obligations.AcquireRoundCollectsAFrame : Prop :=
  (∀ (s : State) (polls m : Nat) (x : Frame) (ps : List (Nat × Nat)) (L : List Level) (D : List Nat),
    s.params.legal = true → Idle s → m < s.params.readyMaxTries → isSentinel x = false →
    s.env.levels = readyLevels m x ++ L → s.env.deltas = pulseDeltas ps ++ D →
    ps.length = 24 + trailOf s → allPass s.params ps →
    ∃ t, acquireRound polls s = .ok ((0#4, some (deliver x)), t) ∧ Idle t ∧
      t.env.levels = L ∧ t.env.deltas = D ∧ t.params = s.params ∧
      t.config.armed = BitVec.ofNat 2 (trailOf s)) ∧
  (∀ s t : State, s.params.legal = true → s.status.busy = true → t.status.busy = false → RunsTo s t →
    ∃ polls, acquireRound polls s =
      if t.status.code = .ok then .ok ((0#4, some t.sample),
        { t with bus := [], reads := t.sample :: statusWord t :: t.reads })
      else .ok ((t.status.code.bits, none), { t with bus := [], reads := statusWord t :: t.reads }))
end

