-- ==== Sys2Proof/Laws/State.lean ====
section
/-!
SUPPORT. One lemma per field per named update, so that no later proof unfolds a record update.
-/

namespace Sys2Proof.Machine

/-! ### `setClk` -/

@[simp] theorem setClk_params (v : Level) (s : State) : (setClk v s).params = s.params := rfl
@[simp] theorem setClk_rst (v : Level) (s : State) : (setClk v s).rst = s.rst := rfl
@[simp] theorem setClk_clk (v : Level) (s : State) : (setClk v s).clk = v := rfl
@[simp] theorem setClk_shreg (v : Level) (s : State) : (setClk v s).shreg = s.shreg := rfl
@[simp] theorem setClk_cmdOp (v : Level) (s : State) : (setClk v s).cmdOp = s.cmdOp := rfl
@[simp] theorem setClk_cmdArg (v : Level) (s : State) : (setClk v s).cmdArg = s.cmdArg := rfl
@[simp] theorem setClk_status (v : Level) (s : State) : (setClk v s).status = s.status := rfl
@[simp] theorem setClk_config (v : Level) (s : State) : (setClk v s).config = s.config := rfl
@[simp] theorem setClk_raw (v : Level) (s : State) : (setClk v s).raw = s.raw := rfl
@[simp] theorem setClk_sample (v : Level) (s : State) : (setClk v s).sample = s.sample := rfl
@[simp] theorem setClk_diag (v : Level) (s : State) : (setClk v s).diag = s.diag := rfl
@[simp] theorem setClk_seq (v : Level) (s : State) : (setClk v s).seq = s.seq := rfl
@[simp] theorem setClk_env (v : Level) (s : State) : (setClk v s).env = s.env := rfl
@[simp] theorem setClk_bus (v : Level) (s : State) : (setClk v s).bus = s.bus := rfl
@[simp] theorem setClk_reads (v : Level) (s : State) : (setClk v s).reads = s.reads := rfl
@[simp] theorem setClk_events (v : Level) (s : State) : (setClk v s).events = .clkWrite v :: s.events := rfl

/-! ### `readData` -/

@[simp] theorem readData_params (s : State) : ((readData s).2).params = s.params := rfl
@[simp] theorem readData_rst (s : State) : ((readData s).2).rst = s.rst := rfl
@[simp] theorem readData_clk (s : State) : ((readData s).2).clk = s.clk := rfl
@[simp] theorem readData_shreg (s : State) : ((readData s).2).shreg = s.shreg := rfl
@[simp] theorem readData_cmdOp (s : State) : ((readData s).2).cmdOp = s.cmdOp := rfl
@[simp] theorem readData_cmdArg (s : State) : ((readData s).2).cmdArg = s.cmdArg := rfl
@[simp] theorem readData_status (s : State) : ((readData s).2).status = s.status := rfl
@[simp] theorem readData_config (s : State) : ((readData s).2).config = s.config := rfl
@[simp] theorem readData_raw (s : State) : ((readData s).2).raw = s.raw := rfl
@[simp] theorem readData_sample (s : State) : ((readData s).2).sample = s.sample := rfl
@[simp] theorem readData_diag (s : State) : ((readData s).2).diag = s.diag := rfl
@[simp] theorem readData_seq (s : State) : ((readData s).2).seq = s.seq := rfl
@[simp] theorem readData_env (s : State) : ((readData s).2).env = s.env.afterLevel := rfl
@[simp] theorem readData_bus (s : State) : ((readData s).2).bus = s.bus := rfl
@[simp] theorem readData_reads (s : State) : ((readData s).2).reads = s.reads := rfl
@[simp] theorem readData_events (s : State) : ((readData s).2).events = .dataRead s.env.nextLevel :: s.events := rfl

/-! ### `now` -/

@[simp] theorem now_params (s : State) : ((now s).2).params = s.params := rfl
@[simp] theorem now_rst (s : State) : ((now s).2).rst = s.rst := rfl
@[simp] theorem now_clk (s : State) : ((now s).2).clk = s.clk := rfl
@[simp] theorem now_shreg (s : State) : ((now s).2).shreg = s.shreg := rfl
@[simp] theorem now_cmdOp (s : State) : ((now s).2).cmdOp = s.cmdOp := rfl
@[simp] theorem now_cmdArg (s : State) : ((now s).2).cmdArg = s.cmdArg := rfl
@[simp] theorem now_status (s : State) : ((now s).2).status = s.status := rfl
@[simp] theorem now_config (s : State) : ((now s).2).config = s.config := rfl
@[simp] theorem now_raw (s : State) : ((now s).2).raw = s.raw := rfl
@[simp] theorem now_sample (s : State) : ((now s).2).sample = s.sample := rfl
@[simp] theorem now_diag (s : State) : ((now s).2).diag = s.diag := rfl
@[simp] theorem now_seq (s : State) : ((now s).2).seq = s.seq := rfl
@[simp] theorem now_env (s : State) : ((now s).2).env = s.env.afterNow := rfl
@[simp] theorem now_bus (s : State) : ((now s).2).bus = s.bus := rfl
@[simp] theorem now_reads (s : State) : ((now s).2).reads = s.reads := rfl
@[simp] theorem now_events (s : State) : ((now s).2).events = .timeRead s.env.nextNow :: s.events := rfl

/-! ### `sleep` -/

@[simp] theorem sleep_params (d : Nat) (s : State) : (sleep d s).params = s.params := rfl
@[simp] theorem sleep_rst (d : Nat) (s : State) : (sleep d s).rst = s.rst := rfl
@[simp] theorem sleep_clk (d : Nat) (s : State) : (sleep d s).clk = s.clk := rfl
@[simp] theorem sleep_shreg (d : Nat) (s : State) : (sleep d s).shreg = s.shreg := rfl
@[simp] theorem sleep_cmdOp (d : Nat) (s : State) : (sleep d s).cmdOp = s.cmdOp := rfl
@[simp] theorem sleep_cmdArg (d : Nat) (s : State) : (sleep d s).cmdArg = s.cmdArg := rfl
@[simp] theorem sleep_status (d : Nat) (s : State) : (sleep d s).status = s.status := rfl
@[simp] theorem sleep_config (d : Nat) (s : State) : (sleep d s).config = s.config := rfl
@[simp] theorem sleep_raw (d : Nat) (s : State) : (sleep d s).raw = s.raw := rfl
@[simp] theorem sleep_sample (d : Nat) (s : State) : (sleep d s).sample = s.sample := rfl
@[simp] theorem sleep_diag (d : Nat) (s : State) : (sleep d s).diag = s.diag := rfl
@[simp] theorem sleep_seq (d : Nat) (s : State) : (sleep d s).seq = s.seq := rfl
@[simp] theorem sleep_env (d : Nat) (s : State) : (sleep d s).env = s.env := rfl
@[simp] theorem sleep_bus (d : Nat) (s : State) : (sleep d s).bus = s.bus := rfl
@[simp] theorem sleep_reads (d : Nat) (s : State) : (sleep d s).reads = s.reads := rfl
@[simp] theorem sleep_events (d : Nat) (s : State) : (sleep d s).events = .sleep d :: s.events := rfl

/-! ### `pulse` -/

@[simp] theorem pulse_params (s : State) : ((pulse s).2).params = s.params := rfl
@[simp] theorem pulse_rst (s : State) : ((pulse s).2).rst = s.rst := rfl
@[simp] theorem pulse_clk (s : State) : ((pulse s).2).clk = 0#1 := rfl
@[simp] theorem pulse_shreg (s : State) : ((pulse s).2).shreg = s.shreg := rfl
@[simp] theorem pulse_cmdOp (s : State) : ((pulse s).2).cmdOp = s.cmdOp := rfl
@[simp] theorem pulse_cmdArg (s : State) : ((pulse s).2).cmdArg = s.cmdArg := rfl
@[simp] theorem pulse_status (s : State) : ((pulse s).2).status = s.status := rfl
@[simp] theorem pulse_config (s : State) : ((pulse s).2).config = s.config := rfl
@[simp] theorem pulse_raw (s : State) : ((pulse s).2).raw = s.raw := rfl
@[simp] theorem pulse_sample (s : State) : ((pulse s).2).sample = s.sample := rfl
@[simp] theorem pulse_diag (s : State) : ((pulse s).2).diag = s.diag := rfl
@[simp] theorem pulse_seq (s : State) : ((pulse s).2).seq = s.seq := rfl
@[simp] theorem pulse_env (s : State) : ((pulse s).2).env = s.env.afterNow.afterNow := rfl
@[simp] theorem pulse_bus (s : State) : ((pulse s).2).bus = s.bus := rfl
@[simp] theorem pulse_reads (s : State) : ((pulse s).2).reads = s.reads := rfl
@[simp] theorem pulse_events (s : State) : ((pulse s).2).events = 
    .timeRead s.env.afterNow.nextNow :: .clkWrite 0#1 :: .clkWrite 1#1 :: .timeRead s.env.nextNow ::
      s.events := rfl

/-! ### `setCounters` -/

@[simp] theorem setCounters_params (c : Counters) (s : State) : (setCounters c s).params = s.params := by unfold setCounters; split <;> rfl
@[simp] theorem setCounters_rst (c : Counters) (s : State) : (setCounters c s).rst = s.rst := by unfold setCounters; split <;> rfl
@[simp] theorem setCounters_clk (c : Counters) (s : State) : (setCounters c s).clk = s.clk := by unfold setCounters; split <;> rfl
@[simp] theorem setCounters_shreg (c : Counters) (s : State) : (setCounters c s).shreg = s.shreg := by unfold setCounters; split <;> rfl
@[simp] theorem setCounters_cmdOp (c : Counters) (s : State) : (setCounters c s).cmdOp = s.cmdOp := by unfold setCounters; split <;> rfl
@[simp] theorem setCounters_cmdArg (c : Counters) (s : State) : (setCounters c s).cmdArg = s.cmdArg := by unfold setCounters; split <;> rfl
@[simp] theorem setCounters_status (c : Counters) (s : State) : (setCounters c s).status = s.status := by unfold setCounters; split <;> rfl
@[simp] theorem setCounters_config (c : Counters) (s : State) : (setCounters c s).config = s.config := by unfold setCounters; split <;> rfl
@[simp] theorem setCounters_raw (c : Counters) (s : State) : (setCounters c s).raw = s.raw := by unfold setCounters; split <;> rfl
@[simp] theorem setCounters_sample (c : Counters) (s : State) : (setCounters c s).sample = s.sample := by unfold setCounters; split <;> rfl
@[simp] theorem setCounters_diag (c : Counters) (s : State) : (setCounters c s).diag = s.diag := by unfold setCounters; split <;> rfl
@[simp] theorem setCounters_env (c : Counters) (s : State) : (setCounters c s).env = s.env := by unfold setCounters; split <;> rfl
@[simp] theorem setCounters_bus (c : Counters) (s : State) : (setCounters c s).bus = s.bus := by unfold setCounters; split <;> rfl
@[simp] theorem setCounters_reads (c : Counters) (s : State) : (setCounters c s).reads = s.reads := by unfold setCounters; split <;> rfl
@[simp] theorem setCounters_events (c : Counters) (s : State) : (setCounters c s).events = s.events := by unfold setCounters; split <;> rfl

/-! ### `noteDiag` -/

@[simp] theorem noteDiag_params (d : Diag) (s : State) : (noteDiag d s).params = s.params := by unfold noteDiag; split <;> rfl
@[simp] theorem noteDiag_rst (d : Diag) (s : State) : (noteDiag d s).rst = s.rst := by unfold noteDiag; split <;> rfl
@[simp] theorem noteDiag_clk (d : Diag) (s : State) : (noteDiag d s).clk = s.clk := by unfold noteDiag; split <;> rfl
@[simp] theorem noteDiag_shreg (d : Diag) (s : State) : (noteDiag d s).shreg = s.shreg := by unfold noteDiag; split <;> rfl
@[simp] theorem noteDiag_cmdOp (d : Diag) (s : State) : (noteDiag d s).cmdOp = s.cmdOp := by unfold noteDiag; split <;> rfl
@[simp] theorem noteDiag_cmdArg (d : Diag) (s : State) : (noteDiag d s).cmdArg = s.cmdArg := by unfold noteDiag; split <;> rfl
@[simp] theorem noteDiag_status (d : Diag) (s : State) : (noteDiag d s).status = s.status := by unfold noteDiag; split <;> rfl
@[simp] theorem noteDiag_config (d : Diag) (s : State) : (noteDiag d s).config = s.config := by unfold noteDiag; split <;> rfl
@[simp] theorem noteDiag_raw (d : Diag) (s : State) : (noteDiag d s).raw = s.raw := by unfold noteDiag; split <;> rfl
@[simp] theorem noteDiag_sample (d : Diag) (s : State) : (noteDiag d s).sample = s.sample := by unfold noteDiag; split <;> rfl
@[simp] theorem noteDiag_seq (d : Diag) (s : State) : (noteDiag d s).seq = s.seq := by unfold noteDiag; split <;> rfl
@[simp] theorem noteDiag_env (d : Diag) (s : State) : (noteDiag d s).env = s.env := by unfold noteDiag; split <;> rfl
@[simp] theorem noteDiag_bus (d : Diag) (s : State) : (noteDiag d s).bus = s.bus := by unfold noteDiag; split <;> rfl
@[simp] theorem noteDiag_reads (d : Diag) (s : State) : (noteDiag d s).reads = s.reads := by unfold noteDiag; split <;> rfl
@[simp] theorem noteDiag_events (d : Diag) (s : State) : (noteDiag d s).events = s.events := by unfold noteDiag; split <;> rfl

/-! ### `goTo` -/

@[simp] theorem goTo_params (p : Point) (s : State) : (goTo p s).params = s.params := rfl
@[simp] theorem goTo_rst (p : Point) (s : State) : (goTo p s).rst = s.rst := rfl
@[simp] theorem goTo_clk (p : Point) (s : State) : (goTo p s).clk = s.clk := rfl
@[simp] theorem goTo_shreg (p : Point) (s : State) : (goTo p s).shreg = s.shreg := rfl
@[simp] theorem goTo_cmdOp (p : Point) (s : State) : (goTo p s).cmdOp = s.cmdOp := rfl
@[simp] theorem goTo_cmdArg (p : Point) (s : State) : (goTo p s).cmdArg = s.cmdArg := rfl
@[simp] theorem goTo_status (p : Point) (s : State) : (goTo p s).status = s.status := rfl
@[simp] theorem goTo_config (p : Point) (s : State) : (goTo p s).config = s.config := rfl
@[simp] theorem goTo_raw (p : Point) (s : State) : (goTo p s).raw = s.raw := rfl
@[simp] theorem goTo_sample (p : Point) (s : State) : (goTo p s).sample = s.sample := rfl
@[simp] theorem goTo_diag (p : Point) (s : State) : (goTo p s).diag = s.diag := rfl
@[simp] theorem goTo_seq (p : Point) (s : State) : (goTo p s).seq = { s.seq with point := p } := rfl
@[simp] theorem goTo_env (p : Point) (s : State) : (goTo p s).env = s.env := rfl
@[simp] theorem goTo_bus (p : Point) (s : State) : (goTo p s).bus = s.bus := rfl
@[simp] theorem goTo_reads (p : Point) (s : State) : (goTo p s).reads = s.reads := rfl
@[simp] theorem goTo_events (p : Point) (s : State) : (goTo p s).events = s.events := rfl

/-! ### `disarm` -/

@[simp] theorem disarm_params (s : State) : (disarm s).params = s.params := rfl
@[simp] theorem disarm_rst (s : State) : (disarm s).rst = s.rst := rfl
@[simp] theorem disarm_clk (s : State) : (disarm s).clk = s.clk := rfl
@[simp] theorem disarm_shreg (s : State) : (disarm s).shreg = s.shreg := rfl
@[simp] theorem disarm_cmdOp (s : State) : (disarm s).cmdOp = s.cmdOp := rfl
@[simp] theorem disarm_cmdArg (s : State) : (disarm s).cmdArg = s.cmdArg := rfl
@[simp] theorem disarm_status (s : State) : (disarm s).status = s.status := rfl
@[simp] theorem disarm_config (s : State) : (disarm s).config = { s.config with armed := 0#2 } := rfl
@[simp] theorem disarm_raw (s : State) : (disarm s).raw = s.raw := rfl
@[simp] theorem disarm_sample (s : State) : (disarm s).sample = s.sample := rfl
@[simp] theorem disarm_diag (s : State) : (disarm s).diag = s.diag := rfl
@[simp] theorem disarm_seq (s : State) : (disarm s).seq = s.seq := rfl
@[simp] theorem disarm_env (s : State) : (disarm s).env = s.env := rfl
@[simp] theorem disarm_bus (s : State) : (disarm s).bus = s.bus := rfl
@[simp] theorem disarm_reads (s : State) : (disarm s).reads = s.reads := rfl
@[simp] theorem disarm_events (s : State) : (disarm s).events = s.events := rfl

/-! ### `clearDiag` -/

@[simp] theorem clearDiag_params (s : State) : (clearDiag s).params = s.params := rfl
@[simp] theorem clearDiag_rst (s : State) : (clearDiag s).rst = s.rst := rfl
@[simp] theorem clearDiag_clk (s : State) : (clearDiag s).clk = s.clk := rfl
@[simp] theorem clearDiag_shreg (s : State) : (clearDiag s).shreg = s.shreg := rfl
@[simp] theorem clearDiag_cmdOp (s : State) : (clearDiag s).cmdOp = s.cmdOp := rfl
@[simp] theorem clearDiag_cmdArg (s : State) : (clearDiag s).cmdArg = s.cmdArg := rfl
@[simp] theorem clearDiag_status (s : State) : (clearDiag s).status = s.status := rfl
@[simp] theorem clearDiag_config (s : State) : (clearDiag s).config = s.config := rfl
@[simp] theorem clearDiag_raw (s : State) : (clearDiag s).raw = s.raw := rfl
@[simp] theorem clearDiag_sample (s : State) : (clearDiag s).sample = s.sample := rfl
@[simp] theorem clearDiag_diag (s : State) : (clearDiag s).diag = .zero := rfl
@[simp] theorem clearDiag_seq (s : State) : (clearDiag s).seq = s.seq := rfl
@[simp] theorem clearDiag_env (s : State) : (clearDiag s).env = s.env := rfl
@[simp] theorem clearDiag_bus (s : State) : (clearDiag s).bus = s.bus := rfl
@[simp] theorem clearDiag_reads (s : State) : (clearDiag s).reads = s.reads := rfl
@[simp] theorem clearDiag_events (s : State) : (clearDiag s).events = s.events := rfl

/-! ### `accept` -/

@[simp] theorem accept_params (op : BitVec 4) (arg : Byte) (s : State) : (accept op arg s).params = s.params := rfl
@[simp] theorem accept_rst (op : BitVec 4) (arg : Byte) (s : State) : (accept op arg s).rst = s.rst := rfl
@[simp] theorem accept_clk (op : BitVec 4) (arg : Byte) (s : State) : (accept op arg s).clk = s.clk := rfl
@[simp] theorem accept_shreg (op : BitVec 4) (arg : Byte) (s : State) : (accept op arg s).shreg = s.shreg := rfl
@[simp] theorem accept_cmdOp (op : BitVec 4) (arg : Byte) (s : State) : (accept op arg s).cmdOp = op := rfl
@[simp] theorem accept_cmdArg (op : BitVec 4) (arg : Byte) (s : State) : (accept op arg s).cmdArg = arg := rfl
@[simp] theorem accept_status (op : BitVec 4) (arg : Byte) (s : State) : (accept op arg s).status = { s.status with busy := true, warn := false } := rfl
@[simp] theorem accept_config (op : BitVec 4) (arg : Byte) (s : State) : (accept op arg s).config = s.config := rfl
@[simp] theorem accept_raw (op : BitVec 4) (arg : Byte) (s : State) : (accept op arg s).raw = s.raw := rfl
@[simp] theorem accept_sample (op : BitVec 4) (arg : Byte) (s : State) : (accept op arg s).sample = s.sample := rfl
@[simp] theorem accept_diag (op : BitVec 4) (arg : Byte) (s : State) : (accept op arg s).diag = s.diag := rfl
@[simp] theorem accept_seq (op : BitVec 4) (arg : Byte) (s : State) : (accept op arg s).seq = s.seq := rfl
@[simp] theorem accept_env (op : BitVec 4) (arg : Byte) (s : State) : (accept op arg s).env = s.env := rfl
@[simp] theorem accept_bus (op : BitVec 4) (arg : Byte) (s : State) : (accept op arg s).bus = s.bus := rfl
@[simp] theorem accept_reads (op : BitVec 4) (arg : Byte) (s : State) : (accept op arg s).reads = s.reads := rfl
@[simp] theorem accept_events (op : BitVec 4) (arg : Byte) (s : State) : (accept op arg s).events = s.events := rfl

/-! ### `retire` -/

@[simp] theorem retire_params (c : Code) (s : State) : (retire c s).params = s.params := rfl
@[simp] theorem retire_rst (c : Code) (s : State) : (retire c s).rst = s.rst := rfl
@[simp] theorem retire_clk (c : Code) (s : State) : (retire c s).clk = s.clk := rfl
@[simp] theorem retire_shreg (c : Code) (s : State) : (retire c s).shreg = s.shreg := rfl
@[simp] theorem retire_cmdOp (c : Code) (s : State) : (retire c s).cmdOp = s.cmdOp := rfl
@[simp] theorem retire_cmdArg (c : Code) (s : State) : (retire c s).cmdArg = s.cmdArg := rfl
@[simp] theorem retire_status (c : Code) (s : State) : (retire c s).status = { s.status with code := c, busy := false } := rfl
@[simp] theorem retire_config (c : Code) (s : State) : (retire c s).config = s.config := rfl
@[simp] theorem retire_raw (c : Code) (s : State) : (retire c s).raw = s.raw := rfl
@[simp] theorem retire_sample (c : Code) (s : State) : (retire c s).sample = s.sample := rfl
@[simp] theorem retire_diag (c : Code) (s : State) : (retire c s).diag = s.diag := rfl
@[simp] theorem retire_seq (c : Code) (s : State) : (retire c s).seq = s.seq := rfl
@[simp] theorem retire_env (c : Code) (s : State) : (retire c s).env = s.env := rfl
@[simp] theorem retire_bus (c : Code) (s : State) : (retire c s).bus = s.bus := rfl
@[simp] theorem retire_reads (c : Code) (s : State) : (retire c s).reads = s.reads := rfl
@[simp] theorem retire_events (c : Code) (s : State) : (retire c s).events = s.events := rfl

/-! ### `finish` -/

@[simp] theorem finish_params (c : Code) (s : State) : (finish c s).params = s.params := rfl
@[simp] theorem finish_rst (c : Code) (s : State) : (finish c s).rst = s.rst := rfl
@[simp] theorem finish_clk (c : Code) (s : State) : (finish c s).clk = s.clk := rfl
@[simp] theorem finish_shreg (c : Code) (s : State) : (finish c s).shreg = s.shreg := rfl
@[simp] theorem finish_cmdOp (c : Code) (s : State) : (finish c s).cmdOp = s.cmdOp := rfl
@[simp] theorem finish_cmdArg (c : Code) (s : State) : (finish c s).cmdArg = s.cmdArg := rfl
@[simp] theorem finish_status (c : Code) (s : State) : (finish c s).status = { s.status with code := c, busy := false } := rfl
@[simp] theorem finish_config (c : Code) (s : State) : (finish c s).config = s.config := rfl
@[simp] theorem finish_raw (c : Code) (s : State) : (finish c s).raw = s.raw := rfl
@[simp] theorem finish_sample (c : Code) (s : State) : (finish c s).sample = s.sample := rfl
@[simp] theorem finish_diag (c : Code) (s : State) : (finish c s).diag = s.diag := rfl
@[simp] theorem finish_seq (c : Code) (s : State) : (finish c s).seq = { s.seq with point := .idle } := rfl
@[simp] theorem finish_env (c : Code) (s : State) : (finish c s).env = s.env := rfl
@[simp] theorem finish_bus (c : Code) (s : State) : (finish c s).bus = s.bus := rfl
@[simp] theorem finish_reads (c : Code) (s : State) : (finish c s).reads = s.reads := rfl
@[simp] theorem finish_events (c : Code) (s : State) : (finish c s).events = s.events := rfl

/-! ### `setWarn` -/

@[simp] theorem setWarn_params (s : State) : (setWarn s).params = s.params := rfl
@[simp] theorem setWarn_rst (s : State) : (setWarn s).rst = s.rst := rfl
@[simp] theorem setWarn_clk (s : State) : (setWarn s).clk = s.clk := rfl
@[simp] theorem setWarn_shreg (s : State) : (setWarn s).shreg = s.shreg := rfl
@[simp] theorem setWarn_cmdOp (s : State) : (setWarn s).cmdOp = s.cmdOp := rfl
@[simp] theorem setWarn_cmdArg (s : State) : (setWarn s).cmdArg = s.cmdArg := rfl
@[simp] theorem setWarn_status (s : State) : (setWarn s).status = { s.status with warn := true } := rfl
@[simp] theorem setWarn_config (s : State) : (setWarn s).config = s.config := rfl
@[simp] theorem setWarn_raw (s : State) : (setWarn s).raw = s.raw := rfl
@[simp] theorem setWarn_sample (s : State) : (setWarn s).sample = s.sample := rfl
@[simp] theorem setWarn_diag (s : State) : (setWarn s).diag = s.diag := rfl
@[simp] theorem setWarn_seq (s : State) : (setWarn s).seq = s.seq := rfl
@[simp] theorem setWarn_env (s : State) : (setWarn s).env = s.env := rfl
@[simp] theorem setWarn_bus (s : State) : (setWarn s).bus = s.bus := rfl
@[simp] theorem setWarn_reads (s : State) : (setWarn s).reads = s.reads := rfl
@[simp] theorem setWarn_events (s : State) : (setWarn s).events = s.events := rfl

/-! ### `setFatal` -/

@[simp] theorem setFatal_params (f : Bool) (s : State) : (setFatal f s).params = s.params := rfl
@[simp] theorem setFatal_rst (f : Bool) (s : State) : (setFatal f s).rst = s.rst := rfl
@[simp] theorem setFatal_clk (f : Bool) (s : State) : (setFatal f s).clk = s.clk := rfl
@[simp] theorem setFatal_shreg (f : Bool) (s : State) : (setFatal f s).shreg = s.shreg := rfl
@[simp] theorem setFatal_cmdOp (f : Bool) (s : State) : (setFatal f s).cmdOp = s.cmdOp := rfl
@[simp] theorem setFatal_cmdArg (f : Bool) (s : State) : (setFatal f s).cmdArg = s.cmdArg := rfl
@[simp] theorem setFatal_status (f : Bool) (s : State) : (setFatal f s).status = { s.status with fatal := f } := rfl
@[simp] theorem setFatal_config (f : Bool) (s : State) : (setFatal f s).config = s.config := rfl
@[simp] theorem setFatal_raw (f : Bool) (s : State) : (setFatal f s).raw = s.raw := rfl
@[simp] theorem setFatal_sample (f : Bool) (s : State) : (setFatal f s).sample = s.sample := rfl
@[simp] theorem setFatal_diag (f : Bool) (s : State) : (setFatal f s).diag = s.diag := rfl
@[simp] theorem setFatal_seq (f : Bool) (s : State) : (setFatal f s).seq = s.seq := rfl
@[simp] theorem setFatal_env (f : Bool) (s : State) : (setFatal f s).env = s.env := rfl
@[simp] theorem setFatal_bus (f : Bool) (s : State) : (setFatal f s).bus = s.bus := rfl
@[simp] theorem setFatal_reads (f : Bool) (s : State) : (setFatal f s).reads = s.reads := rfl
@[simp] theorem setFatal_events (f : Bool) (s : State) : (setFatal f s).events = s.events := rfl

/-! ### `setSettleCode` -/

@[simp] theorem setSettleCode_params (c : Code) (s : State) : (setSettleCode c s).params = s.params := rfl
@[simp] theorem setSettleCode_rst (c : Code) (s : State) : (setSettleCode c s).rst = s.rst := rfl
@[simp] theorem setSettleCode_clk (c : Code) (s : State) : (setSettleCode c s).clk = s.clk := rfl
@[simp] theorem setSettleCode_shreg (c : Code) (s : State) : (setSettleCode c s).shreg = s.shreg := rfl
@[simp] theorem setSettleCode_cmdOp (c : Code) (s : State) : (setSettleCode c s).cmdOp = s.cmdOp := rfl
@[simp] theorem setSettleCode_cmdArg (c : Code) (s : State) : (setSettleCode c s).cmdArg = s.cmdArg := rfl
@[simp] theorem setSettleCode_status (c : Code) (s : State) : (setSettleCode c s).status = { s.status with settleCode := c } := rfl
@[simp] theorem setSettleCode_config (c : Code) (s : State) : (setSettleCode c s).config = s.config := rfl
@[simp] theorem setSettleCode_raw (c : Code) (s : State) : (setSettleCode c s).raw = s.raw := rfl
@[simp] theorem setSettleCode_sample (c : Code) (s : State) : (setSettleCode c s).sample = s.sample := rfl
@[simp] theorem setSettleCode_diag (c : Code) (s : State) : (setSettleCode c s).diag = s.diag := rfl
@[simp] theorem setSettleCode_seq (c : Code) (s : State) : (setSettleCode c s).seq = s.seq := rfl
@[simp] theorem setSettleCode_env (c : Code) (s : State) : (setSettleCode c s).env = s.env := rfl
@[simp] theorem setSettleCode_bus (c : Code) (s : State) : (setSettleCode c s).bus = s.bus := rfl
@[simp] theorem setSettleCode_reads (c : Code) (s : State) : (setSettleCode c s).reads = s.reads := rfl
@[simp] theorem setSettleCode_events (c : Code) (s : State) : (setSettleCode c s).events = s.events := rfl

/-! ### `setChannel` -/

@[simp] theorem setChannel_params (c : Channel) (s : State) : (setChannel c s).params = s.params := rfl
@[simp] theorem setChannel_rst (c : Channel) (s : State) : (setChannel c s).rst = s.rst := rfl
@[simp] theorem setChannel_clk (c : Channel) (s : State) : (setChannel c s).clk = s.clk := rfl
@[simp] theorem setChannel_shreg (c : Channel) (s : State) : (setChannel c s).shreg = s.shreg := rfl
@[simp] theorem setChannel_cmdOp (c : Channel) (s : State) : (setChannel c s).cmdOp = s.cmdOp := rfl
@[simp] theorem setChannel_cmdArg (c : Channel) (s : State) : (setChannel c s).cmdArg = s.cmdArg := rfl
@[simp] theorem setChannel_status (c : Channel) (s : State) : (setChannel c s).status = s.status := rfl
@[simp] theorem setChannel_config (c : Channel) (s : State) : (setChannel c s).config = { s.config with channel := c } := rfl
@[simp] theorem setChannel_raw (c : Channel) (s : State) : (setChannel c s).raw = s.raw := rfl
@[simp] theorem setChannel_sample (c : Channel) (s : State) : (setChannel c s).sample = s.sample := rfl
@[simp] theorem setChannel_diag (c : Channel) (s : State) : (setChannel c s).diag = s.diag := rfl
@[simp] theorem setChannel_seq (c : Channel) (s : State) : (setChannel c s).seq = s.seq := rfl
@[simp] theorem setChannel_env (c : Channel) (s : State) : (setChannel c s).env = s.env := rfl
@[simp] theorem setChannel_bus (c : Channel) (s : State) : (setChannel c s).bus = s.bus := rfl
@[simp] theorem setChannel_reads (c : Channel) (s : State) : (setChannel c s).reads = s.reads := rfl
@[simp] theorem setChannel_events (c : Channel) (s : State) : (setChannel c s).events = s.events := rfl

/-! ### `setGainA` -/

@[simp] theorem setGainA_params (g : Byte) (s : State) : (setGainA g s).params = s.params := rfl
@[simp] theorem setGainA_rst (g : Byte) (s : State) : (setGainA g s).rst = s.rst := rfl
@[simp] theorem setGainA_clk (g : Byte) (s : State) : (setGainA g s).clk = s.clk := rfl
@[simp] theorem setGainA_shreg (g : Byte) (s : State) : (setGainA g s).shreg = s.shreg := rfl
@[simp] theorem setGainA_cmdOp (g : Byte) (s : State) : (setGainA g s).cmdOp = s.cmdOp := rfl
@[simp] theorem setGainA_cmdArg (g : Byte) (s : State) : (setGainA g s).cmdArg = s.cmdArg := rfl
@[simp] theorem setGainA_status (g : Byte) (s : State) : (setGainA g s).status = s.status := rfl
@[simp] theorem setGainA_config (g : Byte) (s : State) : (setGainA g s).config = { s.config with gainA := g } := rfl
@[simp] theorem setGainA_raw (g : Byte) (s : State) : (setGainA g s).raw = s.raw := rfl
@[simp] theorem setGainA_sample (g : Byte) (s : State) : (setGainA g s).sample = s.sample := rfl
@[simp] theorem setGainA_diag (g : Byte) (s : State) : (setGainA g s).diag = s.diag := rfl
@[simp] theorem setGainA_seq (g : Byte) (s : State) : (setGainA g s).seq = s.seq := rfl
@[simp] theorem setGainA_env (g : Byte) (s : State) : (setGainA g s).env = s.env := rfl
@[simp] theorem setGainA_bus (g : Byte) (s : State) : (setGainA g s).bus = s.bus := rfl
@[simp] theorem setGainA_reads (g : Byte) (s : State) : (setGainA g s).reads = s.reads := rfl
@[simp] theorem setGainA_events (g : Byte) (s : State) : (setGainA g s).events = s.events := rfl

/-! ### `beginSubs` -/

@[simp] theorem beginSubs_params (s : State) : (beginSubs s).params = s.params := rfl
@[simp] theorem beginSubs_rst (s : State) : (beginSubs s).rst = s.rst := rfl
@[simp] theorem beginSubs_clk (s : State) : (beginSubs s).clk = s.clk := rfl
@[simp] theorem beginSubs_shreg (s : State) : (beginSubs s).shreg = s.shreg := rfl
@[simp] theorem beginSubs_cmdOp (s : State) : (beginSubs s).cmdOp = s.cmdOp := rfl
@[simp] theorem beginSubs_cmdArg (s : State) : (beginSubs s).cmdArg = s.cmdArg := rfl
@[simp] theorem beginSubs_status (s : State) : (beginSubs s).status = s.status := rfl
@[simp] theorem beginSubs_config (s : State) : (beginSubs s).config = s.config := rfl
@[simp] theorem beginSubs_raw (s : State) : (beginSubs s).raw = s.raw := rfl
@[simp] theorem beginSubs_sample (s : State) : (beginSubs s).sample = s.sample := rfl
@[simp] theorem beginSubs_diag (s : State) : (beginSubs s).diag = s.diag := rfl
@[simp] theorem beginSubs_seq (s : State) : (beginSubs s).seq = { s.seq with k := 0, v := 0 } := rfl
@[simp] theorem beginSubs_env (s : State) : (beginSubs s).env = s.env := rfl
@[simp] theorem beginSubs_bus (s : State) : (beginSubs s).bus = s.bus := rfl
@[simp] theorem beginSubs_reads (s : State) : (beginSubs s).reads = s.reads := rfl
@[simp] theorem beginSubs_events (s : State) : (beginSubs s).events = s.events := rfl

/-! ### `armTrail` -/

@[simp] theorem armTrail_params (s : State) : (armTrail s).params = s.params := rfl
@[simp] theorem armTrail_rst (s : State) : (armTrail s).rst = s.rst := rfl
@[simp] theorem armTrail_clk (s : State) : (armTrail s).clk = s.clk := rfl
@[simp] theorem armTrail_shreg (s : State) : (armTrail s).shreg = s.shreg := rfl
@[simp] theorem armTrail_cmdOp (s : State) : (armTrail s).cmdOp = s.cmdOp := rfl
@[simp] theorem armTrail_cmdArg (s : State) : (armTrail s).cmdArg = s.cmdArg := rfl
@[simp] theorem armTrail_status (s : State) : (armTrail s).status = s.status := rfl
@[simp] theorem armTrail_config (s : State) : (armTrail s).config = { s.config with armed := BitVec.ofNat 2 s.seq.n } := rfl
@[simp] theorem armTrail_raw (s : State) : (armTrail s).raw = s.raw := rfl
@[simp] theorem armTrail_sample (s : State) : (armTrail s).sample = s.sample := rfl
@[simp] theorem armTrail_diag (s : State) : (armTrail s).diag = s.diag := rfl
@[simp] theorem armTrail_seq (s : State) : (armTrail s).seq = s.seq := rfl
@[simp] theorem armTrail_env (s : State) : (armTrail s).env = s.env := rfl
@[simp] theorem armTrail_bus (s : State) : (armTrail s).bus = s.bus := rfl
@[simp] theorem armTrail_reads (s : State) : (armTrail s).reads = s.reads := rfl
@[simp] theorem armTrail_events (s : State) : (armTrail s).events = s.events := rfl

/-! ### `setCtx` -/

@[simp] theorem setCtx_params (c : Ctx) (s : State) : (setCtx c s).params = s.params := rfl
@[simp] theorem setCtx_rst (c : Ctx) (s : State) : (setCtx c s).rst = s.rst := rfl
@[simp] theorem setCtx_clk (c : Ctx) (s : State) : (setCtx c s).clk = s.clk := rfl
@[simp] theorem setCtx_shreg (c : Ctx) (s : State) : (setCtx c s).shreg = s.shreg := rfl
@[simp] theorem setCtx_cmdOp (c : Ctx) (s : State) : (setCtx c s).cmdOp = s.cmdOp := rfl
@[simp] theorem setCtx_cmdArg (c : Ctx) (s : State) : (setCtx c s).cmdArg = s.cmdArg := rfl
@[simp] theorem setCtx_status (c : Ctx) (s : State) : (setCtx c s).status = s.status := rfl
@[simp] theorem setCtx_config (c : Ctx) (s : State) : (setCtx c s).config = s.config := rfl
@[simp] theorem setCtx_raw (c : Ctx) (s : State) : (setCtx c s).raw = s.raw := rfl
@[simp] theorem setCtx_sample (c : Ctx) (s : State) : (setCtx c s).sample = s.sample := rfl
@[simp] theorem setCtx_diag (c : Ctx) (s : State) : (setCtx c s).diag = s.diag := rfl
@[simp] theorem setCtx_seq (c : Ctx) (s : State) : (setCtx c s).seq = { s.seq with ctx := c } := rfl
@[simp] theorem setCtx_env (c : Ctx) (s : State) : (setCtx c s).env = s.env := rfl
@[simp] theorem setCtx_bus (c : Ctx) (s : State) : (setCtx c s).bus = s.bus := rfl
@[simp] theorem setCtx_reads (c : Ctx) (s : State) : (setCtx c s).reads = s.reads := rfl
@[simp] theorem setCtx_events (c : Ctx) (s : State) : (setCtx c s).events = s.events := rfl

/-! ### `noteRecValid` -/

@[simp] theorem noteRecValid_params (s : State) : (noteRecValid s).params = s.params := rfl
@[simp] theorem noteRecValid_rst (s : State) : (noteRecValid s).rst = s.rst := rfl
@[simp] theorem noteRecValid_clk (s : State) : (noteRecValid s).clk = s.clk := rfl
@[simp] theorem noteRecValid_shreg (s : State) : (noteRecValid s).shreg = s.shreg := rfl
@[simp] theorem noteRecValid_cmdOp (s : State) : (noteRecValid s).cmdOp = s.cmdOp := rfl
@[simp] theorem noteRecValid_cmdArg (s : State) : (noteRecValid s).cmdArg = s.cmdArg := rfl
@[simp] theorem noteRecValid_status (s : State) : (noteRecValid s).status = s.status := rfl
@[simp] theorem noteRecValid_config (s : State) : (noteRecValid s).config = s.config := rfl
@[simp] theorem noteRecValid_raw (s : State) : (noteRecValid s).raw = s.raw := rfl
@[simp] theorem noteRecValid_sample (s : State) : (noteRecValid s).sample = s.sample := rfl
@[simp] theorem noteRecValid_diag (s : State) : (noteRecValid s).diag = { s.diag with recValid := BitVec.ofNat 4 s.seq.v } := rfl
@[simp] theorem noteRecValid_seq (s : State) : (noteRecValid s).seq = s.seq := rfl
@[simp] theorem noteRecValid_env (s : State) : (noteRecValid s).env = s.env := rfl
@[simp] theorem noteRecValid_bus (s : State) : (noteRecValid s).bus = s.bus := rfl
@[simp] theorem noteRecValid_reads (s : State) : (noteRecValid s).reads = s.reads := rfl
@[simp] theorem noteRecValid_events (s : State) : (noteRecValid s).events = s.events := rfl

/-! ### `pollDone` -/

@[simp] theorem pollDone_params (s : State) : (pollDone s).params = s.params := by simp [pollDone]
@[simp] theorem pollDone_rst (s : State) : (pollDone s).rst = s.rst := by simp [pollDone]
@[simp] theorem pollDone_clk (s : State) : (pollDone s).clk = s.clk := by simp [pollDone]
@[simp] theorem pollDone_shreg (s : State) : (pollDone s).shreg = s.shreg := by simp [pollDone]
@[simp] theorem pollDone_cmdOp (s : State) : (pollDone s).cmdOp = s.cmdOp := by simp [pollDone]
@[simp] theorem pollDone_cmdArg (s : State) : (pollDone s).cmdArg = s.cmdArg := by simp [pollDone]
@[simp] theorem pollDone_status (s : State) : (pollDone s).status = s.status := by simp [pollDone]
@[simp] theorem pollDone_config (s : State) : (pollDone s).config = s.config := by simp [pollDone]
@[simp] theorem pollDone_raw (s : State) : (pollDone s).raw = s.raw := by simp [pollDone]
@[simp] theorem pollDone_sample (s : State) : (pollDone s).sample = s.sample := by simp [pollDone]
@[simp] theorem pollDone_env (s : State) : (pollDone s).env = s.env := by simp [pollDone]
@[simp] theorem pollDone_bus (s : State) : (pollDone s).bus = s.bus := by simp [pollDone]
@[simp] theorem pollDone_reads (s : State) : (pollDone s).reads = s.reads := by simp [pollDone]
@[simp] theorem pollDone_events (s : State) : (pollDone s).events = s.events := by simp [pollDone]

/-! ### `bitDone` -/

@[simp] theorem bitDone_params (b : Level) (s : State) : (bitDone b s).params = s.params := by simp [bitDone]
@[simp] theorem bitDone_rst (b : Level) (s : State) : (bitDone b s).rst = s.rst := by simp [bitDone]
@[simp] theorem bitDone_clk (b : Level) (s : State) : (bitDone b s).clk = s.clk := by simp [bitDone]
@[simp] theorem bitDone_shreg (b : Level) (s : State) : (bitDone b s).shreg = shiftIn s.shreg b := by simp [bitDone]
@[simp] theorem bitDone_cmdOp (b : Level) (s : State) : (bitDone b s).cmdOp = s.cmdOp := by simp [bitDone]
@[simp] theorem bitDone_cmdArg (b : Level) (s : State) : (bitDone b s).cmdArg = s.cmdArg := by simp [bitDone]
@[simp] theorem bitDone_status (b : Level) (s : State) : (bitDone b s).status = s.status := by simp [bitDone]
@[simp] theorem bitDone_config (b : Level) (s : State) : (bitDone b s).config = s.config := by simp [bitDone]
@[simp] theorem bitDone_raw (b : Level) (s : State) : (bitDone b s).raw = s.raw := by simp [bitDone]
@[simp] theorem bitDone_sample (b : Level) (s : State) : (bitDone b s).sample = s.sample := by simp [bitDone]
@[simp] theorem bitDone_env (b : Level) (s : State) : (bitDone b s).env = s.env := by simp [bitDone]
@[simp] theorem bitDone_bus (b : Level) (s : State) : (bitDone b s).bus = s.bus := by simp [bitDone]
@[simp] theorem bitDone_reads (b : Level) (s : State) : (bitDone b s).reads = s.reads := by simp [bitDone]
@[simp] theorem bitDone_events (b : Level) (s : State) : (bitDone b s).events = s.events := by simp [bitDone]

/-! ### `trailDone` -/

@[simp] theorem trailDone_params (s : State) : (trailDone s).params = s.params := by simp [trailDone]
@[simp] theorem trailDone_rst (s : State) : (trailDone s).rst = s.rst := by simp [trailDone]
@[simp] theorem trailDone_clk (s : State) : (trailDone s).clk = s.clk := by simp [trailDone]
@[simp] theorem trailDone_shreg (s : State) : (trailDone s).shreg = s.shreg := by simp [trailDone]
@[simp] theorem trailDone_cmdOp (s : State) : (trailDone s).cmdOp = s.cmdOp := by simp [trailDone]
@[simp] theorem trailDone_cmdArg (s : State) : (trailDone s).cmdArg = s.cmdArg := by simp [trailDone]
@[simp] theorem trailDone_status (s : State) : (trailDone s).status = s.status := by simp [trailDone]
@[simp] theorem trailDone_config (s : State) : (trailDone s).config = s.config := by simp [trailDone]
@[simp] theorem trailDone_raw (s : State) : (trailDone s).raw = s.raw := by simp [trailDone]
@[simp] theorem trailDone_sample (s : State) : (trailDone s).sample = s.sample := by simp [trailDone]
@[simp] theorem trailDone_env (s : State) : (trailDone s).env = s.env := by simp [trailDone]
@[simp] theorem trailDone_bus (s : State) : (trailDone s).bus = s.bus := by simp [trailDone]
@[simp] theorem trailDone_reads (s : State) : (trailDone s).reads = s.reads := by simp [trailDone]
@[simp] theorem trailDone_events (s : State) : (trailDone s).events = s.events := by simp [trailDone]

/-! ### `beginData` -/

@[simp] theorem beginData_params (s : State) : (beginData s).params = s.params := by simp [beginData]
@[simp] theorem beginData_rst (s : State) : (beginData s).rst = s.rst := by simp [beginData]
@[simp] theorem beginData_clk (s : State) : (beginData s).clk = s.clk := by simp [beginData]
@[simp] theorem beginData_shreg (s : State) : (beginData s).shreg = 0#24 := by simp [beginData]
@[simp] theorem beginData_cmdOp (s : State) : (beginData s).cmdOp = s.cmdOp := by simp [beginData]
@[simp] theorem beginData_cmdArg (s : State) : (beginData s).cmdArg = s.cmdArg := by simp [beginData]
@[simp] theorem beginData_status (s : State) : (beginData s).status = s.status := by simp [beginData]
@[simp] theorem beginData_config (s : State) : (beginData s).config = s.config := by simp [beginData]
@[simp] theorem beginData_raw (s : State) : (beginData s).raw = s.raw := by simp [beginData]
@[simp] theorem beginData_sample (s : State) : (beginData s).sample = s.sample := by simp [beginData]
@[simp] theorem beginData_diag (s : State) : (beginData s).diag = s.diag := by simp [beginData]
@[simp] theorem beginData_env (s : State) : (beginData s).env = s.env := by simp [beginData]
@[simp] theorem beginData_bus (s : State) : (beginData s).bus = s.bus := by simp [beginData]
@[simp] theorem beginData_reads (s : State) : (beginData s).reads = s.reads := by simp [beginData]
@[simp] theorem beginData_events (s : State) : (beginData s).events = s.events := by simp [beginData]

/-! ### `beginTrail` -/

@[simp] theorem beginTrail_params (latch : Bool) (s : State) : (beginTrail latch s).params = s.params := by simp [beginTrail]
@[simp] theorem beginTrail_rst (latch : Bool) (s : State) : (beginTrail latch s).rst = s.rst := by simp [beginTrail]
@[simp] theorem beginTrail_clk (latch : Bool) (s : State) : (beginTrail latch s).clk = s.clk := by simp [beginTrail]
@[simp] theorem beginTrail_shreg (latch : Bool) (s : State) : (beginTrail latch s).shreg = s.shreg := by simp [beginTrail]
@[simp] theorem beginTrail_cmdOp (latch : Bool) (s : State) : (beginTrail latch s).cmdOp = s.cmdOp := by simp [beginTrail]
@[simp] theorem beginTrail_cmdArg (latch : Bool) (s : State) : (beginTrail latch s).cmdArg = s.cmdArg := by simp [beginTrail]
@[simp] theorem beginTrail_status (latch : Bool) (s : State) : (beginTrail latch s).status = s.status := by simp [beginTrail]
@[simp] theorem beginTrail_config (latch : Bool) (s : State) : (beginTrail latch s).config = s.config := by simp [beginTrail]
@[simp] theorem beginTrail_raw (latch : Bool) (s : State) : (beginTrail latch s).raw = if latch then s.shreg else s.raw := by simp [beginTrail]
@[simp] theorem beginTrail_sample (latch : Bool) (s : State) : (beginTrail latch s).sample = s.sample := by simp [beginTrail]
@[simp] theorem beginTrail_diag (latch : Bool) (s : State) : (beginTrail latch s).diag = s.diag := by simp [beginTrail]
@[simp] theorem beginTrail_env (latch : Bool) (s : State) : (beginTrail latch s).env = s.env := by simp [beginTrail]
@[simp] theorem beginTrail_bus (latch : Bool) (s : State) : (beginTrail latch s).bus = s.bus := by simp [beginTrail]
@[simp] theorem beginTrail_reads (latch : Bool) (s : State) : (beginTrail latch s).reads = s.reads := by simp [beginTrail]
@[simp] theorem beginTrail_events (latch : Bool) (s : State) : (beginTrail latch s).events = s.events := by simp [beginTrail]

/-! ### `beginCycle` -/

@[simp] theorem beginCycle_params (c : Ctx) (s : State) : (beginCycle c s).params = s.params := by cases c <;> rfl
@[simp] theorem beginCycle_rst (c : Ctx) (s : State) : (beginCycle c s).rst = s.rst := by cases c <;> rfl
@[simp] theorem beginCycle_clk (c : Ctx) (s : State) : (beginCycle c s).clk = s.clk := by cases c <;> rfl
@[simp] theorem beginCycle_shreg (c : Ctx) (s : State) : (beginCycle c s).shreg = s.shreg := by cases c <;> rfl
@[simp] theorem beginCycle_cmdOp (c : Ctx) (s : State) : (beginCycle c s).cmdOp = s.cmdOp := by cases c <;> rfl
@[simp] theorem beginCycle_cmdArg (c : Ctx) (s : State) : (beginCycle c s).cmdArg = s.cmdArg := by cases c <;> rfl
@[simp] theorem beginCycle_status (c : Ctx) (s : State) : (beginCycle c s).status = s.status := by cases c <;> rfl
@[simp] theorem beginCycle_config (c : Ctx) (s : State) : (beginCycle c s).config = s.config := by cases c <;> rfl
@[simp] theorem beginCycle_raw (c : Ctx) (s : State) : (beginCycle c s).raw = s.raw := by cases c <;> rfl
@[simp] theorem beginCycle_sample (c : Ctx) (s : State) : (beginCycle c s).sample = s.sample := by cases c <;> rfl
@[simp] theorem beginCycle_env (c : Ctx) (s : State) : (beginCycle c s).env = s.env := by cases c <;> rfl
@[simp] theorem beginCycle_bus (c : Ctx) (s : State) : (beginCycle c s).bus = s.bus := by cases c <;> rfl
@[simp] theorem beginCycle_reads (c : Ctx) (s : State) : (beginCycle c s).reads = s.reads := by cases c <;> rfl
@[simp] theorem beginCycle_events (c : Ctx) (s : State) : (beginCycle c s).events = s.events := by cases c <;> rfl

/-! ### `latchSample` -/

@[simp] theorem latchSample_params (latch : Bool) (s : State) : (latchSample latch s).params = s.params := by unfold latchSample; split <;> rfl
@[simp] theorem latchSample_rst (latch : Bool) (s : State) : (latchSample latch s).rst = s.rst := by unfold latchSample; split <;> rfl
@[simp] theorem latchSample_clk (latch : Bool) (s : State) : (latchSample latch s).clk = s.clk := by unfold latchSample; split <;> rfl
@[simp] theorem latchSample_shreg (latch : Bool) (s : State) : (latchSample latch s).shreg = s.shreg := by unfold latchSample; split <;> rfl
@[simp] theorem latchSample_cmdOp (latch : Bool) (s : State) : (latchSample latch s).cmdOp = s.cmdOp := by unfold latchSample; split <;> rfl
@[simp] theorem latchSample_cmdArg (latch : Bool) (s : State) : (latchSample latch s).cmdArg = s.cmdArg := by unfold latchSample; split <;> rfl
@[simp] theorem latchSample_status (latch : Bool) (s : State) : (latchSample latch s).status = s.status := by unfold latchSample; split <;> rfl
@[simp] theorem latchSample_raw (latch : Bool) (s : State) : (latchSample latch s).raw = s.raw := by unfold latchSample; split <;> rfl
@[simp] theorem latchSample_diag (latch : Bool) (s : State) : (latchSample latch s).diag = s.diag := by unfold latchSample; split <;> rfl
@[simp] theorem latchSample_seq (latch : Bool) (s : State) : (latchSample latch s).seq = s.seq := by unfold latchSample; split <;> rfl
@[simp] theorem latchSample_env (latch : Bool) (s : State) : (latchSample latch s).env = s.env := by unfold latchSample; split <;> rfl
@[simp] theorem latchSample_bus (latch : Bool) (s : State) : (latchSample latch s).bus = s.bus := by unfold latchSample; split <;> rfl
@[simp] theorem latchSample_reads (latch : Bool) (s : State) : (latchSample latch s).reads = s.reads := by unfold latchSample; split <;> rfl
@[simp] theorem latchSample_events (latch : Bool) (s : State) : (latchSample latch s).events = s.events := by unfold latchSample; split <;> rfl

/-! ### `subDone` -/

@[simp] theorem subDone_params (c : Code) (s : State) : (subDone c s).params = s.params := rfl
@[simp] theorem subDone_rst (c : Code) (s : State) : (subDone c s).rst = s.rst := rfl
@[simp] theorem subDone_clk (c : Code) (s : State) : (subDone c s).clk = s.clk := rfl
@[simp] theorem subDone_shreg (c : Code) (s : State) : (subDone c s).shreg = s.shreg := rfl
@[simp] theorem subDone_cmdOp (c : Code) (s : State) : (subDone c s).cmdOp = s.cmdOp := rfl
@[simp] theorem subDone_cmdArg (c : Code) (s : State) : (subDone c s).cmdArg = s.cmdArg := rfl
@[simp] theorem subDone_status (c : Code) (s : State) : (subDone c s).status = s.status := rfl
@[simp] theorem subDone_config (c : Code) (s : State) : (subDone c s).config = s.config := rfl
@[simp] theorem subDone_raw (c : Code) (s : State) : (subDone c s).raw = s.raw := rfl
@[simp] theorem subDone_sample (c : Code) (s : State) : (subDone c s).sample = s.sample := rfl
@[simp] theorem subDone_diag (c : Code) (s : State) : (subDone c s).diag = s.diag := rfl
@[simp] theorem subDone_env (c : Code) (s : State) : (subDone c s).env = s.env := rfl
@[simp] theorem subDone_bus (c : Code) (s : State) : (subDone c s).bus = s.bus := rfl
@[simp] theorem subDone_reads (c : Code) (s : State) : (subDone c s).reads = s.reads := rfl
@[simp] theorem subDone_events (c : Code) (s : State) : (subDone c s).events = s.events := rfl

/-! ### `endRecovery` -/

@[simp] theorem endRecovery_params (s : State) : (endRecovery s).params = s.params := rfl
@[simp] theorem endRecovery_rst (s : State) : (endRecovery s).rst = s.rst := rfl
@[simp] theorem endRecovery_clk (s : State) : (endRecovery s).clk = s.clk := rfl
@[simp] theorem endRecovery_shreg (s : State) : (endRecovery s).shreg = s.shreg := rfl
@[simp] theorem endRecovery_cmdOp (s : State) : (endRecovery s).cmdOp = s.cmdOp := rfl
@[simp] theorem endRecovery_cmdArg (s : State) : (endRecovery s).cmdArg = s.cmdArg := rfl
@[simp] theorem endRecovery_status (s : State) : (endRecovery s).status = s.status := rfl
@[simp] theorem endRecovery_config (s : State) : (endRecovery s).config = s.config := rfl
@[simp] theorem endRecovery_raw (s : State) : (endRecovery s).raw = s.raw := rfl
@[simp] theorem endRecovery_sample (s : State) : (endRecovery s).sample = s.sample := rfl
@[simp] theorem endRecovery_diag (s : State) : (endRecovery s).diag = { s.diag with recValid := BitVec.ofNat 4 s.seq.v } := rfl
@[simp] theorem endRecovery_seq (s : State) : (endRecovery s).seq = { s.seq with ctx := .top } := rfl
@[simp] theorem endRecovery_env (s : State) : (endRecovery s).env = s.env := rfl
@[simp] theorem endRecovery_bus (s : State) : (endRecovery s).bus = s.bus := rfl
@[simp] theorem endRecovery_reads (s : State) : (endRecovery s).reads = s.reads := rfl
@[simp] theorem endRecovery_events (s : State) : (endRecovery s).events = s.events := rfl

/-! ### What the counters and the context see -/

@[simp] theorem setCounters_ctx (c : Counters) (s : State) : (setCounters c s).seq.ctx = s.seq.ctx := by
  unfold setCounters; split <;> rfl

@[simp] theorem setCounters_point (c : Counters) (s : State) :
    (setCounters c s).seq.point = s.seq.point := by
  unfold setCounters; split <;> rfl

@[simp] theorem setCounters_k (c : Counters) (s : State) : (setCounters c s).seq.k = s.seq.k := by
  unfold setCounters; split <;> rfl

@[simp] theorem setCounters_v (c : Counters) (s : State) : (setCounters c s).seq.v = s.seq.v := by
  unfold setCounters; split <;> rfl

@[simp] theorem setCounters_n (c : Counters) (s : State) : (setCounters c s).seq.n = s.seq.n := by
  unfold setCounters; split <;> rfl

@[simp] theorem setCounters_cfg0 (c : Counters) (s : State) :
    (setCounters c s).seq.cfg0 = s.seq.cfg0 := by
  unfold setCounters; split <;> rfl

@[simp] theorem counters_setCounters (c : Counters) (s : State) : counters (setCounters c s) = c := by
  unfold counters setCounters; cases h : s.seq.ctx <;> simp [h]

theorem counters_of_seq {s t : State} (h : t.seq = s.seq) : counters t = counters s := by
  unfold counters; rw [h]

@[simp] theorem counters_noteDiag (d : Diag) (s : State) : counters (noteDiag d s) = counters s :=
  counters_of_seq (noteDiag_seq d s)

@[simp] theorem counters_pollDone (s : State) :
    counters (pollDone s) = { counters s with tries := (counters s).tries + 1 } := by
  simp [pollDone]

@[simp] theorem counters_bitDone (b : Level) (s : State) :
    counters (bitDone b s) = { counters s with i := (counters s).i + 1 } := by
  simp [bitDone]

@[simp] theorem counters_trailDone (s : State) :
    counters (trailDone s) = { counters s with j := (counters s).j + 1 } := by
  simp [trailDone]

@[simp] theorem counters_beginData (s : State) :
    counters (beginData s) = { counters s with i := 0 } := by
  simp [beginData]

@[simp] theorem counters_beginTrail (latch : Bool) (s : State) :
    counters (beginTrail latch s) = { counters s with j := 0 } := by
  simp [beginTrail]

@[simp] theorem counters_clearTries (s : State) :
    counters (clearTries s) = { counters s with tries := 0 } := by
  simp [clearTries]

@[simp] theorem beginCycle_tries (c : Ctx) (s : State) : (counters (beginCycle c s)).tries = 0 := by
  simp [beginCycle]

@[simp] theorem beginCycle_ctx (c : Ctx) (s : State) : (beginCycle c s).seq.ctx = c := by
  simp [beginCycle, clearTries]

@[simp] theorem counters_readData (s : State) : counters (readData s).2 = counters s := rfl
@[simp] theorem counters_now (s : State) : counters (now s).2 = counters s := rfl
@[simp] theorem counters_pulse (s : State) : counters (pulse s).2 = counters s := rfl
@[simp] theorem counters_sleep (d : Nat) (s : State) : counters (sleep d s) = counters s := rfl
@[simp] theorem counters_setClk (v : Level) (s : State) : counters (setClk v s) = counters s := rfl
@[simp] theorem counters_disarm (s : State) : counters (disarm s) = counters s := rfl
@[simp] theorem counters_armTrail (s : State) : counters (armTrail s) = counters s := rfl
@[simp] theorem counters_goTo (p : Point) (s : State) : counters (goTo p s) = counters s := rfl

/-- A cycle in context SUB writes no DIAG (40_read_cycle.md R124). -/
theorem noteDiag_sub {s : State} (d : Diag) (h : s.seq.ctx = .sub) : noteDiag d s = s := by
  unfold noteDiag; rw [h]

theorem noteDiag_top {s : State} (d : Diag) (h : s.seq.ctx = .top) : noteDiag d s = { s with diag := d } := by
  unfold noteDiag; rw [h]

theorem setCounters_sub {s : State} (c : Counters) (h : s.seq.ctx = .sub) :
    setCounters c s = { s with seq.sub := c } := by
  unfold setCounters; rw [h]

theorem setCounters_top {s : State} (c : Counters) (h : s.seq.ctx = .top) :
    setCounters c s = { s with seq.top := c } := by
  unfold setCounters; rw [h]

end Sys2Proof.Machine
end

