-- ==== Sys2Proof/Laws/Closure.lean ====
section
/-!
SUPPORT. What a cycle, a command, one step of the engine and one step of the machine can do, said once:
each is a chain of the named updates.  A relation between states that is reflexive and transitive and
holds across each named update holds across the whole (and so an invariant is proved update by update).
-/

namespace Sys2Proof.Machine

/-! ### Codes a read cycle can end with (60_exceptions.md R214) -/

theorem frameCode_isCycleCode (s : State) : (frameCode s).isCycleCode = true := by
  unfold frameCode; split <;> rfl

theorem recoveryCode_isCycleCode (v : Nat) : (recoveryCode v).isCycleCode = true := by
  unfold recoveryCode; split <;> rfl

theorem cycleBody_code {latch : Bool} {s : State} {c : Code}
    (h : (cycleBody latch s).1 = .code c) : c.isCycleCode = true := by
  simp only [cycleBody] at h
  split at h
  · cases h; rfl
  · split at h
    · cases h; rfl
    · split at h
      · cases h
      · cases h; exact frameCode_isCycleCode _

theorem subCycle_code (s : State) : (subCycle s).1.isCycleCode = true := by
  unfold subCycle
  cases h : (cycleBody false (beginCycle .sub s)).1 with
  | code c => simpa [h] using cycleBody_code h
  | trailTrip => simp [h]; rfl

theorem topCycle_code (latch : Bool) (s : State) : (topCycle latch s).1.isCycleCode = true := by
  unfold topCycle
  cases h : (cycleBody latch (beginCycle .top s)).1 with
  | code c => simpa [h] using cycleBody_code h
  | trailTrip => simpa [h, recoverTop] using recoveryCode_isCycleCode _

/-! ### The chains -/

/-- `R` holds across every update inside the four phases of a cycle. -/
structure PhasesClosed (latch : Bool) (R : State → State → Prop) : Prop where
  refl : ∀ s, R s s
  trans : ∀ {s t u}, R s t → R t u → R s u
  readData : ∀ s, R s (readData s).2
  now : ∀ s, R s (now s).2
  setClk : ∀ v s, R s (setClk v s)
  sleep : ∀ d s, R s (sleep d s)
  pollDone : ∀ s, R s (pollDone s)
  beginData : ∀ s, R s (beginData s)
  bitDone : ∀ b s, R s (bitDone b s)
  beginTrail : ∀ s, R s (beginTrail latch s)
  trailDone : ∀ s, R s (trailDone s)
  disarm : ∀ s, R s (disarm s)
  armTrail : ∀ s, R s (armTrail s)
  latchSample : ∀ s, R s (latchSample latch s)

/-- ... and across the loops of sub-cycles. -/
structure SubsClosed (R : State → State → Prop) : Prop extends PhasesClosed false R where
  beginSubs : ∀ s, R s (beginSubs s)
  beginSub : ∀ s, R s (beginCycle .sub s)
  subDone : ∀ c s, R s (subDone c s)

/-- ... and across a top-level cycle, whether it latches or not. -/
structure TopClosed (R : State → State → Prop) : Prop extends SubsClosed R where
  beginTop : ∀ s, R s (beginCycle .top s)
  endRecovery : ∀ s, R s (endRecovery s)
  beginTrailTop : ∀ latch s, R s (Machine.beginTrail latch s)
  latchSampleTop : ∀ latch s, R s (Machine.latchSample latch s)

/-- ... and across every command: the engine's whole vocabulary. -/
structure EngineClosed (R : State → State → Prop) : Prop extends TopClosed R where
  goTo : ∀ p s, R s (goTo p s)
  accept : ∀ op arg s, R s (accept op arg s)
  retire : ∀ c s, R s (retire c s)
  clearDiag : ∀ s, R s (clearDiag s)
  noteRecValid : ∀ s, R s (noteRecValid s)
  setWarn : ∀ s, R s (setWarn s)
  setFatal : ∀ f s, R s (setFatal f s)
  setSettleCode : ∀ c s, c.isCycleCode = true → R s (setSettleCode c s)
  setChannel : ∀ c s, R s (setChannel c s)
  setGainA : ∀ g s, gainLegal g = true → R s (setGainA g s)

/-- ... and across the host's and the platform's operations: the machine's whole vocabulary. -/
structure MachineClosed (R : State → State → Prop) : Prop extends EngineClosed R where
  setBus : ∀ b s, R s { s with bus := b }
  readRegister : ∀ off s, R s (readRegister off s)
  blockReset : ∀ s, R s (blockReset true s)
  releaseRst : ∀ s, R s { s with rst := false }

variable {R : State → State → Prop} {latch : Bool}

theorem PhasesClosed.pulse (h : PhasesClosed latch R) (s : State) : R s (pulse s).2 :=
  h.trans (h.trans (h.trans (h.now s) (h.setClk _ _)) (h.setClk _ _)) (h.now _)

theorem PhasesClosed.pollLoop (h : PhasesClosed latch R) :
    ∀ m s, R s (pollLoop m s).2
  | 0, s => h.refl s
  | m + 1, s => by
    have h1 := h.trans (h.readData s) (h.pollDone _)
    simp only [Machine.pollLoop]
    split
    · exact h1
    · exact h.trans (h.trans h1 (h.sleep _ _)) (h.pollLoop m _)

theorem PhasesClosed.dataLoop (h : PhasesClosed latch R) :
    ∀ m s, R s (dataLoop m s).2
  | 0, s => h.refl s
  | m + 1, s => by
    simp only [Machine.dataLoop]
    split
    · exact h.trans (h.pulse s) (h.disarm _)
    · exact h.trans (h.trans (h.trans (h.pulse s) (h.readData _)) (h.bitDone _ _)) (h.dataLoop m _)

theorem PhasesClosed.trailLoop (h : PhasesClosed latch R) :
    ∀ m s, R s (trailLoop m s).2
  | 0, s => h.refl s
  | m + 1, s => by
    simp only [Machine.trailLoop]
    split
    · exact h.trans (h.pulse s) (h.disarm _)
    · exact h.trans (h.trans (h.pulse s) (h.trailDone _)) (h.trailLoop m _)

/-- What the phases of a cycle can do (40_read_cycle.md R120). -/
theorem PhasesClosed.cycleBody (h : PhasesClosed latch R) (s : State) : R s (cycleBody latch s).2 := by
  have h1 := h.pollLoop s.params.readyMaxTries s
  have h2 := h.trans (h.trans h1 (h.beginData _)) (h.dataLoop frameBits _)
  simp only [Machine.cycleBody]
  split
  · exact h1
  · split
    · exact h2
    · have h3 (m : Nat) := h.trans (h.trans h2 (h.beginTrail _)) (h.trailLoop m _)
      split
      · exact h3 _
      · exact h.trans (h.trans (h3 _) (h.armTrail _)) (h.latchSample _)

/-- What a sub-cycle can do (40_read_cycle.md R119). -/
theorem SubsClosed.subCycle (h : SubsClosed R) (s : State) : R s (subCycle s).2 := by
  have := h.trans (h.beginSub s) (h.cycleBody _)
  simp only [Machine.subCycle]
  split <;> exact this

theorem SubsClosed.subLoop (h : SubsClosed R) : ∀ m s, R s (subLoop m s)
  | 0, s => h.refl s
  | m + 1, s => h.trans (h.trans (h.subCycle s) (h.subDone _ _)) (h.subLoop m _)

theorem TopClosed.phases (h : TopClosed R) (latch : Bool) : PhasesClosed latch R where
  refl := h.refl
  trans := h.trans
  readData := h.readData
  now := h.now
  setClk := h.setClk
  sleep := h.sleep
  pollDone := h.pollDone
  beginData := h.beginData
  bitDone := h.bitDone
  beginTrail := h.beginTrailTop latch
  trailDone := h.trailDone
  disarm := h.disarm
  armTrail := h.armTrail
  latchSample := h.latchSampleTop latch

/-- What a top-level cycle, its recovery included, can do (40_read_cycle.md R120). -/
theorem TopClosed.topCycle (h : TopClosed R) (latch : Bool) (s : State) : R s (topCycle latch s).2 := by
  have h1 := h.trans (h.beginTop s) ((h.phases latch).cycleBody _)
  simp only [Machine.topCycle]
  split
  · exact h1
  · exact h.trans (h.trans (h.trans h1 (h.beginSubs _)) (h.subLoop _ _)) (h.endRecovery _)

theorem EngineClosed.finish (h : EngineClosed R) (c : Code) (s : State) : R s (finish c s) :=
  h.trans (h.retire c s) (h.goTo _ _)

theorem EngineClosed.settle (h : EngineClosed R) (s : State) : R s (settle s) :=
  h.trans (h.trans (h.topCycle false s) (h.setSettleCode _ _ (topCycle_code _ _))) (h.sleep _ _)

theorem EngineClosed.endReset (h : EngineClosed R) (s : State) : R s (endReset s) :=
  h.trans (h.trans (h.noteRecValid s) (h.setFatal _ _)) (h.finish _ _)

theorem EngineClosed.enterPowerDown (h : EngineClosed R) (s : State) : R s (enterPowerDown s) :=
  h.trans (h.trans (h.trans (h.setClk _ _) (h.setClk _ _)) (h.sleep _ _)) (h.disarm _)

theorem EngineClosed.leavePowerDown (h : EngineClosed R) (s : State) : R s (leavePowerDown s) :=
  h.trans (h.setClk _ _) (h.sleep _ _)

theorem EngineClosed.readOneResult (h : EngineClosed R) (s : State) : R s (readOneResult s) :=
  h.trans (h.trans (h.accept _ _ s) (h.topCycle true _)) (h.finish _ _)

theorem EngineClosed.setChannelResult (h : EngineClosed R) (arg : Byte) (s : State) :
    R s (setChannelResult arg s) := by
  have ha := h.accept 0x2#4 arg s
  simp only [Machine.setChannelResult]
  split
  · exact h.trans ha (h.retire _ _)
  · exact h.trans (h.trans (h.trans ha (h.setChannel _ _)) (h.settle _)) (h.finish _ _)

theorem EngineClosed.setGainResult (h : EngineClosed R) (arg : Byte) (s : State) :
    R s (setGainResult arg s) := by
  have ha := h.accept 0x3#4 arg s
  simp only [Machine.setGainResult]
  split
  · exact h.trans (h.trans ha (h.setWarn _)) (h.retire _ _)
  · split
    · next hg => exact h.trans (h.trans (h.trans ha (h.setGainA _ _ hg)) (h.settle _)) (h.finish _ _)
    · exact h.trans ha (h.retire _ _)

theorem EngineClosed.resetResult (h : EngineClosed R) (s : State) : R s (resetResult s) :=
  h.trans (h.trans (h.trans (h.trans (h.trans (h.trans (h.accept _ _ s) (h.clearDiag _))
    (h.enterPowerDown _)) (h.leavePowerDown _)) (h.beginSubs _)) (h.subLoop _ _)) (h.endReset _)

/-- Every command answers a next state, and `R` holds across it. -/
theorem EngineClosed.exec (h : EngineClosed R) (i : Instr) (s : State) :
    ∃ t, exec i s = .next t ∧ R s t := by
  cases i with
  | readOne => exact ⟨_, rfl, h.readOneResult s⟩
  | setChannel arg => exact ⟨_, rfl, h.setChannelResult arg s⟩
  | setGain arg => exact ⟨_, rfl, h.setGainResult arg s⟩
  | powerDown =>
    exact ⟨_, rfl, h.trans (h.trans (h.accept _ _ s) (h.enterPowerDown _)) (h.finish _ _)⟩
  | powerUp =>
    exact ⟨_, rfl, h.trans (h.trans (h.accept _ _ s) (h.leavePowerDown _)) (h.finish _ _)⟩
  | reset => exact ⟨_, rfl, h.resetResult s⟩

theorem EngineClosed.startCycle (h : EngineClosed R) (ctx : Ctx) (s : State) :
    R s (startCycle ctx s) := by
  cases ctx with
  | top => exact h.trans (h.beginTop s) (h.goTo _ _)
  | sub => exact h.trans (h.beginSub s) (h.goTo _ _)

theorem EngineClosed.start (h : EngineClosed R) (i : Instr) (s : State) : R s (start i s) := by
  have ha := h.accept i.op i.arg s
  unfold Machine.start
  cases i with
  | readOne => exact h.trans ha (h.startCycle _ _)
  | setChannel arg =>
    dsimp only
    split
    · exact h.trans ha (h.retire _ _)
    · exact h.trans (h.trans ha (h.setChannel _ _)) (h.startCycle _ _)
  | setGain arg =>
    dsimp only
    split
    · exact h.trans (h.trans ha (h.setWarn _)) (h.retire _ _)
    · split
      · next hg => exact h.trans (h.trans ha (h.setGainA _ _ hg)) (h.startCycle _ _)
      · exact h.trans ha (h.retire _ _)
  | powerDown => exact h.trans ha (h.goTo _ _)
  | powerUp => exact h.trans ha (h.goTo _ _)
  | reset => exact h.trans (h.trans ha (h.clearDiag _)) (h.goTo _ _)

theorem EngineClosed.cycleEnded (h : EngineClosed R) {c : Code} (hc : c.isCycleCode = true)
    (s : State) : R s (cycleEnded c s) := by
  unfold Machine.cycleEnded
  split
  · split
    · exact h.finish _ _
    · exact h.trans (h.setSettleCode _ _ hc) (h.goTo _ _)
  · exact h.trans (h.subDone _ _) (h.goTo _ _)

theorem EngineClosed.trailTripped (h : EngineClosed R) (s : State) : R s (trailTripped s) := by
  unfold Machine.trailTripped
  split
  · exact h.trans (h.beginSubs _) (h.goTo _ _)
  · exact h.cycleEnded rfl _

/-- What one step of the engine can do. -/
theorem EngineClosed.tick (h : EngineClosed R) (s : State) : R s (tick s) := by
  unfold Machine.tick
  dsimp only
  split
  · split
    · exact h.start _ _
    · exact h.refl _
  · have h1 := h.trans (h.readData s) (h.pollDone _)
    split
    · exact h.trans (h.trans h1 (h.beginData _)) (h.goTo _ _)
    · exact h.trans h1 (h.goTo _ _)
  · split
    · exact h.trans (h.sleep _ _) (h.cycleEnded rfl _)
    · exact h.trans (h.sleep _ _) (h.goTo _ _)
  · exact h.trans (h.now _) (h.goTo _ _)
  · exact h.trans (h.setClk _ _) (h.goTo _ _)
  · exact h.trans (h.setClk _ _) (h.goTo _ _)
  · split
    · exact h.trans (h.trans (h.now _) (h.disarm _)) (h.cycleEnded rfl _)
    · exact h.trans (h.now _) (h.goTo _ _)
  · have h1 := h.trans (h.readData s) (h.bitDone (readData s).1 _)
    split
    · exact h.trans (h.trans h1 (h.beginTrailTop _ _)) (h.goTo _ _)
    · exact h.trans h1 (h.goTo _ _)
  · exact h.trans (h.now _) (h.goTo _ _)
  · exact h.trans (h.setClk _ _) (h.goTo _ _)
  · exact h.trans (h.setClk _ _) (h.goTo _ _)
  · split
    · exact h.trans (h.trans (h.now _) (h.disarm _)) (h.trailTripped _)
    · have h1 := h.trans (h.now s) (h.trailDone _)
      split
      · exact h.trans (h.trans h1 (h.armTrail _)) (h.goTo _ _)
      · exact h.trans h1 (h.goTo _ _)
  · exact h.trans (h.latchSampleTop _ _) (h.cycleEnded (frameCode_isCycleCode _) _)
  · split
    · exact h.startCycle _ _
    · exact h.trans (h.endRecovery _) (h.cycleEnded (recoveryCode_isCycleCode _) _)
  · exact h.trans (h.sleep _ _) (h.finish _ _)
  · exact h.trans (h.setClk _ _) (h.goTo _ _)
  · exact h.trans (h.setClk _ _) (h.goTo _ _)
  · have h1 := h.trans (h.sleep s.params.tPdNs s) (h.disarm _)
    split
    · exact h.trans h1 (h.goTo _ _)
    · exact h.trans h1 (h.finish _ _)
  · exact h.trans (h.setClk _ _) (h.goTo _ _)
  · split
    · exact h.trans (h.trans (h.sleep _ _) (h.beginSubs _)) (h.goTo _ _)
    · exact h.trans (h.sleep _ _) (h.finish _ _)
  · split
    · exact h.startCycle _ _
    · exact h.endReset _

theorem EngineClosed.engineStep (h : EngineClosed R) (s : State) : R s (engineStep s) := by
  unfold Machine.engineStep
  split
  · exact h.refl s
  · exact h.tick s

theorem EngineClosed.engineSteps (h : EngineClosed R) : ∀ m s, R s (engineSteps m s)
  | 0, s => h.refl s
  | m + 1, s => h.trans (h.engineStep s) (h.engineSteps m _)

theorem EngineClosed.illegalCommand (h : EngineClosed R) (w : Word) (s : State) :
    R s (illegalCommand w s) := h.trans (h.accept _ _ s) (h.retire _ _)

theorem EngineClosed.writeRegister (h : EngineClosed R) (off : Nat) (w : Word) (s : State) :
    R s (writeRegister off w s) := by
  unfold Machine.writeRegister writeCmd
  split
  · split
    · exact h.refl s
    · split
      · exact h.illegalCommand w s
      · exact h.start _ s
  · exact h.refl s

/-- What one step of the machine can do: `R` holds across every step that answers a next state. -/
theorem MachineClosed.step (h : MachineClosed R) {s t : State} (hs : step s = .next t) : R s t := by
  unfold Machine.step stepOf at hs
  split at hs
  · split at hs
    · cases hs; exact h.engineStep s
    · next op rest _ =>
      refine h.trans (h.setBus rest s) ?_
      revert hs
      generalize ({ s with bus := rest } : State) = u
      intro hs
      cases op with
      | command w =>
        simp only [hostStep, commandStep] at hs
        split at hs
        · cases hs; exact h.setBus _ u
        · split at hs
          · cases hs; exact h.illegalCommand w u
          · next i _ =>
            obtain ⟨t', ht, hr⟩ := h.exec i u
            rw [ht] at hs; cases hs; exact hr
      | write addr bytes v =>
        simp only [hostStep] at hs
        split at hs
        · cases hs
        · cases hs; exact h.writeRegister _ _ u
      | read addr bytes =>
        simp only [hostStep] at hs
        split at hs
        · cases hs
        · cases hs; exact h.readRegister _ u
      | waitIdle =>
        simp only [hostStep] at hs
        split at hs
        · cases hs; exact h.trans (h.setBus _ _) (h.engineStep _)
        · cases hs; exact h.refl _
      | pause => cases hs; exact h.engineStep u
      | assertRst => cases hs; exact h.blockReset u
      | releaseRst => cases hs; exact h.releaseRst u
  · cases hs

end Sys2Proof.Machine
end

