-- ==== Sys2Proof/Laws/Refinement.lean ====
section
/-!
SUPPORT. The engine's steps follow the phases of the commands' meanings: from the program point where a
phase begins, the engine reaches the point after it, with the registers the phase's function gives.
-/

namespace Sys2Proof.Machine

/-- The engine gets from one state to the other by its own steps. -/
def Reaches (s t : State) : Prop := ∃ m, engineSteps m s = t

theorem Reaches.refl (s : State) : Reaches s s := ⟨0, rfl⟩

theorem engineSteps_add (m n : Nat) (s : State) :
    engineSteps (m + n) s = engineSteps n (engineSteps m s) := by
  induction m generalizing s with
  | zero => simp [engineSteps]
  | succ m ih => rw [Nat.add_right_comm]; exact ih _

theorem Reaches.trans {s t u : State} : Reaches s t → Reaches t u → Reaches s u := by
  rintro ⟨m, rfl⟩ ⟨n, rfl⟩
  exact ⟨m + n, engineSteps_add m n s⟩

theorem Reaches.tick {s : State} (h : s.rst = false) : Reaches s (tick s) :=
  ⟨1, by simp [engineSteps, engineStep, h]⟩

/-! ### The named updates do not depend on the program point -/

theorem pollDone_goTo (p : Point) (s : State) : pollDone (goTo p s) = goTo p (pollDone s) := by
  unfold pollDone counters setCounters noteDiag; cases h : s.seq.ctx <;> simp [goTo, h]

theorem beginData_goTo (p : Point) (s : State) : beginData (goTo p s) = goTo p (beginData s) := by
  unfold beginData counters setCounters; cases h : s.seq.ctx <;> simp [goTo, h, trailOf]

theorem bitDone_goTo (b : Level) (p : Point) (s : State) :
    bitDone b (goTo p s) = goTo p (bitDone b s) := by
  unfold bitDone counters setCounters noteDiag; cases h : s.seq.ctx <;> simp [goTo, h]

theorem beginTrail_goTo (latch : Bool) (p : Point) (s : State) :
    beginTrail latch (goTo p s) = goTo p (beginTrail latch s) := by
  unfold beginTrail counters setCounters; cases h : s.seq.ctx <;> simp [goTo, h]

theorem trailDone_goTo (p : Point) (s : State) : trailDone (goTo p s) = goTo p (trailDone s) := by
  unfold trailDone counters setCounters noteDiag; cases h : s.seq.ctx <;> simp [goTo, h]

theorem latchSample_goTo (latch : Bool) (p : Point) (s : State) :
    latchSample latch (goTo p s) = goTo p (latchSample latch s) := by
  unfold latchSample
  by_cases h : (latch && !isSentinel s.shreg) = true
  · simp [goTo, h]
  · simp [goTo, h]

theorem beginCycle_goTo (c : Ctx) (p : Point) (s : State) :
    beginCycle c (goTo p s) = goTo p (beginCycle c s) := by
  cases c <;> rfl

theorem cycleEnded_goTo (c : Code) (p : Point) (s : State) :
    cycleEnded c (goTo p s) = cycleEnded c s := by
  unfold cycleEnded; rfl

theorem trailTripped_goTo (p : Point) (s : State) : trailTripped (goTo p s) = trailTripped s := by
  unfold trailTripped; rfl

/-! ### What the phases leave alone, as far as the sequencer reads it -/

/-- The fields that decide how the sequencer goes on. -/
def SameRun (s t : State) : Prop :=
  t.rst = s.rst ∧ t.params = s.params ∧ t.cmdOp = s.cmdOp ∧ t.config.channel = s.config.channel ∧
    t.config.gainA = s.config.gainA

theorem sameRun_closed : TopClosed SameRun where
  refl _ := ⟨rfl, rfl, rfl, rfl, rfl⟩
  trans h1 h2 := by
    obtain ⟨a, b, c, d, e⟩ := h1
    obtain ⟨a', b', c', d', e'⟩ := h2
    exact ⟨a'.trans a, b'.trans b, c'.trans c, d'.trans d, e'.trans e⟩
  readData _ := ⟨rfl, rfl, rfl, rfl, rfl⟩
  now _ := ⟨rfl, rfl, rfl, rfl, rfl⟩
  setClk _ _ := ⟨rfl, rfl, rfl, rfl, rfl⟩
  sleep _ _ := ⟨rfl, rfl, rfl, rfl, rfl⟩
  pollDone s := by simp [SameRun, pollDone]
  beginData s := by simp [SameRun, beginData]
  bitDone b s := by simp [SameRun, bitDone]
  beginTrail s := by simp [SameRun, beginTrail]
  trailDone s := by simp [SameRun, trailDone]
  disarm _ := ⟨rfl, rfl, rfl, rfl, rfl⟩
  armTrail _ := ⟨rfl, rfl, rfl, rfl, rfl⟩
  latchSample s := by simp [SameRun, latchSample]
  beginSubs _ := ⟨rfl, rfl, rfl, rfl, rfl⟩
  beginSub s := by simp [SameRun, beginCycle, clearTries]
  subDone _ _ := ⟨rfl, rfl, rfl, rfl, rfl⟩
  beginTop s := by simp [SameRun, beginCycle, clearTries]
  endRecovery s := by simp [SameRun, endRecovery]
  beginTrailTop l s := by simp [SameRun, beginTrail]
  latchSampleTop l s := by unfold SameRun latchSample; split <;> exact ⟨rfl, rfl, rfl, rfl, rfl⟩

/-- The context is kept by the phases of a cycle. -/
theorem sameCtx_closed (latch : Bool) : PhasesClosed latch (fun s t => t.seq.ctx = s.seq.ctx) where
  refl _ := rfl
  trans h1 h2 := h2.trans h1
  readData _ := rfl
  now _ := rfl
  setClk _ _ := rfl
  sleep _ _ := rfl
  pollDone s := by simp [pollDone]
  beginData s := by simp [beginData]
  bitDone b s := by simp [bitDone]
  beginTrail s := by simp [beginTrail]
  trailDone s := by simp [trailDone]
  disarm _ := rfl
  armTrail _ := rfl
  latchSample s := by unfold latchSample; split <;> rfl


/-- The loop counters are kept by the phases of a cycle. -/
theorem sameLoop_closed (latch : Bool) :
    PhasesClosed latch (fun s t => t.seq.k = s.seq.k ∧ t.seq.v = s.seq.v) where
  refl _ := ⟨rfl, rfl⟩
  trans h1 h2 := ⟨h2.1.trans h1.1, h2.2.trans h1.2⟩
  readData _ := ⟨rfl, rfl⟩
  now _ := ⟨rfl, rfl⟩
  setClk _ _ := ⟨rfl, rfl⟩
  sleep _ _ := ⟨rfl, rfl⟩
  pollDone s := by simp [pollDone]
  beginData s := by simp [beginData]
  bitDone b s := by simp [bitDone]
  beginTrail s := by simp [beginTrail]
  trailDone s := by simp [trailDone]
  disarm _ := ⟨rfl, rfl⟩
  armTrail _ := ⟨rfl, rfl⟩
  latchSample s := by unfold latchSample; split <;> exact ⟨rfl, rfl⟩

/-! ### The phases (40_read_cycle.md R113, R114, R116) -/

/-- The readiness wait, with `m` samples left. -/
theorem poll_reaches (m : Nat) (s : State) (hr : s.rst = false)
    (ht : (counters s).tries + (m + 1) = s.params.readyMaxTries) :
    Reaches (goTo .poll s)
      (if (pollLoop (m + 1) s).1 then goTo .dataStart (beginData (pollLoop (m + 1) s).2)
       else cycleEnded .notReady (pollLoop (m + 1) s).2) := by
  induction m generalizing s with
  | zero =>
    refine (Reaches.tick (s := goTo .poll s) hr).trans ?_
    have e : tick (goTo .poll s) =
        if (readData s).1 = 0#1 then goTo .dataStart (beginData (pollDone (goTo .poll (readData s).2)))
        else goTo .pollWait (pollDone (goTo .poll (readData s).2)) := rfl
    rw [e, pollDone_goTo, beginData_goTo]
    by_cases h : (readData s).1 = 0#1
    · simp only [pollLoop, h, if_true]
      exact Reaches.refl _
    · simp only [pollLoop, h, if_false]
      refine (Reaches.tick (by simpa [pollDone] using hr)).trans ?_
      have e2 : ∀ u : State, tick (goTo .pollWait u) =
          if (counters u).tries = u.params.readyMaxTries then
            cycleEnded .notReady (goTo .pollWait (sleep u.params.pollIntervalNs u))
          else goTo .poll (sleep u.params.pollIntervalNs u) := fun _ => rfl
      have : goTo .pollWait (goTo .poll (pollDone (readData s).2)) = goTo .pollWait (pollDone (readData s).2) :=
        rfl
      rw [this, e2, if_pos (by simpa [pollDone] using ht), cycleEnded_goTo]
      exact Reaches.refl _
  | succ m ih =>
    refine (Reaches.tick (s := goTo .poll s) hr).trans ?_
    have e : tick (goTo .poll s) =
        if (readData s).1 = 0#1 then goTo .dataStart (beginData (pollDone (goTo .poll (readData s).2)))
        else goTo .pollWait (pollDone (goTo .poll (readData s).2)) := rfl
    rw [e, pollDone_goTo, beginData_goTo, pollLoop]
    by_cases h : (readData s).1 = 0#1
    · simp only [h, if_true]
      exact Reaches.refl _
    · simp only [h, if_false]
      refine (Reaches.tick (by simpa [pollDone] using hr)).trans ?_
      have e2 : ∀ u : State, tick (goTo .pollWait u) =
          if (counters u).tries = u.params.readyMaxTries then
            cycleEnded .notReady (goTo .pollWait (sleep u.params.pollIntervalNs u))
          else goTo .poll (sleep u.params.pollIntervalNs u) := fun _ => rfl
      have : goTo .pollWait (goTo .poll (pollDone (readData s).2)) = goTo .pollWait (pollDone (readData s).2) :=
        rfl
      rw [this, e2, if_neg (by simp [pollDone]; omega)]
      exact ih _ (by simpa [pollDone] using hr) (by simp [pollDone]; omega)

/-- The pulse of a data bit and the guard after it. -/
theorem dataPulse_reaches (s : State) (hr : s.rst = false) :
    Reaches (goTo .dataStart s)
      (if guardTrips (pulse s).2.params (pulse s).1 then
         cycleEnded .timingViolation (disarm (pulse s).2)
       else goTo .dataSample (pulse s).2) := by
  refine (Reaches.tick (s := goTo .dataStart s) hr).trans ?_
  refine (Reaches.tick (s := goTo (.dataRise (now s).1) (now s).2) hr).trans ?_
  refine (Reaches.tick (s := goTo (.dataFall (now s).1) (setClk 1#1 (now s).2)) hr).trans ?_
  refine (Reaches.tick
    (s := goTo (.dataStop (now s).1) (setClk 0#1 (setClk 1#1 (now s).2))) hr).trans ?_
  have e : tick (goTo (.dataStop (now s).1) (setClk 0#1 (setClk 1#1 (now s).2))) =
      if guardTrips (pulse s).2.params (pulse s).1 then
        cycleEnded .timingViolation (goTo (.dataStop (now s).1) (disarm (pulse s).2))
      else goTo .dataSample (pulse s).2 := rfl
  rw [e, cycleEnded_goTo]
  exact Reaches.refl _

@[simp] theorem latching_goTo (p : Point) (s : State) : latching (goTo p s) = latching s := rfl

@[simp] theorem latching_bitDone (b : Level) (s : State) : latching (bitDone b s) = latching s := by
  simp [latching, bitDone]

/-- The sample of a data bit. -/
theorem dataSample_tick (s : State) :
    tick (goTo .dataSample s) =
      if (counters s).i + 1 = frameBits then
        goTo .trailStart (beginTrail (latching s) (bitDone (readData s).1 (readData s).2))
      else goTo .dataStart (bitDone (readData s).1 (readData s).2) := by
  have e : tick (goTo .dataSample s) =
      if (counters (bitDone (readData s).1 (goTo .dataSample (readData s).2))).i = frameBits then
        goTo .trailStart (beginTrail (latching (bitDone (readData s).1 (goTo .dataSample (readData s).2)))
          (bitDone (readData s).1 (goTo .dataSample (readData s).2)))
      else goTo .dataStart (bitDone (readData s).1 (goTo .dataSample (readData s).2)) := rfl
  rw [e, bitDone_goTo, beginTrail_goTo, latching_goTo, latching_bitDone, counters_goTo,
    counters_bitDone]
  rfl

/-- The data phase, with `m + 1` pulses left. -/
theorem data_reaches (m : Nat) (s : State) (hr : s.rst = false)
    (hi : (counters s).i + (m + 1) = frameBits) :
    Reaches (goTo .dataStart s)
      (if (dataLoop (m + 1) s).1 then
         goTo .trailStart (beginTrail (latching s) (dataLoop (m + 1) s).2)
       else cycleEnded .timingViolation (dataLoop (m + 1) s).2) := by
  induction m generalizing s with
  | zero =>
    refine (dataPulse_reaches s hr).trans ?_
    rw [dataLoop]
    by_cases h : guardTrips (pulse s).2.params (pulse s).1 = true
    · simp only [h, if_true]
      exact Reaches.refl _
    · simp only [h, Bool.false_eq_true, if_false, dataLoop, if_true]
      have := Reaches.tick (s := goTo .dataSample (pulse s).2) hr
      rw [dataSample_tick, counters_pulse, if_pos hi] at this
      exact this
  | succ m ih =>
    refine (dataPulse_reaches s hr).trans ?_
    rw [dataLoop]
    by_cases h : guardTrips (pulse s).2.params (pulse s).1 = true
    · simp only [h, if_true]
      exact Reaches.refl _
    · simp only [h, Bool.false_eq_true, if_false]
      have h1 := Reaches.tick (s := goTo .dataSample (pulse s).2) hr
      rw [dataSample_tick, counters_pulse, if_neg (by omega)] at h1
      refine h1.trans ?_
      have h2 := ih (bitDone (readData (pulse s).2).1 (readData (pulse s).2).2)
        (by simpa [bitDone] using hr) (by simp; omega)
      rw [latching_bitDone] at h2
      exact h2

/-- The pulse of a trailing phase and the guard after it. -/
theorem trailPulse_reaches (s : State) (hr : s.rst = false) :
    Reaches (goTo .trailStart s)
      (if guardTrips (pulse s).2.params (pulse s).1 then trailTripped (disarm (pulse s).2)
       else if (counters (trailDone (pulse s).2)).j = (trailDone (pulse s).2).seq.n then
         goTo .decode (armTrail (trailDone (pulse s).2))
       else goTo .trailStart (trailDone (pulse s).2)) := by
  refine (Reaches.tick (s := goTo .trailStart s) hr).trans ?_
  refine (Reaches.tick (s := goTo (.trailRise (now s).1) (now s).2) hr).trans ?_
  refine (Reaches.tick (s := goTo (.trailFall (now s).1) (setClk 1#1 (now s).2)) hr).trans ?_
  refine (Reaches.tick
    (s := goTo (.trailStop (now s).1) (setClk 0#1 (setClk 1#1 (now s).2))) hr).trans ?_
  have e : tick (goTo (.trailStop (now s).1) (setClk 0#1 (setClk 1#1 (now s).2))) =
      if guardTrips (pulse s).2.params (pulse s).1 then
        trailTripped (goTo (.trailStop (now s).1) (disarm (pulse s).2))
      else if (counters (trailDone (goTo (.trailStop (now s).1) (pulse s).2))).j =
          (trailDone (goTo (.trailStop (now s).1) (pulse s).2)).seq.n then
        goTo .decode (armTrail (trailDone (goTo (.trailStop (now s).1) (pulse s).2)))
      else goTo .trailStart (trailDone (goTo (.trailStop (now s).1) (pulse s).2)) := rfl
  rw [e, trailTripped_goTo, trailDone_goTo]
  exact Reaches.refl _

@[simp] theorem trailDone_n (s : State) : (trailDone s).seq.n = s.seq.n := by simp [trailDone]

/-- The trailing phase, with `m + 1` pulses left. -/
theorem trail_reaches (m : Nat) (s : State) (hr : s.rst = false)
    (hj : (counters s).j + (m + 1) = s.seq.n) :
    Reaches (goTo .trailStart s)
      (if (trailLoop (m + 1) s).1 then goTo .decode (armTrail (trailLoop (m + 1) s).2)
       else trailTripped (trailLoop (m + 1) s).2) := by
  induction m generalizing s with
  | zero =>
    refine (trailPulse_reaches s hr).trans ?_
    rw [trailLoop]
    by_cases h : guardTrips (pulse s).2.params (pulse s).1 = true
    · simp only [h, if_true]
      exact Reaches.refl _
    · simp only [h, Bool.false_eq_true, if_false, trailLoop, if_true]
      rw [if_pos (by simpa using hj)]
      exact Reaches.refl _
  | succ m ih =>
    refine (trailPulse_reaches s hr).trans ?_
    rw [trailLoop]
    by_cases h : guardTrips (pulse s).2.params (pulse s).1 = true
    · simp only [h, if_true]
      exact Reaches.refl _
    · simp only [h, Bool.false_eq_true, if_false]
      rw [if_neg (by simp; omega)]
      exact ih _ (by simpa [trailDone] using hr) (by simp; omega)


/-! ### A whole cycle and the loops of sub-cycles (40_read_cycle.md R119, R120) -/

theorem dataLoop_locals (m : Nat) (s : State) :
    (dataLoop m s).2.seq.n = s.seq.n ∧ (dataLoop m s).2.seq.cfg0 = s.seq.cfg0 := by
  induction m generalizing s with
  | zero => exact ⟨rfl, rfl⟩
  | succ m ih =>
    simp only [dataLoop]
    split
    · exact ⟨rfl, rfl⟩
    · simpa [bitDone] using ih (bitDone (readData (pulse s).2).1 (readData (pulse s).2).2)

theorem trailOf_pos (s : State) : 1 ≤ trailOf s ∧ trailOf s ≤ 3 := by
  unfold trailOf trailCount
  split
  · split <;> simp
  · simp

@[simp] theorem beginData_n (s : State) : (beginData s).seq.n = trailOf s := by simp [beginData]
@[simp] theorem beginTrail_n (l : Bool) (s : State) : (beginTrail l s).seq.n = s.seq.n := by
  simp [beginTrail]

theorem decode_tick (s : State) :
    tick (goTo .decode s) = cycleEnded (frameCode s) (latchSample (latching s) s) := by
  have e : tick (goTo .decode s) =
      cycleEnded (frameCode (goTo .decode s)) (latchSample (latching (goTo .decode s)) (goTo .decode s)) := rfl
  rw [e, latching_goTo, latchSample_goTo, cycleEnded_goTo]
  rfl

/-- What the sequencer does when the phases of a cycle have ended. -/
def afterPhases (r : CycleEnd × State) : State :=
  match r.1 with
  | .code c => cycleEnded c r.2
  | .trailTrip => trailTripped r.2

/-- The phases of a cycle, from its first primitive. -/
theorem cycle_reaches (ctx : Ctx) (latch : Bool) (s : State) (hr : s.rst = false)
    (hm : 1 ≤ s.params.readyMaxTries) (hl : latch = (ctx == .top && s.cmdOp == Instr.readOne.op)) :
    Reaches (startCycle ctx s) (afterPhases (cycleBody latch (beginCycle ctx s))) := by
  have hb : SameRun s (beginCycle ctx s) := by
    cases ctx
    · exact sameRun_closed.beginTop s
    · exact sameRun_closed.beginSub s
  have hc : (beginCycle ctx s).seq.ctx = ctx := beginCycle_ctx ctx s
  have ht : (counters (beginCycle ctx s)).tries = 0 := beginCycle_tries ctx s
  unfold startCycle
  generalize beginCycle ctx s = b at hb hc ht
  obtain ⟨hbr, hbp, hbo, -, -⟩ := hb
  obtain ⟨M, hM⟩ : ∃ M, b.params.readyMaxTries = M + 1 := ⟨s.params.readyMaxTries - 1, by rw [hbp]; omega⟩
  have h1 := poll_reaches M b (hbr.trans hr) (by omega)
  have hP := (sameRun_closed.phases latch).pollLoop b.params.readyMaxTries b
  have hPc := (sameCtx_closed latch).pollLoop b.params.readyMaxTries b
  simp only [cycleBody]
  rw [← hM] at h1
  refine h1.trans ?_
  generalize pollLoop b.params.readyMaxTries b = r at hP hPc
  by_cases hr1 : r.1 = true
  · simp only [hr1, if_true, Bool.not_true, Bool.false_eq_true, if_false]
    have h2 := data_reaches 23 (beginData r.2) (by simpa [beginData] using hP.1.trans (hbr.trans hr))
      (by simp [frameBits])
    refine h2.trans ?_
    have hD := ((sameRun_closed.phases latch).dataLoop frameBits (beginData r.2))
    have hDc := (sameCtx_closed latch).dataLoop frameBits (beginData r.2)
    have hDn := (dataLoop_locals frameBits (beginData r.2)).1
    have hlat : latching (beginData r.2) = latch := by
      rw [hl]; simp [latching, beginData, hPc, hc, hP.2.2.1, hbo]
    have hDr : (dataLoop frameBits (beginData r.2)).2.rst = false :=
      hD.1.trans (by simpa [beginData] using hP.1.trans (hbr.trans hr))
    have hDo : (dataLoop frameBits (beginData r.2)).2.cmdOp = s.cmdOp :=
      hD.2.2.1.trans (by simpa [beginData] using hP.2.2.1.trans hbo)
    have hDc' : (dataLoop frameBits (beginData r.2)).2.seq.ctx = ctx :=
      hDc.trans (by simpa [beginData] using hPc.trans hc)
    rw [hlat]
    change Reaches (if (dataLoop frameBits (beginData r.2)).1 = true then _ else _) _
    rw [beginData_n] at hDn
    change Reaches (if (dataLoop frameBits (beginData r.2)).1 = true then
      goTo .trailStart (beginTrail latch (dataLoop frameBits (beginData r.2)).2) else
      cycleEnded .timingViolation (dataLoop frameBits (beginData r.2)).2) _
    generalize dataLoop frameBits (beginData r.2) = d at hDr hDo hDc' hDn
    by_cases hd1 : d.1 = true
    · simp only [hd1, if_true, Bool.not_true, Bool.false_eq_true, if_false]
      obtain ⟨N, hN⟩ : ∃ N, (beginTrail latch d.2).seq.n = N + 1 :=
        ⟨trailOf r.2 - 1, by simp [hDn]; have := trailOf_pos r.2; omega⟩
      have hTr : (beginTrail latch d.2).rst = false := by simpa [beginTrail] using hDr
      have h3 := trail_reaches N (beginTrail latch d.2) hTr (by rw [counters_beginTrail, hN]; simp)
      rw [← hN] at h3
      refine h3.trans ?_
      have hT := (sameRun_closed.phases latch).trailLoop (beginTrail latch d.2).seq.n (beginTrail latch d.2)
      have hTc := (sameCtx_closed latch).trailLoop (beginTrail latch d.2).seq.n (beginTrail latch d.2)
      have hTo : (beginTrail latch d.2).cmdOp = s.cmdOp := by simpa [beginTrail] using hDo
      have hTx : (beginTrail latch d.2).seq.ctx = ctx := by simpa [beginTrail] using hDc'
      generalize trailLoop (beginTrail latch d.2).seq.n (beginTrail latch d.2) = e at hT hTc
      by_cases he1 : e.1 = true
      · simp only [he1, if_true, Bool.not_true, Bool.false_eq_true, if_false, afterPhases]
        have h4 := Reaches.tick (s := goTo .decode (armTrail e.2)) (hT.1.trans hTr)
        rw [decode_tick] at h4
        have : latching (armTrail e.2) = latch := by
          rw [hl]; simp [latching, hTc, hTx, hT.2.2.1, hDo]
        rw [this] at h4
        exact h4
      · simp only [he1, Bool.false_eq_true, if_false, Bool.not_false, if_true, afterPhases]
        exact Reaches.refl _
    · simp only [hd1, Bool.false_eq_true, if_false, Bool.not_false, if_true, afterPhases]
      exact Reaches.refl _
  · simp only [hr1, Bool.false_eq_true, if_false, Bool.not_false, if_true, afterPhases]
    exact Reaches.refl _

/-- A sub-cycle, from its first primitive to the head of its loop (40_read_cycle.md R119). -/
theorem subCycle_reaches (s : State) (hr : s.rst = false) (hm : 1 ≤ s.params.readyMaxTries) :
    Reaches (startCycle .sub s)
      (goTo (subHead s) (subDone (subCycle s).1 (subCycle s).2)) := by
  refine (cycle_reaches .sub false s hr hm (by simp)).trans ?_
  have hx : (cycleBody false (beginCycle .sub s)).2.seq.ctx = .sub :=
    ((sameCtx_closed false).cycleBody _).trans (beginCycle_ctx _ _)
  have ho : (cycleBody false (beginCycle .sub s)).2.cmdOp = s.cmdOp :=
    (sameRun_closed.toSubsClosed.toPhasesClosed.cycleBody _).2.2.1.trans (sameRun_closed.beginSub s).2.2.1
  simp only [subCycle, afterPhases]
  generalize cycleBody false (beginCycle .sub s) = r at hx ho
  cases h : r.1 with
  | code c =>
    simp only [cycleEnded, hx]
    have : subHead r.2 = subHead s := by simp [subHead, runsReset, ho]
    rw [this]
    exact Reaches.refl _
  | trailTrip =>
    simp only [trailTripped, cycleEnded, hx]
    have : subHead r.2 = subHead s := by simp [subHead, runsReset, ho]
    rw [this]
    exact Reaches.refl _

/-- How many sub-cycles the loop of the running command has (40_read_cycle.md R119, 42_power.md R174). -/
def subLimit (s : State) : Nat :=
  if runsReset s then s.params.resetSettleReads else s.params.recoveryReads

theorem startCycle_goTo (c : Ctx) (p : Point) (s : State) : startCycle c (goTo p s) = startCycle c s := by
  unfold startCycle; rw [beginCycle_goTo]; rfl

theorem subHead_tick (s : State) (hk : s.seq.k < subLimit s) :
    tick (goTo (subHead s) s) = startCycle .sub s := by
  unfold subHead
  unfold subLimit at hk
  by_cases h : runsReset s = true
  · simp only [h, if_true] at hk ⊢
    have e : tick (goTo .resetSettle s) =
        if s.seq.k < s.params.resetSettleReads then startCycle .sub (goTo .resetSettle s)
        else endReset (goTo .resetSettle s) := rfl
    rw [e, if_pos hk, startCycle_goTo]
  · simp only [h, Bool.false_eq_true, if_false] at hk ⊢
    have e : tick (goTo .recover s) =
        if s.seq.k < s.params.recoveryReads then startCycle .sub (goTo .recover s)
        else cycleEnded (recoveryCode s.seq.v) (endRecovery (goTo .recover s)) := rfl
    rw [e, if_pos hk, startCycle_goTo]

theorem beginCycle_loop (c : Ctx) (s : State) :
    (beginCycle c s).seq.k = s.seq.k ∧ (beginCycle c s).seq.v = s.seq.v := by
  cases c <;> exact ⟨rfl, rfl⟩

theorem subCycle_state (s : State) : (subCycle s).2 = (cycleBody false (beginCycle .sub s)).2 := by
  simp only [subCycle]; split <;> rfl

/-- A loop of sub-cycles, from its head with `m` of them left to its head with none left. -/
theorem subLoop_reaches (m : Nat) (s : State) (hr : s.rst = false) (hp : 1 ≤ s.params.readyMaxTries)
    (hk : s.seq.k + m = subLimit s) :
    Reaches (goTo (subHead s) s) (goTo (subHead s) (subLoop m s)) ∧
      (subLoop m s).seq.k = s.seq.k + m := by
  induction m generalizing s with
  | zero => exact ⟨Reaches.refl _, rfl⟩
  | succ m ih =>
    have hs : SameRun s (subDone (subCycle s).1 (subCycle s).2) :=
      sameRun_closed.trans (sameRun_closed.subCycle s) (sameRun_closed.subDone _ _)
    have hk' : (subDone (subCycle s).1 (subCycle s).2).seq.k = s.seq.k + 1 := by
      simp only [subDone, subCycle_state]
      rw [((sameLoop_closed false).cycleBody _).1, (beginCycle_loop _ _).1]
    have h1 := (Reaches.tick (s := goTo (subHead s) s) hr)
    rw [subHead_tick s (by omega)] at h1
    have h2 := subCycle_reaches s hr hp
    have hh : subHead (subDone (subCycle s).1 (subCycle s).2) = subHead s := by
      unfold subHead runsReset; rw [hs.2.2.1]
    have hlim : subLimit (subDone (subCycle s).1 (subCycle s).2) = subLimit s := by
      unfold subLimit runsReset; rw [hs.2.2.1, hs.2.1]
    obtain ⟨h3, h4⟩ := ih _ (hs.1.trans hr) (by rw [hs.2.1]; exact hp) (by omega)
    rw [hh] at h3
    exact ⟨h1.trans (h2.trans h3), by rw [subLoop]; omega⟩

/-- A top-level cycle, its recovery included, from its start to its end (R120). -/
theorem topCycle_reaches (latch : Bool) (s : State) (hr : s.rst = false)
    (hm : s.params.legal = true) (ho : s.cmdOp ≠ 6#4) (hl : latch = (s.cmdOp == 1#4)) :
    Reaches (startCycle .top s) (cycleEnded (topCycle latch s).1 (topCycle latch s).2) := by
  have hmax : 1 ≤ s.params.readyMaxTries := by simp [Params.legal] at hm; omega
  refine (cycle_reaches .top latch s hr hmax (by simp [hl, Instr.op])).trans ?_
  have hB : SameRun s (cycleBody latch (beginCycle .top s)).2 :=
    sameRun_closed.trans (sameRun_closed.beginTop s) ((sameRun_closed.phases latch).cycleBody _)
  have hx : (cycleBody latch (beginCycle .top s)).2.seq.ctx = .top :=
    ((sameCtx_closed latch).cycleBody _).trans (beginCycle_ctx _ _)
  simp only [topCycle, afterPhases]
  generalize cycleBody latch (beginCycle .top s) = r at hB hx
  cases h : r.1 with
  | code c => exact Reaches.refl _
  | trailTrip =>
    simp only [trailTripped, hx, recoverTop]
    have hnr : runsReset (beginSubs r.2) = false := by
      simp [runsReset, hB.2.2.1, Instr.op, ho]
    have hh : subHead (beginSubs r.2) = .recover := by simp [subHead, hnr]
    have hlim : subLimit (beginSubs r.2) = r.2.params.recoveryReads := by simp [subLimit, hnr]
    obtain ⟨h1, h2⟩ := subLoop_reaches r.2.params.recoveryReads (beginSubs r.2) (hB.1.trans hr)
      (by simpa [hB.2.1] using hmax) (by simp [hlim])
    rw [hh] at h1
    refine h1.trans ?_
    have hS : SameRun (beginSubs r.2) (subLoop r.2.params.recoveryReads (beginSubs r.2)) :=
      sameRun_closed.subLoop _ _
    generalize subLoop r.2.params.recoveryReads (beginSubs r.2) = t at h2 hS
    have h3 := Reaches.tick (s := goTo .recover t) (hS.1.trans (hB.1.trans hr))
    have e : tick (goTo .recover t) =
        if t.seq.k < t.params.recoveryReads then startCycle .sub (goTo .recover t)
        else cycleEnded (recoveryCode t.seq.v) (goTo .recover (endRecovery t)) := rfl
    rw [e, if_neg (by rw [hS.2.1]; simp at h2 ⊢; omega), cycleEnded_goTo] at h3
    exact h3

/-- The settle read and its delay (41_config.md R151). -/
theorem settle_reaches (s : State) (hr : s.rst = false)
    (hm : s.params.legal = true) (ho : s.cmdOp ≠ 6#4) (hl : s.cmdOp ≠ 1#4) :
    Reaches (startCycle .top s) (finish .ok (settle s)) := by
  refine (topCycle_reaches false s hr hm ho (by simp [hl])).trans ?_
  have hB := sameRun_closed.topCycle false s
  have hx : (topCycle false s).2.seq.ctx = .top := by
    simp only [topCycle]
    split
    · exact ((sameCtx_closed false).cycleBody _).trans (beginCycle_ctx _ _)
    · rfl
  simp only [settle]
  generalize topCycle false s = r at hB hx
  have : cycleEnded r.1 r.2 = goTo .settleWait (setSettleCode r.1 r.2) := by
    simp [cycleEnded, hx, hB.2.2.1, Instr.op, hl]
  rw [this]
  exact Reaches.tick (s := goTo .settleWait (setSettleCode r.1 r.2)) (hB.1.trans hr)

end Sys2Proof.Machine
end

