-- ==== Sys2Proof/Laws/Script.lean ====
section
/-!
SUPPORT. What the primitives and the phases of a cycle do when the environment's next answers are given.
-/

namespace Sys2Proof.Machine

/-! ### Primitives -/

theorem readData_script {s : State} {b : Level} {L : List Level} (h : s.env.levels = b :: L) :
    (readData s).1 = b ∧ (readData s).2.env = { s.env with levels := L } := by
  simp [readData, Env.nextLevel, Env.afterLevel, h]

theorem pulse_measure (s : State) : (pulse s).1 = s.env.afterNow.nextDelta := by
  have h : s.env.afterNow.lastNow = s.env.nextNow := by unfold Env.afterNow; split <;> rfl
  have e : (pulse s).1 = s.env.afterNow.lastNow + s.env.afterNow.nextDelta - s.env.nextNow := rfl
  omega

theorem pulse_script {s : State} {a e : Nat} {D : List Nat} (h : s.env.deltas = a :: e :: D) :
    (pulse s).1 = e ∧
      (pulse s).2.env = { s.env with deltas := D, lastNow := s.env.lastNow + a + e } := by
  have h1 : s.env.afterNow = { s.env with deltas := e :: D, lastNow := s.env.lastNow + a } := by
    simp [Env.afterNow, Env.nextNow, Env.nextDelta, h]
  constructor
  · rw [pulse_measure, h1]; simp [Env.nextDelta]
  · rw [pulse_env, h1]; simp [Env.afterNow, Env.nextNow, Env.nextDelta]

theorem pulse_passes {s : State} {a e : Nat} {D : List Nat} (h : s.env.deltas = a :: e :: D)
    (he : e < s.params.tGuardNs) : guardTrips (pulse s).2.params (pulse s).1 = false := by
  simp [guardTrips, (pulse_script h).1, he]

theorem pulse_trips {s : State} {a e : Nat} {D : List Nat} (h : s.env.deltas = a :: e :: D)
    (he : s.params.tGuardNs ≤ e) : guardTrips (pulse s).2.params (pulse s).1 = true := by
  simp [guardTrips, (pulse_script h).1, he]

/-! ### The phases, one element of the script at a time -/

theorem pollLoop_high {s : State} {L : List Level} (m : Nat) (h : s.env.levels = 1#1 :: L) :
    pollLoop (m + 1) s =
      pollLoop m (sleep s.params.pollIntervalNs (pollDone (readData s).2)) := by
  simp [pollLoop, (readData_script h).1, pollDone]

theorem pollLoop_low {s : State} {L : List Level} (m : Nat) (h : s.env.levels = 0#1 :: L) :
    pollLoop (m + 1) s = (true, pollDone (readData s).2) := by
  simp [pollLoop, (readData_script h).1]

theorem dataLoop_pass {s : State} {a e : Nat} {D : List Nat} (m : Nat)
    (h : s.env.deltas = a :: e :: D) (he : e < s.params.tGuardNs) :
    dataLoop (m + 1) s = dataLoop m (bitDone (readData (pulse s).2).1 (readData (pulse s).2).2) := by
  simp only [dataLoop, pulse_passes h he, Bool.false_eq_true, if_false]

theorem dataLoop_trip {s : State} {a e : Nat} {D : List Nat} (m : Nat)
    (h : s.env.deltas = a :: e :: D) (he : s.params.tGuardNs ≤ e) :
    dataLoop (m + 1) s = (false, disarm (pulse s).2) := by
  simp only [dataLoop, pulse_trips h he, if_true]

theorem trailLoop_pass {s : State} {a e : Nat} {D : List Nat} (m : Nat)
    (h : s.env.deltas = a :: e :: D) (he : e < s.params.tGuardNs) :
    trailLoop (m + 1) s = trailLoop m (trailDone (pulse s).2) := by
  simp only [trailLoop, pulse_passes h he, Bool.false_eq_true, if_false]

theorem trailLoop_trip {s : State} {a e : Nat} {D : List Nat} (m : Nat)
    (h : s.env.deltas = a :: e :: D) (he : s.params.tGuardNs ≤ e) :
    trailLoop (m + 1) s = (false, disarm (pulse s).2) := by
  simp only [trailLoop, pulse_trips h he, if_true]

/-! ### Whole phases -/

/-- A DIAG update as the context of the cycle lets it through (40_read_cycle.md R124). -/
def diagOf (s : State) (d : Diag) : Diag := if s.seq.ctx = .top then d else s.diag

theorem noteDiag_diag (d : Diag) (s : State) : (noteDiag d s).diag = diagOf s d := by
  unfold noteDiag diagOf; cases s.seq.ctx <;> simp

/-- What the readiness wait leaves alone. -/
def PollKeeps (s t : State) : Prop :=
  t.params = s.params ∧ t.clk = s.clk ∧ t.shreg = s.shreg ∧ t.config = s.config ∧ t.raw = s.raw ∧
    t.sample = s.sample ∧ t.seq.ctx = s.seq.ctx ∧ (counters t).i = (counters s).i ∧
    (counters t).j = (counters s).j ∧ highWrites t.events = highWrites s.events

theorem PollKeeps.trans {s t u : State} (h1 : PollKeeps s t) (h2 : PollKeeps t u) : PollKeeps s u := by
  obtain ⟨a, b, c, d, e, f, g, h, i, j⟩ := h1
  obtain ⟨a', b', c', d', e', f', g', h', i', j'⟩ := h2
  exact ⟨a'.trans a, b'.trans b, c'.trans c, d'.trans d, e'.trans e, f'.trans f, g'.trans g, h'.trans h,
    i'.trans i, j'.trans j⟩

theorem pollKeeps_sample (s : State) : PollKeeps s (pollDone (readData s).2) := by
  simp [PollKeeps, pollDone, highWrites]

theorem pollKeeps_sleep (d : Nat) (s : State) : PollKeeps s (sleep d s) := by
  simp [PollKeeps, highWrites]

theorem pollLoop_keeps (m : Nat) (s : State) : PollKeeps s (pollLoop m s).2 := by
  induction m generalizing s with
  | zero => exact ⟨rfl, rfl, rfl, rfl, rfl, rfl, rfl, rfl, rfl, rfl⟩
  | succ m ih =>
    simp only [pollLoop]
    split
    · exact pollKeeps_sample s
    · exact ((pollKeeps_sample s).trans (pollKeeps_sleep _ _)).trans (ih _)

/-- The readiness wait when the line reads low at sample `m + 1`, within the bound (R113). -/
theorem pollLoop_ready (m M : Nat) (s : State) (L : List Level) (hm : m < M)
    (h : s.env.levels = List.replicate m 1#1 ++ 0#1 :: L) :
    (pollLoop M s).1 = true ∧ (pollLoop M s).2.env = { s.env with levels := L } ∧
      (counters (pollLoop M s).2).tries = (counters s).tries + m + 1 ∧
      (pollLoop M s).2.diag = diagOf s { s.diag with polls := BitVec.ofNat 8 ((counters s).tries + m + 1) } := by
  induction m generalizing s M with
  | zero =>
    obtain ⟨M, rfl⟩ : ∃ k, M = k + 1 := ⟨M - 1, by omega⟩
    rw [pollLoop_low M (L := L) (by simpa using h)]
    have := (readData_script (s := s) (b := 0#1) (L := L) (by simpa using h)).2
    refine ⟨rfl, ?_, by simp, ?_⟩
    · simpa [pollDone] using this
    · simp [pollDone, noteDiag_diag, diagOf]
  | succ m ih =>
    obtain ⟨M, rfl⟩ : ∃ k, M = k + 1 := ⟨M - 1, by omega⟩
    have h' : s.env.levels = 1#1 :: (List.replicate m 1#1 ++ 0#1 :: L) := by
      simpa [List.replicate_succ] using h
    rw [pollLoop_high M h']
    have he := (readData_script h').2
    set u := sleep s.params.pollIntervalNs (pollDone (readData s).2) with hu
    have hue : u.env = { s.env with levels := List.replicate m 1#1 ++ 0#1 :: L } := by
      simpa [hu, pollDone] using he
    have hut : (counters u).tries = (counters s).tries + 1 := by simp [hu]
    have hud : u.diag = diagOf s { s.diag with polls := BitVec.ofNat 8 ((counters s).tries + 1) } := by
      simp [hu, pollDone, noteDiag_diag, diagOf]
    have huc : u.seq.ctx = s.seq.ctx := by simp [hu, pollDone]
    obtain ⟨h1, h2, h3, h4⟩ := ih M u (by omega) (by rw [hue])
    refine ⟨h1, by rw [h2, hue], by rw [h3, hut]; omega, ?_⟩
    rw [h4, hut, hud]
    have : (counters s).tries + 1 + m + 1 = (counters s).tries + (m + 1) + 1 := by omega
    simp only [diagOf, huc, hud, this]
    split <;> simp_all

/-- The readiness wait when the line never reads low (R113). -/
theorem pollLoop_never (m : Nat) (s : State) (L : List Level)
    (h : s.env.levels = List.replicate m 1#1 ++ L) :
    (pollLoop m s).1 = false ∧ (pollLoop m s).2.env = { s.env with levels := L } ∧
      (counters (pollLoop m s).2).tries = (counters s).tries + m ∧
      (1 ≤ m → (pollLoop m s).2.diag =
        diagOf s { s.diag with polls := BitVec.ofNat 8 ((counters s).tries + m) }) := by
  induction m generalizing s with
  | zero => exact ⟨rfl, by simp at h; simp [pollLoop, ← h], rfl, by omega⟩
  | succ m ih =>
    have h' : s.env.levels = 1#1 :: (List.replicate m 1#1 ++ L) := by
      simpa [List.replicate_succ] using h
    rw [pollLoop_high m h']
    have he := (readData_script h').2
    set u := sleep s.params.pollIntervalNs (pollDone (readData s).2) with hu
    have hue : u.env = { s.env with levels := List.replicate m 1#1 ++ L } := by
      simpa [hu, pollDone] using he
    have hut : (counters u).tries = (counters s).tries + 1 := by simp [hu]
    have hud : u.diag = diagOf s { s.diag with polls := BitVec.ofNat 8 ((counters s).tries + 1) } := by
      simp [hu, pollDone, noteDiag_diag, diagOf]
    have huc : u.seq.ctx = s.seq.ctx := by simp [hu, pollDone]
    obtain ⟨h1, h2, h3, h4⟩ := ih u (by rw [hue])
    refine ⟨h1, by rw [h2, hue], by rw [h3, hut]; omega, fun _ => ?_⟩
    rcases Nat.eq_zero_or_pos m with rfl | hp
    · simpa [pollLoop] using hud
    · rw [h4 hp, hut]
      have : (counters s).tries + 1 + m = (counters s).tries + (m + 1) := by omega
      simp only [diagOf, huc, hud, this]
      split <;> simp_all

/-- What the pulses of a cycle leave alone. -/
def PulseKeeps (s t : State) : Prop :=
  t.params = s.params ∧ t.config.channel = s.config.channel ∧ t.config.gainA = s.config.gainA ∧
    t.config.sampleCfg = s.config.sampleCfg ∧ t.raw = s.raw ∧
    t.sample = s.sample ∧ t.seq.ctx = s.seq.ctx ∧ t.seq.n = s.seq.n ∧ t.seq.cfg0 = s.seq.cfg0 ∧
    (counters t).tries = (counters s).tries

theorem PulseKeeps.trans {s t u : State} (h1 : PulseKeeps s t) (h2 : PulseKeeps t u) : PulseKeeps s u := by
  obtain ⟨a, b, c, d, e, f, g, h, i, j⟩ := h1
  obtain ⟨a', b', c', d', e', f', g', h', i', j'⟩ := h2
  exact ⟨a'.trans a, b'.trans b, c'.trans c, d'.trans d, e'.trans e, f'.trans f, g'.trans g, h'.trans h,
    i'.trans i, j'.trans j⟩

theorem dataLoop_keeps (m : Nat) (s : State) : PulseKeeps s (dataLoop m s).2 := by
  induction m generalizing s with
  | zero => exact ⟨rfl, rfl, rfl, rfl, rfl, rfl, rfl, rfl, rfl, rfl⟩
  | succ m ih =>
    simp only [dataLoop]
    split
    · exact ⟨rfl, rfl, rfl, rfl, rfl, rfl, rfl, rfl, rfl, rfl⟩
    · refine PulseKeeps.trans ?_ (ih _)
      simp [PulseKeeps, bitDone]

theorem trailLoop_keeps (m : Nat) (s : State) : PulseKeeps s (trailLoop m s).2 := by
  induction m generalizing s with
  | zero => exact ⟨rfl, rfl, rfl, rfl, rfl, rfl, rfl, rfl, rfl, rfl⟩
  | succ m ih =>
    simp only [trailLoop]
    split
    · exact ⟨rfl, rfl, rfl, rfl, rfl, rfl, rfl, rfl, rfl, rfl⟩
    · refine PulseKeeps.trans ?_ (ih _)
      simp [PulseKeeps, trailDone]

@[simp] theorem pulseDeltas_cons (q : Nat × Nat) (ps : List (Nat × Nat)) :
    pulseDeltas (q :: ps) = q.1 :: q.2 :: pulseDeltas ps := rfl

@[simp] theorem highWrites_pulse (s : State) :
    highWrites (pulse s).2.events = highWrites s.events + 1 := by
  simp [highWrites]

/-- A data phase in which every pulse passes: one bit is shifted in per pulse (R114, R125). -/
theorem dataLoop_script (bs : List Level) (ps : List (Nat × Nat)) (s : State) (L : List Level)
    (D : List Nat) (hl : s.env.levels = bs ++ L) (hd : s.env.deltas = pulseDeltas ps ++ D)
    (hn : ps.length = bs.length) (hp : allPass s.params ps) :
    (dataLoop bs.length s).1 = true ∧
      (dataLoop bs.length s).2.env.levels = L ∧ (dataLoop bs.length s).2.env.deltas = D ∧
      (dataLoop bs.length s).2.env.draws = s.env.draws ∧
      (dataLoop bs.length s).2.shreg = bs.foldl shiftIn s.shreg ∧
      (counters (dataLoop bs.length s).2).i = (counters s).i + bs.length ∧
      (counters (dataLoop bs.length s).2).j = (counters s).j ∧
      (dataLoop bs.length s).2.config = s.config ∧
      (1 ≤ bs.length → (dataLoop bs.length s).2.clk = 0#1 ∧ (dataLoop bs.length s).2.diag =
        diagOf s { s.diag with bitcnt := BitVec.ofNat 8 ((counters s).i + bs.length) }) ∧
      highWrites (dataLoop bs.length s).2.events = highWrites s.events + bs.length := by
  induction bs generalizing s ps with
  | nil =>
    obtain rfl : ps = [] := by simpa using hn
    simp_all [dataLoop, pulseDeltas]
  | cons b bs ih =>
    obtain ⟨q, ps, rfl⟩ : ∃ q qs, ps = q :: qs := by
      cases ps with
      | nil => simp at hn
      | cons q qs => exact ⟨q, qs, rfl⟩
    have hd' : s.env.deltas = q.1 :: q.2 :: (pulseDeltas ps ++ D) := by simpa using hd
    have hq : q.2 < s.params.tGuardNs := hp q (by simp)
    rw [List.length_cons, dataLoop_pass _ hd' hq]
    have hpe := (pulse_script hd').2
    have hl2 : (pulse s).2.env.levels = b :: (bs ++ L) := by rw [hpe]; simpa using hl
    obtain ⟨hb, hbe⟩ := readData_script hl2
    set u := bitDone (readData (pulse s).2).1 (readData (pulse s).2).2 with hu
    have hue : u.env = { (pulse s).2.env with levels := bs ++ L } := by simpa [hu, bitDone] using hbe
    have hup : u.params = s.params := by simp [hu, bitDone]
    have huc : u.seq.ctx = s.seq.ctx := by simp [hu, bitDone]
    have hui : (counters u).i = (counters s).i + 1 := by simp [hu]
    have huj : (counters u).j = (counters s).j := by simp [hu]
    have hus : u.shreg = shiftIn s.shreg b := by simp [hu, bitDone, hb]
    have hug : u.config = s.config := by simp [hu, bitDone]
    have huk : u.clk = 0#1 := by simp [hu, bitDone]
    have hud : u.diag = diagOf s { s.diag with bitcnt := BitVec.ofNat 8 ((counters s).i + 1) } := by
      simp [hu, bitDone, noteDiag_diag, diagOf]
    have huw : highWrites u.events = highWrites s.events + 1 := by
      have : highWrites u.events = highWrites (pulse s).2.events := by
        simp [hu, bitDone, highWrites]
      rw [this, highWrites_pulse]
    obtain ⟨h1, h2, h3, h4, h5, h6, h7, h8, h9, h10⟩ := ih ps u (by rw [hue]) (by rw [hue, hpe])
      (by simpa using hn) (by intro r hr; rw [hup]; exact hp r (by simp [hr]))
    refine ⟨h1, h2, h3, by rw [h4, hue, hpe], by rw [h5, hus]; rfl, by rw [h6, hui]; omega,
      by rw [h7, huj], by rw [h8, hug], fun _ => ?_, by rw [h10, huw]; omega⟩
    rcases Nat.eq_zero_or_pos bs.length with h0 | hpos
    · obtain rfl : bs = [] := by simpa using h0
      simpa [dataLoop] using ⟨huk, hud⟩
    · refine ⟨(h9 hpos).1, ?_⟩
      rw [(h9 hpos).2, hui]
      have : (counters s).i + 1 + bs.length = (counters s).i + (bs.length + 1) := by omega
      simp only [diagOf, huc, hud, this]
      split <;> simp_all

/-- A trailing phase in which every pulse passes (R116). -/
theorem trailLoop_script (ps : List (Nat × Nat)) (s : State) (D : List Nat)
    (hd : s.env.deltas = pulseDeltas ps ++ D) (hp : allPass s.params ps) :
    (trailLoop ps.length s).1 = true ∧
      (trailLoop ps.length s).2.env.levels = s.env.levels ∧
      (trailLoop ps.length s).2.env.deltas = D ∧
      (trailLoop ps.length s).2.env.draws = s.env.draws ∧
      (trailLoop ps.length s).2.shreg = s.shreg ∧
      (counters (trailLoop ps.length s).2).i = (counters s).i ∧
      (counters (trailLoop ps.length s).2).j = (counters s).j + ps.length ∧
      (trailLoop ps.length s).2.config = s.config ∧
      (1 ≤ ps.length → (trailLoop ps.length s).2.clk = 0#1 ∧ (trailLoop ps.length s).2.diag =
        diagOf s { s.diag with trailcnt := BitVec.ofNat 4 ((counters s).j + ps.length) }) ∧
      highWrites (trailLoop ps.length s).2.events = highWrites s.events + ps.length := by
  induction ps generalizing s with
  | nil => simp_all [trailLoop, pulseDeltas]
  | cons q ps ih =>
    have hd' : s.env.deltas = q.1 :: q.2 :: (pulseDeltas ps ++ D) := by simpa using hd
    have hq : q.2 < s.params.tGuardNs := hp q (by simp)
    rw [List.length_cons, trailLoop_pass _ hd' hq]
    have hpe := (pulse_script hd').2
    set u := trailDone (pulse s).2 with hu
    have hue : u.env = (pulse s).2.env := by simp [hu, trailDone]
    have hup : u.params = s.params := by simp [hu, trailDone]
    have huc : u.seq.ctx = s.seq.ctx := by simp [hu, trailDone]
    have hui : (counters u).i = (counters s).i := by simp [hu]
    have huj : (counters u).j = (counters s).j + 1 := by simp [hu]
    have hus : u.shreg = s.shreg := by simp [hu, trailDone]
    have hug : u.config = s.config := by simp [hu, trailDone]
    have huk : u.clk = 0#1 := by simp [hu, trailDone]
    have hud : u.diag = diagOf s { s.diag with trailcnt := BitVec.ofNat 4 ((counters s).j + 1) } := by
      simp [hu, trailDone, noteDiag_diag, diagOf]
    have huw : highWrites u.events = highWrites s.events + 1 := by
      have : highWrites u.events = highWrites (pulse s).2.events := by simp [hu, trailDone]
      rw [this, highWrites_pulse]
    obtain ⟨h1, h2, h3, h4, h5, h6, h7, h8, h9, h10⟩ := ih u (by rw [hue, hpe])
      (by intro r hr; rw [hup]; exact hp r (by simp [hr]))
    refine ⟨h1, by rw [h2, hue, hpe], h3, by rw [h4, hue, hpe], by rw [h5, hus], by rw [h6, hui],
      by rw [h7, huj]; omega, by rw [h8, hug], fun _ => ?_, by rw [h10, huw]; omega⟩
    rcases Nat.eq_zero_or_pos ps.length with h0 | hpos
    · obtain rfl : ps = [] := by simpa using h0
      simpa [trailLoop] using ⟨huk, hud⟩
    · refine ⟨(h9 hpos).1, ?_⟩
      rw [(h9 hpos).2, huj]
      have : (counters s).j + 1 + ps.length = (counters s).j + (ps.length + 1) := by omega
      simp only [diagOf, huc, hud, this]
      split <;> simp_all

end Sys2Proof.Machine
end

