-- ==== Sys2Proof/Laws/Outcomes.lean ====
section
/-!
SUPPORT. How the phases of a cycle end, whatever the environment answers, and what each end leaves
(40_read_cycle.md R113, R114, R116, R121-R124).
-/

namespace Sys2Proof.Machine

/-- DIAG shows the counters of a top-level cycle in its readiness wait. -/
def PollsShown (s : State) : Prop :=
  s.seq.ctx = .top → s.diag = ⟨BitVec.ofNat 8 (counters s).tries, 0#8, 0#4, 0#4⟩

theorem pollLoop_outcome (m : Nat) (s : State) (h : PollsShown s) :
    PollsShown (pollLoop m s).2 ∧
      ((pollLoop m s).1 = false → (counters (pollLoop m s).2).tries = (counters s).tries + m) := by
  induction m generalizing s with
  | zero => exact ⟨h, fun _ => rfl⟩
  | succ m ih =>
    have h1 : PollsShown (pollDone (readData s).2) := by
      intro hx
      have hx' : s.seq.ctx = .top := by simpa [pollDone] using hx
      have := h hx'
      simp [pollDone, noteDiag_diag, diagOf, hx', this]
    simp only [pollLoop]
    split
    · exact ⟨h1, by simp⟩
    · obtain ⟨a, b⟩ := ih (sleep s.params.pollIntervalNs (pollDone (readData s).2)) h1
      simp only [pollDone_params, readData_params]
      exact ⟨a, fun hf => by rw [b hf]; simp; omega⟩

/-- The data phase: all its pulses pass, or the one after `q` bits trips the guard. -/
theorem dataLoop_outcome (m : Nat) (s : State)
    (h : s.seq.ctx = .top → s.diag.bitcnt = BitVec.ofNat 8 (counters s).i) :
    ∃ q, (dataLoop m s).2.diag = diagOf s { s.diag with bitcnt := BitVec.ofNat 8 ((counters s).i + q) } ∧
      (((dataLoop m s).1 = true ∧ q = m ∧ (dataLoop m s).2.config = s.config ∧
          highWrites (dataLoop m s).2.events = highWrites s.events + m) ∨
        ((dataLoop m s).1 = false ∧ q < m ∧ (dataLoop m s).2.config = { s.config with armed := 0#2 } ∧
          (dataLoop m s).2.clk = 0#1 ∧
          highWrites (dataLoop m s).2.events = highWrites s.events + q + 1)) := by
  induction m generalizing s with
  | zero =>
    refine ⟨0, ?_, .inl ⟨rfl, rfl, rfl, rfl⟩⟩
    unfold diagOf; split
    · next hx => simp [dataLoop, ← h hx]
    · rfl
  | succ m ih =>
    simp only [dataLoop]
    split
    · refine ⟨0, ?_, .inr ⟨rfl, by omega, rfl, rfl, highWrites_pulse s⟩⟩
      unfold diagOf; split
      · next hx => simp [← h hx]
      · rfl
    · set u := bitDone (readData (pulse s).2).1 (readData (pulse s).2).2 with hu
      have huc : u.seq.ctx = s.seq.ctx := by simp [hu, bitDone]
      have hui : (counters u).i = (counters s).i + 1 := by simp [hu]
      have hud : u.diag = diagOf s { s.diag with bitcnt := BitVec.ofNat 8 ((counters s).i + 1) } := by
        simp [hu, bitDone, noteDiag_diag, diagOf]
      have hug : u.config = s.config := by simp [hu]
      have huw : highWrites u.events = highWrites s.events + 1 := by
        have : highWrites u.events = highWrites (pulse s).2.events := by simp [hu, highWrites]
        rw [this, highWrites_pulse]
      obtain ⟨q, h1, h2⟩ := ih u (by intro hx; rw [huc] at hx; rw [hud, hui]; simp [diagOf, hx])
      refine ⟨q + 1, ?_, ?_⟩
      · rw [h1, hui]
        have : (counters s).i + 1 + q = (counters s).i + (q + 1) := by omega
        simp only [diagOf, huc, hud, this]
        split <;> simp_all
      · rcases h2 with ⟨a, b, c, d⟩ | ⟨a, b, c, d, e⟩
        · exact .inl ⟨a, by omega, by rw [c, hug], by rw [d, huw]; omega⟩
        · exact .inr ⟨a, by omega, by rw [c, hug], d, by rw [e, huw]; omega⟩

theorem dataLoop_clk (m : Nat) (s : State) (h : 1 ≤ m) : (dataLoop m s).2.clk = 0#1 := by
  induction m generalizing s with
  | zero => omega
  | succ m ih =>
    simp only [dataLoop]
    split
    · rfl
    · rcases Nat.eq_zero_or_pos m with rfl | hm
      · simp [dataLoop]
      · exact ih _ hm

/-- The trailing phase: all its pulses pass, or the one after `q` of them trips the guard. -/
theorem trailLoop_outcome (m : Nat) (s : State) (hk : s.clk = 0#1)
    (h : s.seq.ctx = .top → s.diag.trailcnt = BitVec.ofNat 4 (counters s).j) :
    (trailLoop m s).2.shreg = s.shreg ∧ (trailLoop m s).2.clk = 0#1 ∧
    ∃ q, (trailLoop m s).2.diag =
        diagOf s { s.diag with trailcnt := BitVec.ofNat 4 ((counters s).j + q) } ∧
      (((trailLoop m s).1 = true ∧ q = m ∧ (trailLoop m s).2.config = s.config ∧
          highWrites (trailLoop m s).2.events = highWrites s.events + m) ∨
        ((trailLoop m s).1 = false ∧ q < m ∧
          (trailLoop m s).2.config = { s.config with armed := 0#2 } ∧
          highWrites (trailLoop m s).2.events = highWrites s.events + q + 1)) := by
  induction m generalizing s with
  | zero =>
    refine ⟨rfl, hk, 0, ?_, .inl ⟨rfl, rfl, rfl, rfl⟩⟩
    unfold diagOf; split
    · next hx => simp [trailLoop, ← h hx]
    · rfl
  | succ m ih =>
    simp only [trailLoop]
    split
    · refine ⟨rfl, rfl, 0, ?_, .inr ⟨rfl, by omega, rfl, highWrites_pulse s⟩⟩
      unfold diagOf; split
      · next hx => simp [← h hx]
      · rfl
    · set u := trailDone (pulse s).2 with hu
      have huc : u.seq.ctx = s.seq.ctx := by simp [hu, trailDone]
      have hui : (counters u).j = (counters s).j + 1 := by simp [hu]
      have hud : u.diag = diagOf s { s.diag with trailcnt := BitVec.ofNat 4 ((counters s).j + 1) } := by
        simp [hu, trailDone, noteDiag_diag, diagOf]
      have hug : u.config = s.config := by simp [hu]
      have hus : u.shreg = s.shreg := by simp [hu]
      have huw : highWrites u.events = highWrites s.events + 1 := by
        have : highWrites u.events = highWrites (pulse s).2.events := by simp [hu]
        rw [this, highWrites_pulse]
      obtain ⟨g1, g2, q, h1, h2⟩ := ih u (by simp [hu])
        (by intro hx; rw [huc] at hx; rw [hud, hui]; simp [diagOf, hx])
      refine ⟨g1.trans hus, g2, q + 1, ?_, ?_⟩
      · rw [h1, hui]
        have : (counters s).j + 1 + q = (counters s).j + (q + 1) := by omega
        simp only [diagOf, huc, hud, this]
        split <;> simp_all
      · rcases h2 with ⟨a, b, c, d⟩ | ⟨a, b, c, d⟩
        · exact .inl ⟨a, by omega, by rw [c, hug], by rw [d, huw]; omega⟩
        · exact .inr ⟨a, by omega, by rw [c, hug], by rw [d, huw]; omega⟩

/-- What each end of a cycle's phases leaves, started from `s`: `e` is how it ended, `t` the state then
(40_read_cycle.md R121-R124). -/
inductive CycleOutcome (latch : Bool) (s t : State) : CycleEnd → Prop where
  | notReady (config : t.config = s.config) (raw : t.raw = s.raw) (sample : t.sample = s.sample)
      (clk : t.clk = s.clk) (shreg : t.shreg = s.shreg)
      (diag : t.diag = diagOf s ⟨BitVec.ofNat 8 s.params.readyMaxTries, 0#8, 0#4, 0#4⟩)
      (pulses : highWrites t.events = highWrites s.events) : CycleOutcome latch s t (.code .notReady)
  | dataTrip (q : Nat) (lt : q < 24) (config : t.config = { s.config with armed := 0#2 })
      (raw : t.raw = s.raw) (sample : t.sample = s.sample) (clk : t.clk = 0#1)
      (diag : ∃ p, t.diag = diagOf s ⟨p, BitVec.ofNat 8 q, 0#4, 0#4⟩)
      (pulses : highWrites t.events = highWrites s.events + q + 1) :
      CycleOutcome latch s t (.code .timingViolation)
  | trailTrip (q : Nat) (lt : q < trailOf s) (config : t.config = { s.config with armed := 0#2 })
      (raw : t.raw = if latch then t.shreg else s.raw) (sample : t.sample = s.sample)
          (clk : t.clk = 0#1)
      (diag : ∃ p, t.diag = diagOf s ⟨p, 24#8, BitVec.ofNat 4 q, 0#4⟩)
      (pulses : highWrites t.events = highWrites s.events + 24 + q + 1) :
      CycleOutcome latch s t .trailTrip
  | complete (c : Code) (code : c = if isSentinel t.shreg then .invalidSample else .ok)
      (config : t.config = { s.config with
        armed := BitVec.ofNat 2 (trailOf s),
        sampleCfg := if latch && !isSentinel t.shreg then s.config.armed else s.config.sampleCfg })
      (raw : t.raw = if latch then t.shreg else s.raw)
      (sample : t.sample = if latch && !isSentinel t.shreg then deliver t.shreg else s.sample)
      (clk : t.clk = 0#1)
      (diag : ∃ p, t.diag = diagOf s ⟨p, 24#8, BitVec.ofNat 4 (trailOf s), 0#4⟩)
      (pulses : highWrites t.events = highWrites s.events + 24 + trailOf s) :
      CycleOutcome latch s t (.code c)

/-- How the four phases of a cycle end, from a state in which the cycle has begun. -/
theorem cycleBody_outcome (latch : Bool) (s : State) (ht : (counters s).tries = 0)
    (hd : s.seq.ctx = .top → s.diag = .zero) :
    CycleOutcome latch s (cycleBody latch s).2 (cycleBody latch s).1 := by
  have hP := pollLoop_outcome s.params.readyMaxTries s (by intro hx; rw [hd hx, ht]; rfl)
  obtain ⟨kp, kk, kg, kc, kr, ks, kx, -, -, kw⟩ := pollLoop_keeps s.params.readyMaxTries s
  have kd : s.seq.ctx = .sub → (pollLoop s.params.readyMaxTries s).2.diag = s.diag := by
    intro hx
    generalize s.params.readyMaxTries = m
    clear hP kp kk kg kc kr ks kx kw ht hd
    induction m generalizing s with
    | zero => rfl
    | succ m ih =>
      simp only [pollLoop]
      have h1 : (pollDone (readData s).2).diag = s.diag := by
        simp [pollDone, noteDiag_diag, diagOf, hx]
      split
      · exact h1
      · rw [ih _ (by simp [pollDone, hx])]; exact h1
  simp only [cycleBody]
  generalize pollLoop s.params.readyMaxTries s = r at hP kp kk kg kc kr ks kx kw kd
  have hdiag : ∃ p, r.2.diag = diagOf s ⟨p, 0#8, 0#4, 0#4⟩ := by
    unfold diagOf; split
    · next hx => exact ⟨_, hP.1 (kx.trans hx)⟩
    · next hx =>
      refine ⟨0, kd ?_⟩
      cases h : s.seq.ctx
      · exact absurd h hx
      · rfl
  by_cases h1 : r.1 = true
  · simp only [h1, Bool.not_true, Bool.false_eq_true, if_false]
    set b := beginData r.2 with hb
    have bx : b.seq.ctx = s.seq.ctx := by rw [← kx]; simp [hb, beginData]
    have bi : (counters b).i = 0 := by simp [hb]
    have bg : b.config = s.config := by simp [hb, kc]
    have bn : b.seq.n = trailOf s := by rw [hb, beginData_n]; simp [trailOf, kc]
    have b0 : b.seq.cfg0 = s.config.armed := by rw [← kc]; simp [hb, beginData]
    have bd : ∃ p, b.diag = diagOf s ⟨p, 0#8, 0#4, 0#4⟩ := by simpa [hb] using hdiag
    have br : b.raw = s.raw := by simp [hb, kr]
    have bs : b.sample = s.sample := by simp [hb, ks]
    have bw : highWrites b.events = highWrites s.events := by simp [hb, kw]
    clear_value b
    obtain ⟨q, hq, hD⟩ := dataLoop_outcome frameBits b (by
      intro hx; rw [bi]; obtain ⟨p, hp⟩ := bd; rw [hp]; simp [diagOf, bx ▸ hx])
    obtain ⟨-, -, -, -, dr, ds, dx, dn, d0, -⟩ := dataLoop_keeps frameBits b
    have dk := dataLoop_clk frameBits b (by decide)
    generalize dataLoop frameBits b = d at hq hD dr ds dx dn d0 dk
    have hdd : ∃ p, d.2.diag = diagOf s ⟨p, BitVec.ofNat 8 q, 0#4, 0#4⟩ := by
      obtain ⟨p, hp⟩ := bd
      refine ⟨p, ?_⟩
      by_cases hx : s.seq.ctx = .top <;> simp [hq, bi, diagOf, bx, hx, hp]
    rcases hD with ⟨h2, rfl, dg, dw⟩ | ⟨h2, hlt, dg, -, dw⟩
    · simp only [h2, Bool.not_true, Bool.false_eq_true, if_false]
      set t := beginTrail latch d.2 with ht
      have tx : t.seq.ctx = s.seq.ctx := by rw [← bx, ← dx]; simp [ht, beginTrail]
      have tj : (counters t).j = 0 := by simp [ht]
      have tn : t.seq.n = trailOf s := by rw [ht, beginTrail_n, dn, bn]
      have t0 : t.seq.cfg0 = s.config.armed := by rw [← b0, ← d0]; simp [ht, beginTrail]
      have tg : t.config = s.config := by rw [← bg, ← dg]; simp [ht]
      have tr : t.raw = if latch then t.shreg else s.raw := by simp [ht, dr, br]
      have ts : t.sample = s.sample := by simp [ht, ds, bs]
      have tk : t.clk = 0#1 := by simp [ht, dk]
      have td : ∃ p, t.diag = diagOf s ⟨p, 24#8, 0#4, 0#4⟩ := by simpa [ht, frameBits] using hdd
      have tw : highWrites t.events = highWrites s.events + 24 := by
        rw [← bw]; simpa [ht, frameBits] using dw
      clear_value t
      obtain ⟨es, ek, q, eq, hE⟩ := trailLoop_outcome t.seq.n t tk (by
        intro hx; rw [tj]; obtain ⟨p, hp⟩ := td; rw [hp]; simp [diagOf, tx ▸ hx])
      obtain ⟨-, -, -, -, er, esm, -, en, e0, -⟩ := trailLoop_keeps t.seq.n t
      generalize trailLoop t.seq.n t = e at es ek eq hE er esm en e0
      have hed : ∃ p, e.2.diag = diagOf s ⟨p, 24#8, BitVec.ofNat 4 q, 0#4⟩ := by
        obtain ⟨p, hp⟩ := td
        refine ⟨p, ?_⟩
        by_cases hx : s.seq.ctx = .top <;> simp [eq, tj, diagOf, tx, hx, hp]
      rcases hE with ⟨h3, hqn, eg, ew⟩ | ⟨h3, hlt, eg, ew⟩
      · simp only [h3, Bool.not_true, Bool.false_eq_true, if_false]
        rw [hqn, tn] at hed
        have an : (armTrail e.2).config = { s.config with armed := BitVec.ofNat 2 (trailOf s) } := by
          simp [eg, tg, en, tn]
        have lsh : (latchSample latch (armTrail e.2)).shreg = e.2.shreg := by simp
        have ef : frameCode (armTrail e.2) =
            if isSentinel (latchSample latch (armTrail e.2)).shreg then .invalidSample else .ok := by
          unfold frameCode; rw [lsh, armTrail_shreg]
        refine .complete _ ef ?_ ?_ ?_ (by simpa using ek) (by simpa using hed) ?_
        · rw [lsh]
          unfold latchSample
          rw [armTrail_shreg]
          split
          · rw [an, armTrail_seq, e0, t0]
          · rw [an]
        · simp [er, tr, es]
        · rw [lsh]
          unfold latchSample
          rw [armTrail_shreg]
          split
          · rfl
          · rw [armTrail_sample, esm, ts]
        · simp only [latchSample_events, armTrail_events, ew, tw, tn]
      · simp only [h3, Bool.not_false, if_true]
        exact .trailTrip q (tn ▸ hlt) (by rw [eg, tg]) (by rw [er, tr, es]) (by rw [esm, ts]) ek hed
          (by rw [ew, tw])
    · simp only [h2, Bool.not_false, if_true]
      exact .dataTrip q hlt (by rw [dg, bg]) (by rw [dr, br]) (by rw [ds, bs]) dk hdd (by rw [dw,
          bw])
  · have h1' : r.1 = false := by simpa using h1
    simp only [h1', Bool.not_false, if_true]
    refine .notReady kc kr ks kk kg ?_ kw
    have hr := hP.2 h1'
    unfold diagOf; split
    · next hx => rw [hP.1 (kx.trans hx), hr, ht, Nat.zero_add]
    · next hx =>
      refine kd ?_
      cases h : s.seq.ctx
      · exact absurd h hx
      · rfl

/-- A top-level cycle has begun: DIAG is clear and no readiness sample has been taken. -/
theorem beginCycle_top_diag (s : State) : (beginCycle .top s).diag = .zero := rfl

end Sys2Proof.Machine
end

