-- ==== Sys2Proof/Laws/Bounds.lean ====
section
/-!
SUPPORT. The counters and DIAG stay within their bounds through the phases of a cycle (10_state.md R32, R44).
-/

namespace Sys2Proof.Machine

/-- The counters, the loop counters and DIAG are within their bounds (`SequencerSound` without its program
point). -/
structure Bounded (s : State) : Prop where
  top : s.seq.top.inRange s.params
  sub : s.seq.sub.inRange s.params
  loops : s.seq.k ≤ maxLoop s.params ∧ s.seq.v ≤ s.seq.k
  diag : DiagInRange s

theorem Bounded.counters {s : State} (h : Bounded s) : (counters s).inRange s.params := by
  unfold Machine.counters; split
  · exact h.top
  · exact h.sub

theorem Bounded.setCounters {s : State} (h : Bounded s) {c : Counters}
    (hc : c.inRange s.params) : Bounded (setCounters c s) := by
  unfold Machine.setCounters; split
  · exact ⟨hc, h.sub, h.loops, h.diag⟩
  · exact ⟨h.top, hc, h.loops, h.diag⟩

theorem Bounded.noteDiag {s : State} (h : Bounded s) {d : Diag}
    (hd : d.polls.toNat ≤ s.params.readyMaxTries ∧ d.bitcnt.toNat ≤ frameBits ∧
    d.trailcnt.toNat ≤ 3 ∧ d.recValid.toNat ≤ maxLoop s.params) : Bounded (noteDiag d s) := by
  unfold Machine.noteDiag; split
  · exact ⟨h.top, h.sub, h.loops, hd⟩
  · exact h

theorem ofNat_le (w n : Nat) : (BitVec.ofNat w n).toNat ≤ n := by
  simp [Nat.mod_le]

theorem Bounded.env {s : State} (h : Bounded s) : Bounded (readData s).2 ∧ Bounded (now s).2 ∧
    (∀ v, Bounded (setClk v s)) ∧ (∀ d, Bounded (sleep d s)) ∧ Bounded (disarm s) ∧
    Bounded (armTrail s) ∧ (∀ p, Bounded (goTo p s)) :=
  ⟨⟨h.1,h.2,h.3,h.4⟩,⟨h.1,h.2,h.3,h.4⟩,fun _ => ⟨h.1,h.2,h.3,h.4⟩,fun _ => ⟨h.1,h.2,h.3,h.4⟩,⟨h.1,h.2,h.3,h.4⟩,⟨h.1,h.2,h.3,h.4⟩,fun _ => ⟨h.1,h.2,h.3,h.4⟩⟩

theorem Bounded.pulse {s : State} (h : Bounded s) : Bounded (pulse s).2 := ⟨h.1,h.2,h.3,h.4⟩

theorem Bounded.pollDone {s : State} (h : Bounded s)
    (ht : (Machine.counters s).tries < s.params.readyMaxTries) : Bounded (pollDone s) := by
  have hc := h.counters
  unfold Machine.pollDone
  apply Bounded.noteDiag (h.setCounters (c := { Machine.counters s with tries := (Machine.counters s).tries + 1 }) ⟨ht, hc.2⟩)
  simp only [setCounters_params]
  exact ⟨(ofNat_le _ _).trans ht, h.diag.2⟩

theorem Bounded.bitDone {s : State} (b : Level) (h : Bounded s)
    (ht : (Machine.counters s).i < frameBits) : Bounded (bitDone b s) := by
  have hc := h.counters
  unfold Machine.bitDone
  have h' : Bounded { s with shreg := shiftIn s.shreg b } := ⟨h.1,h.2,h.3,h.4⟩
  have := h'.setCounters (c := { Machine.counters s with i := (Machine.counters s).i + 1 }) ⟨hc.1,
      ht, hc.2.2⟩
  apply Bounded.noteDiag this
  simp only [setCounters_params]
  exact ⟨h.diag.1, (ofNat_le _ _).trans ht, h.diag.2.2⟩

theorem Bounded.trailDone {s : State} (h : Bounded s)
    (ht : (Machine.counters s).j < 3) : Bounded (trailDone s) := by
  have hc := h.counters
  unfold Machine.trailDone
  apply Bounded.noteDiag (h.setCounters (c := { Machine.counters s with j := (Machine.counters s).j + 1 }) ⟨hc.1, hc.2.1, ht⟩)
  simp only [setCounters_params]
  exact ⟨h.diag.1, h.diag.2.1, (ofNat_le _ _).trans ht, h.diag.2.2.2⟩

theorem Bounded.beginData {s : State} (h : Bounded s) : Bounded (beginData s) := by
  have hc := h.counters
  unfold Machine.beginData
  have h' : Bounded { s with seq.cfg0 := s.config.armed, seq.n := trailOf s, shreg := 0#24 } :=
      ⟨h.1,h.2,h.3,h.4⟩
  exact h'.setCounters ⟨hc.1, by simp, hc.2.2⟩

theorem Bounded.beginTrail {s : State} (l : Bool) (h : Bounded s) : Bounded (beginTrail l s) := by
  have hc := h.counters
  unfold Machine.beginTrail
  have h' : Bounded { s with raw := if l then s.shreg else s.raw } := ⟨h.1,h.2,h.3,h.4⟩
  exact h'.setCounters ⟨hc.1, hc.2.1, by simp⟩

theorem Bounded.beginCycle {s : State} (c : Ctx) (h : Bounded s) : Bounded (beginCycle c s) := by
  have h1 : Bounded (setCtx c s) := ⟨h.1,h.2,h.3,h.4⟩
  have h2 := h1.noteDiag (d := .zero) ⟨Nat.zero_le _,Nat.zero_le _,Nat.zero_le _,Nat.zero_le _⟩
  have hc := h2.counters
  exact h2.setCounters ⟨by simp, hc.2⟩

theorem Bounded.latch {s : State} (l : Bool) (h : Bounded s) : Bounded (latchSample l s) := by
  unfold latchSample; split
  · exact ⟨h.1,h.2,h.3,h.4⟩
  · exact h

theorem Bounded.pollLoop (m : Nat) {s : State} (h : Bounded s)
    (ht : (Machine.counters s).tries + m ≤ s.params.readyMaxTries) : Bounded (pollLoop m s).2 := by
  induction m generalizing s with
  | zero => exact h
  | succ m ih =>
    have h1 : Bounded (Machine.pollDone (readData s).2) := h.env.1.pollDone (by simp; omega)
    simp only [Machine.pollLoop]
    split
    · exact h1
    · exact ih (h1.env.2.2.2.1 _) (by simp; omega)

theorem Bounded.dataLoop (m : Nat) {s : State} (h : Bounded s)
    (ht : (Machine.counters s).i + m ≤ frameBits) : Bounded (dataLoop m s).2 := by
  induction m generalizing s with
  | zero => exact h
  | succ m ih =>
    simp only [Machine.dataLoop]
    split
    · exact h.pulse.env.2.2.2.2.1
    · exact ih (h.pulse.env.1.bitDone _ (by simp; omega)) (by simp; omega)

theorem Bounded.trailLoop (m : Nat) {s : State} (h : Bounded s)
    (ht : (Machine.counters s).j + m ≤ 3) : Bounded (trailLoop m s).2 := by
  induction m generalizing s with
  | zero => exact h
  | succ m ih =>
    simp only [Machine.trailLoop]
    split
    · exact h.pulse.env.2.2.2.2.1
    · exact ih (h.pulse.trailDone (by simp; omega)) (by simp; omega)

theorem Bounded.cycleBody (l : Bool) {s : State} (h : Bounded s)
    (ht : (Machine.counters s).tries = 0) : Bounded (cycleBody l s).2 := by
  have h1 := h.pollLoop s.params.readyMaxTries (by omega)
  have h2 := h1.beginData.dataLoop frameBits (by simp)
  simp only [Machine.cycleBody]
  split
  · exact h1
  split
  · exact h2
  have h3 := (h2.beginTrail l).trailLoop (Machine.beginTrail l (Machine.dataLoop frameBits (Machine.beginData (Machine.pollLoop s.params.readyMaxTries s).2)).2).seq.n (by
    rw [beginTrail_n, (dataLoop_locals _ _).1, beginData_n]
    have := (trailOf_pos (Machine.pollLoop s.params.readyMaxTries s).2).2
    simp; omega)
  split
  · exact h3
  · exact (h3.env.2.2.2.2.2.1).latch _

theorem subCycle_keeps (s : State) : (subCycle s).2.seq.k = s.seq.k ∧
    (subCycle s).2.seq.v = s.seq.v ∧ (subCycle s).2.params = s.params := by
  rw [subCycle_state]
  obtain ⟨a, b⟩ := (sameLoop_closed false).cycleBody (beginCycle .sub s)
  obtain ⟨c, d⟩ := beginCycle_loop .sub s
  refine ⟨a.trans c, b.trans d, ?_⟩
  have := sameRun_closed.toSubsClosed.toPhasesClosed.cycleBody (beginCycle .sub s)
  rw [this.2.1]; simp

theorem Bounded.subLoop (m : Nat) {s : State} (h : Bounded s)
    (hk : s.seq.k + m ≤ maxLoop s.params) : Bounded (subLoop m s) := by
  induction m generalizing s with
  | zero => exact h
  | succ m ih =>
    obtain ⟨a, b, c⟩ := subCycle_keeps s
    have h1 : Bounded (subCycle s).2 := by
      rw [subCycle_state]; exact (h.beginCycle .sub).cycleBody _ (by simp)
    have hl := h1.loops
    refine ih ⟨h1.top, h1.sub, ?_, h1.diag⟩ (by simp only [subDone]; rw [a, c]; omega)
    simp only [subDone]; rw [a, b, c] at *
    refine ⟨by omega, ?_⟩
    split <;> omega

theorem Bounded.beginSubs {s : State} (h : Bounded s) : Bounded (beginSubs s) := ⟨h.1, h.2,
    ⟨Nat.zero_le _, le_refl _⟩, h.4⟩

theorem Bounded.endRecovery {s : State} (h : Bounded s) : Bounded (endRecovery s) :=
  ⟨h.1, h.2, h.3, h.4.1, h.4.2.1, h.4.2.2.1, (ofNat_le _ _).trans (h.3.2.trans h.3.1)⟩

theorem Bounded.noteRecValid {s : State} (h : Bounded s) : Bounded (noteRecValid s) :=
  ⟨h.1, h.2, h.3, h.4.1, h.4.2.1, h.4.2.2.1, (ofNat_le _ _).trans (h.3.2.trans h.3.1)⟩

theorem Bounded.topCycle (l : Bool) {s : State} (h : Bounded s) : Bounded (topCycle l s).2 := by
  have h1 := (h.beginCycle .top).cycleBody l (by simp)
  simp only [Machine.topCycle]
  split
  · exact h1
  · exact (h1.beginSubs.subLoop _ (by simp [maxLoop])).endRecovery

end Sys2Proof.Machine
end

