-- ==== Sys2Proof/Laws/Encoding.lean ====
section
/-!
SUPPORT. The bits and the fields of a command word (30_encoding.md R81-R83).
-/

namespace Sys2Proof

/-- Every bit of a command word: OP in 3:0, ARG in 15:8, the rest 0 (R81). -/
theorem encode_getLsbD (i : Instr) (k : Nat) : (encode i).getLsbD k =
    if k < 4 then i.op.getLsbD k else if k < 8 then false
    else if k < 16 then i.arg.getLsbD (k - 8) else false := by
  simp only [encode, BitVec.getLsbD_setWidth, BitVec.getLsbD_append]
  by_cases h1 : k < 4
  · simp [h1]; omega
  · by_cases h2 : k < 8
    · simp [h1, h2]; omega
    · by_cases h3 : k < 16
      · have h5 : k - 4 - 4 = k - 8 := by omega
        have h6 : ¬ (k - 4 < 4) := by omega
        simp [h1, h2, h3, h5, h6]
        omega
      · have h6 : ¬ (k - 4 < 4) := by omega
        simp [h1, h2, h3, h6]
        intro
        apply BitVec.getLsbD_of_ge
        omega

theorem opField_encode (i : Instr) : opField (encode i) = i.op := by
  ext k hk
  simp only [opField, BitVec.getElem_extractLsb', encode_getLsbD]
  simp [hk]

theorem argField_encode (i : Instr) : argField (encode i) = i.arg := by
  ext k hk
  simp only [argField, BitVec.getElem_extractLsb', encode_getLsbD]
  have : ¬ (8 + k < 4) := by omega
  have : 8 + k < 16 := by omega
  simp [*]

theorem encode_high (i : Instr) : (encode i).extractLsb' 16 16 = 0#16 := by
  ext k hk
  simp only [BitVec.getElem_extractLsb', encode_getLsbD]
  have : ¬ (16 + k < 4) := by omega
  have : ¬ (16 + k < 8) := by omega
  simp [*]

theorem encode_mid (i : Instr) : (encode i).extractLsb' 4 4 = 0#4 := by
  ext k hk
  simp only [BitVec.getElem_extractLsb', encode_getLsbD]
  have : 4 + k < 8 := by omega
  simp [*]

/-- A word is its four fields (R81). -/
theorem word_ext {w v : Word} (h1 : w.extractLsb' 16 16 = v.extractLsb' 16 16)
    (h2 : w.extractLsb' 4 4 = v.extractLsb' 4 4) (h3 : opField w = opField v)
    (h4 : argField w = argField v) : w = v := by
  ext k hk
  rw [← BitVec.getLsbD_eq_getElem, ← BitVec.getLsbD_eq_getElem]
  by_cases a : k < 4
  · have := congrArg (fun x => x.getLsbD k) h3
    simpa [opField, a] using this
  by_cases b : k < 8
  · have := congrArg (fun x => x.getLsbD (k - 4)) h2
    simpa [show 4 + (k - 4) = k by omega, show k - 4 < 4 by omega] using this
  by_cases c : k < 16
  · have := congrArg (fun x => x.getLsbD (k - 8)) h4
    simpa [argField, show 8 + (k - 8) = k by omega, show k - 8 < 8 by omega] using this
  · have := congrArg (fun x => x.getLsbD (k - 16)) h1
    simpa [show 16 + (k - 16) = k by omega, show k - 16 < 16 by omega] using this

/-- The lanes of a word, put together, are the word (20_memory.md R64). -/
theorem wordOfLanes_byteLane (w : Word) :
    wordOfLanes (byteLane 0 w) (byteLane 1 w) (byteLane 2 w) (byteLane 3 w) = w := by
  ext k hk
  rw [← BitVec.getLsbD_eq_getElem, ← BitVec.getLsbD_eq_getElem]
  simp only [wordOfLanes, byteLane, BitVec.getLsbD_setWidth, BitVec.getLsbD_append,
    BitVec.getLsbD_extractLsb']
  by_cases h1 : k < 8
  · simp [h1, hk]
  by_cases h2 : k < 16
  · have : k - 8 < 8 := by omega
    simp [h1, hk, this, show 8 + (k - 8) = k by omega]
  by_cases h3 : k < 24
  · simp [h1, hk, show ¬ (k - 8 < 8) by omega, show (k - 8 - 8 < 8) by omega,
      show 16 + (k - 8 - 8) = k by omega]
  · simp [h1, hk, show ¬ (k - 8 < 8) by omega, show ¬ (k - 8 - 8 < 8) by omega,
      show (k - 8 - 8 - 8 < 8) by omega, show 24 + (k - 8 - 8 - 8) = k by omega]

end Sys2Proof
end

