-- ==== Sys2Proof/Laws/TopCycle.lean ====
section
/-!
SUPPORT. What a top-level cycle, the loops of sub-cycles and the settle read can do, said once.
-/

namespace Sys2Proof.Machine

/-- What a top-level cycle leaves alone (40_read_cycle.md R120). -/
def TopKeeps (s t : State) : Prop := t.status = s.status ∧ t.cmdOp = s.cmdOp ∧
    t.cmdArg = s.cmdArg ∧ t.params = s.params ∧ t.rst = s.rst ∧ t.bus = s.bus ∧ t.reads = s.reads ∧
    t.config.channel = s.config.channel ∧ t.config.gainA = s.config.gainA

theorem topKeeps_closed : TopClosed TopKeeps where
  refl _ := by simp [TopKeeps]
  trans h1 h2 := by
    obtain ⟨a, b, c, d, e, f, g, h, i⟩ := h1
    obtain ⟨a', b', c', d', e', f', g', h', i'⟩ := h2
    exact ⟨a'.trans a, b'.trans b, c'.trans c, d'.trans d, e'.trans e, f'.trans f, g'.trans g,
        h'.trans h, i'.trans i⟩
  readData _ := by simp [TopKeeps]
  now _ := by simp [TopKeeps]
  setClk _ _ := by simp [TopKeeps]
  sleep _ _ := by simp [TopKeeps]
  pollDone _ := by simp [TopKeeps]
  beginData _ := by simp [TopKeeps]
  bitDone _ _ := by simp [TopKeeps]
  beginTrail _ := by simp [TopKeeps]
  trailDone _ := by simp [TopKeeps]
  disarm _ := by simp [TopKeeps]
  armTrail _ := by simp [TopKeeps]
  latchSample s := by simp [TopKeeps]; unfold latchSample; simp
  beginSubs _ := by simp [TopKeeps]
  beginSub _ := by simp [TopKeeps]
  subDone _ _ := by simp [TopKeeps]
  beginTop _ := by simp [TopKeeps]
  endRecovery _ := by simp [TopKeeps]
  beginTrailTop _ _ := by simp [TopKeeps]
  latchSampleTop l s := by simp [TopKeeps]; unfold latchSample; split <;> exact ⟨rfl, rfl⟩

/-- A cycle that does not latch writes no result register (40_read_cycle.md R122). -/
theorem resultsKept_closed : SubsClosed (fun s t => t.raw = s.raw ∧ t.sample = s.sample ∧
    t.config.sampleCfg = s.config.sampleCfg) where
  refl _ := by simp
  trans h1 h2 := ⟨h2.1.trans h1.1, h2.2.1.trans h1.2.1, h2.2.2.trans h1.2.2⟩
  readData _ := by simp
  now _ := by simp
  setClk _ _ := by simp
  sleep _ _ := by simp
  pollDone _ := by simp
  beginData _ := by simp
  bitDone _ _ := by simp
  beginTrail _ := by simp
  trailDone _ := by simp
  disarm _ := by simp
  armTrail _ := by simp
  latchSample s := by unfold latchSample; simp
  beginSubs _ := by simp
  beginSub _ := by simp
  subDone _ _ := by simp

theorem trailOf_eq {s t : State} (h1 : t.config.channel = s.config.channel)
    (h2 : t.config.gainA = s.config.gainA) : trailOf t = trailOf s := by
  simp [trailOf, h1, h2]

/-- How a top-level cycle started in `s` ends: with code `c` in state `t` (40_read_cycle.md R121-R124). -/
def TopEnd (latch : Bool) (s t : State) (c : Code) : Prop :=
  (c = .notReady ∧ t.config = s.config ∧ t.raw = s.raw ∧ t.sample = s.sample ∧ t.clk = s.clk ∧
      t.shreg = s.shreg ∧
     t.diag = ⟨BitVec.ofNat 8 s.params.readyMaxTries, 0#8, 0#4, 0#4⟩ ∧
         highWrites t.events = highWrites s.events) ∨
  (c = .timingViolation ∧ ∃ p q, q < 24 ∧ t.config = { s.config with armed := 0#2 } ∧
      t.raw = s.raw ∧ t.sample = s.sample ∧ t.clk = 0#1 ∧
     t.diag = ⟨p, BitVec.ofNat 8 q, 0#4, 0#4⟩ ∧ highWrites t.events = highWrites s.events + q + 1) ∨
  (∃ p q v, c = recoveryCode v ∧ q < trailOf s ∧ v ≤ s.params.recoveryReads ∧ t.sample = s.sample ∧
      t.clk = 0#1 ∧ t.config.sampleCfg = s.config.sampleCfg ∧ t.diag = ⟨p, 24#8, BitVec.ofNat 4 q,
      BitVec.ofNat 4 v⟩ ∧ (t.config.armed = 0#2 ∨ t.config.armed = BitVec.ofNat 2 (trailOf s)) ∧
      (latch = false → t.raw = s.raw)) ∨
  (c = (if isSentinel t.shreg then .invalidSample else .ok) ∧ ∃ p, t.config = { s.config with
        armed := BitVec.ofNat 2 (trailOf s),
        sampleCfg := if latch && !isSentinel t.shreg then s.config.armed else s.config.sampleCfg } ∧
      t.raw = (if latch then t.shreg else s.raw)
      ∧ t.sample = (if latch && !isSentinel t.shreg then deliver t.shreg else s.sample) ∧
          t.clk = 0#1 ∧ t.diag = ⟨p, 24#8, BitVec.ofNat 4 (trailOf s), 0#4⟩ ∧
          highWrites t.events = highWrites s.events + 24 + trailOf s)

/-- ARMED is kept, cleared, or the trailing count in force; a low clock stays low (10_state.md R41, R123). -/
def ArmOk (s t : State) : Prop := t.config.channel = s.config.channel ∧
    t.config.gainA = s.config.gainA ∧ (s.clk = 0#1 → t.clk = 0#1) ∧
    (t.config.armed = s.config.armed ∨ t.config.armed = 0#2 ∨
    t.config.armed = BitVec.ofNat 2 (trailOf s))

theorem ArmOk.trans {s t u : State} (h1 : ArmOk s t) (h2 : ArmOk t u) : ArmOk s u := by
  obtain ⟨a, b, k, c⟩ := h1; obtain ⟨a', b', k', c'⟩ := h2
  refine ⟨a'.trans a, b'.trans b, k' ∘ k, ?_⟩
  rw [trailOf_eq a b] at c'
  rcases c' with h | h | h
  · rw [h]; exact c
  · exact .inr (.inl h)
  · exact .inr (.inr h)

theorem subCycle_arm (s : State) : ArmOk s (subCycle s).2 := by
  rw [subCycle_state]
  have h := cycleBody_outcome false (beginCycle .sub s) (by simp) (by simp)
  have hb : ArmOk s (beginCycle .sub s) := ⟨by simp, by simp, by simp, .inl (by simp)⟩
  refine hb.trans ?_
  generalize beginCycle .sub s = b at *
  generalize cycleBody false b = r at *
  obtain ⟨e, t⟩ := r
  cases h with
  | notReady config raw sample clk shreg diag pulses => exact ⟨by rw [config], by rw [config],
      by rw [clk]; exact id, .inl (by rw [config])⟩
  | dataTrip q lt config raw sample clk diag pulses => exact ⟨by rw [config], by rw [config],
      fun _ => clk, .inr (.inl (by rw [config]))⟩
  | trailTrip q lt config raw sample clk diag pulses => exact ⟨by rw [config], by rw [config],
      fun _ => clk, .inr (.inl (by rw [config]))⟩
  | complete c code config raw sample clk diag pulses => exact ⟨by rw [config], by rw [config],
      fun _ => clk, .inr (.inr (by rw [config]))⟩

theorem subLoop_arm (m : Nat) (s : State) : ArmOk s (subLoop m s) := by
  induction m generalizing s with
  | zero => exact ⟨rfl, rfl, id, .inl rfl⟩
  | succ m ih =>
    have : ArmOk (subCycle s).2 (subDone (subCycle s).1 (subCycle s).2) := ⟨rfl, rfl, id, .inl rfl⟩
    exact ((subCycle_arm s).trans this).trans (ih _)

/-- A loop of `m` sub-cycles counts at most `m` valid ones (R119). -/
theorem subLoop_v (m : Nat) (s : State) : (subLoop m s).seq.v ≤ s.seq.v + m := by
  induction m generalizing s with
  | zero => exact Nat.le_refl _
  | succ m ih =>
    have h := ih (subDone (subCycle s).1 (subCycle s).2)
    have : (subDone (subCycle s).1 (subCycle s).2).seq.v ≤ s.seq.v + 1 := by
      have : (subCycle s).2.seq.v = s.seq.v := by
        rw [subCycle_state]; exact ((sameLoop_closed false).cycleBody _).2.trans (beginCycle_loop .sub s).2
      simp only [subDone, this]; split <;> omega
    simp only [subLoop]; omega

/-- Sub-cycles write no DIAG (R124). -/
theorem subLoop_diag (m : Nat) (s : State) : (subLoop m s).diag = s.diag := by
  induction m generalizing s with
  | zero => rfl
  | succ m ih =>
    simp only [subLoop, ih]
    rw [subDone_diag, subCycle_state]
    have h := cycleBody_outcome false (beginCycle .sub s) (by simp) (by simp)
    have hb : (beginCycle .sub s).diag = s.diag := rfl
    have hx : (beginCycle .sub s).seq.ctx = .sub := beginCycle_ctx _ _
    rw [← hb]
    generalize beginCycle .sub s = b at *
    generalize cycleBody false b = r at *
    obtain ⟨e, t⟩ := r
    cases h with
    | notReady config raw sample clk shreg diag pulses => rw [diag]; simp [diagOf, hx]
    | dataTrip q lt config raw sample clk diag pulses =>
      obtain ⟨p, diag⟩ := diag
      rw [diag]; simp [diagOf, hx]
    | trailTrip q lt config raw sample clk diag pulses =>
      obtain ⟨p, diag⟩ := diag
      rw [diag]; simp [diagOf, hx]
    | complete c code config raw sample clk diag pulses =>
      obtain ⟨p, diag⟩ := diag
      rw [diag]; simp [diagOf, hx]

/-- How a top-level cycle ends, whatever the environment answers. -/
theorem topCycle_end (latch : Bool)
    (s : State) : TopEnd latch s (topCycle latch s).2 (topCycle latch s).1 := by
  have h := cycleBody_outcome latch (beginCycle .top s) (by simp) (fun _ => rfl)
  have hpar : (cycleBody latch (beginCycle .top s)).2.params = s.params := by
    rw [(((sameRun_closed.phases latch).cycleBody (beginCycle .top s))).2.1]; simp
  have hb : (beginCycle .top s).config = s.config ∧ (beginCycle .top s).raw = s.raw ∧
      (beginCycle .top s).sample = s.sample ∧ (beginCycle .top s).clk = s.clk ∧
      (beginCycle .top s).shreg = s.shreg ∧ (beginCycle .top s).params = s.params ∧
      (beginCycle .top s).events = s.events ∧ trailOf (beginCycle .top s) = trailOf s ∧
      (beginCycle .top s).seq.ctx = .top := by simp [trailOf]
  simp only [topCycle]
  generalize beginCycle .top s = b at *
  generalize cycleBody latch b = r at *
  obtain ⟨b1, b2, b3, b4, b5, b6, b7, b8, b9⟩ := hb
  obtain ⟨e, t⟩ := r
  unfold TopEnd
  cases h with
  | notReady config raw sample clk shreg diag pulses =>
    left; simp only [diagOf, b9, if_true] at diag
    exact ⟨rfl, by rw [config, b1], by rw [raw, b2], by rw [sample, b3], by rw [clk, b4],
        by rw [shreg, b5], by rw [diag, b6], by rw [pulses, b7]⟩
  | dataTrip q lt config raw sample clk diag pulses =>
    right; left; obtain ⟨p, diag⟩ := diag; simp only [diagOf, b9, if_true] at diag
    exact ⟨rfl, p, q, lt, by rw [config, b1], by rw [raw, b2], by rw [sample, b3], clk, diag,
        by rw [pulses, b7]⟩
  | trailTrip q lt config raw sample clk diag pulses =>
    right; right; left; obtain ⟨p, diag⟩ := diag; simp only [diagOf, b9, if_true] at diag
    dsimp only at *
    have hv := subLoop_v t.params.recoveryReads (beginSubs t)
    have ha := subLoop_arm t.params.recoveryReads (beginSubs t)
    have hd := subLoop_diag t.params.recoveryReads (beginSubs t)
    have hk := resultsKept_closed.subLoop t.params.recoveryReads (beginSubs t)
    refine ⟨p, q, _, rfl, by omega, ?_, ?_, ?_, ?_, ?_, ?_, ?_⟩
    · simp only [← hpar]; simpa using hv
    · simp [recoverTop, hk.2.1, sample, b3]
    · simp [recoverTop]; exact ha.2.2.1 (by simpa using clk)
    · simp [recoverTop, hk.2.2, config, b1]
    · simp [recoverTop, hd, diag]
    · have := ha.2.2.2
      simp only [beginSubs_config, config] at this
      have ht : trailOf (beginSubs t) = trailOf s := trailOf_eq (by simp [config, b1])
          (by simp [config, b1])
      rw [ht] at this
      simp [recoverTop]; tauto
    · intro hl; simp [recoverTop, hk.1, raw, hl, b2]
  | complete c code config raw sample clk diag pulses =>
    right; right; right; obtain ⟨p, diag⟩ := diag; simp only [diagOf, b9, if_true] at diag
    exact ⟨code, p, by rw [config, b1, b8], by rw [raw, b2], by rw [sample, b3], clk, by rw [diag,
        b8], by rw [pulses, b7, b8]⟩

theorem settle_armed (s : State) :
    ((topCycle false s).1 = .ok ∨
        (topCycle false s).1 = .invalidSample → (topCycle false s).2.config.armed = BitVec.ofNat 2 (trailOf (topCycle false s).2)) ∧
    ((topCycle false s).1 = .notReady → (topCycle false s).2.config.armed = s.config.armed) := by
  have h := topCycle_end false s
  have hk := topKeeps_closed.topCycle false s
  rw [trailOf_eq hk.2.2.2.2.2.2.2.1 hk.2.2.2.2.2.2.2.2]
  generalize topCycle false s = r at *
  obtain ⟨c, t⟩ := r
  rcases h with ⟨rfl, h1, -⟩ | ⟨rfl, p, q, -⟩ | ⟨p, q, v, rfl, -⟩ | ⟨hc, p, h1, -⟩
  · dsimp only at *; simp [h1]
  · simp
  · unfold recoveryCode; split <;> simp
  · dsimp only at *; refine ⟨fun _ => by rw [h1], ?_⟩
    rw [hc]; split <;> simp

theorem topCycle_noLatch (s : State) : (topCycle false s).2.raw = s.raw ∧
    (topCycle false s).2.sample = s.sample ∧
    (topCycle false s).2.config.sampleCfg = s.config.sampleCfg := by
  have h1 := resultsKept_closed.trans (s := s) (t := beginCycle .top s) (by simp)
      (resultsKept_closed.toPhasesClosed.cycleBody _)
  simp only [Machine.topCycle]
  split
  · exact h1
  · have h2 := resultsKept_closed.trans (resultsKept_closed.trans h1 (resultsKept_closed.beginSubs _)) (resultsKept_closed.subLoop (cycleBody false (beginCycle .top s)).2.params.recoveryReads _)
    simpa [recoverTop] using h2

/-- What the settle read and its delay leave, and the code they report (41_config.md R151, R152). -/
theorem settle_keeps (s : State) : ∃ c, c.isCycleCode = true ∧
    (settle s).status = { s.status with settleCode := c } ∧ (settle s).cmdOp = s.cmdOp ∧
    (settle s).cmdArg = s.cmdArg ∧ (settle s).params = s.params ∧ (settle s).rst = s.rst ∧
    (settle s).bus = s.bus ∧ (settle s).reads = s.reads ∧
    (settle s).config.channel = s.config.channel ∧ (settle s).config.gainA = s.config.gainA ∧
  (settle s).raw = s.raw ∧ (settle s).sample = s.sample ∧
      (settle s).config.sampleCfg = s.config.sampleCfg ∧
  (settle s).events.head? = some (.sleep s.params.tSettleNs) ∧
  (c = .ok ∨ c = .invalidSample → (settle s).config.armed = BitVec.ofNat 2 (trailOf (settle s))) ∧
    (c = .notReady → (settle s).config.armed = s.config.armed) := by
  have h := topKeeps_closed.topCycle false s
  have hc := topCycle_code false s
  have hf := topCycle_noLatch s
  have ha := settle_armed s
  simp only [settle]
  generalize topCycle false s = r at *
  obtain ⟨a, b, c', d, e, f, g, h, i⟩ := h
  exact ⟨r.1, hc, by simp [a], b, c', d, e, f, g, h, i, hf.1, hf.2.1, hf.2.2, by simp [d], ha.1,
      ha.2⟩

/-- The settle read keeps the configuration; ARMED as R123 says. -/
theorem settle_arm (s : State) : (settle s).config.channel = s.config.channel ∧
    (settle s).config.gainA = s.config.gainA ∧ ((settle s).config.armed = s.config.armed ∨
    (settle s).config.armed = 0#2 ∨ (settle s).config.armed = BitVec.ofNat 2 (trailOf s)) := by
  have h := topCycle_end false s
  have hk := topKeeps_closed.topCycle false s
  simp only [settle]
  generalize topCycle false s = r at *
  obtain ⟨c, t⟩ := r
  simp only [sleep_config, setSettleCode_config]
  refine ⟨hk.2.2.2.2.2.2.2.1, hk.2.2.2.2.2.2.2.2, ?_⟩
  rcases h with ⟨rfl, h1, -⟩ | ⟨rfl, p, q, -, h1, -⟩ | ⟨p, q, v, rfl, -, -, -, -, -, -, h1,
      -⟩ | ⟨hc, p, h1, -⟩
  · exact .inl (by rw [h1])
  · exact .inr (.inl (by rw [h1]))
  · exact .inr h1
  · exact .inr (.inr (by rw [h1]))

end Sys2Proof.Machine
end

