-- ==== Sys2Proof/Laws/Frames.lean ====
section
/-!
SUPPORT. Cycles of a ready chip whose pulses all pass the guard: the frame on the line is the frame in SHREG.
-/

namespace Sys2Proof.Machine

theorem shiftIn_getLsbD (r : Frame) (b : Level) (k : Nat)
    (hk : k < 24) : (shiftIn r b).getLsbD k = if k = 0 then b.getLsbD 0 else r.getLsbD (k-1) := by
  simp only [shiftIn, BitVec.getLsbD_setWidth, BitVec.getLsbD_append]
  by_cases h : k = 0
  · simp [h]
  · have : ¬ k < 1 := by omega
    simp [h, hk]
    omega

theorem foldl_shiftIn_getLsbD (bits : List Level) (r : Frame) (k : Nat) (hk : k < 24) :
  (bits.foldl shiftIn r).getLsbD k = if k < bits.length then (bits.getD (bits.length - 1 - k) 0#1).getLsbD 0 else r.getLsbD (k - bits.length) := by
  induction bits generalizing r with
  | nil => simp
  | cons b bs ih =>
    simp only [List.foldl_cons, List.length_cons]
    rw [ih]
    by_cases h : k < bs.length
    · simp only [h, show k < bs.length + 1 by omega, if_true,
        show bs.length + 1 - 1 - k = (bs.length - 1 - k) + 1 by omega, List.getD_cons_succ]
    · simp only [h, if_false]
      rw [shiftIn_getLsbD _ _ _ (by omega)]
      by_cases h2 : k = bs.length
      · simp [h2]
      · simp [show ¬ (k - bs.length = 0) by omega, show ¬ (k < bs.length + 1) by omega, Nat.sub_sub]

/-- The 24 data samples of a frame, shifted in, give the frame (30_encoding.md R89). -/
theorem frameLevels_fold (x r : Frame) : (frameLevels x).foldl shiftIn r = x := by
  ext k hk
  rw [← BitVec.getLsbD_eq_getElem, ← BitVec.getLsbD_eq_getElem, foldl_shiftIn_getLsbD _ _ _ hk]
  have : (frameLevels x).length = 24 := by simp [frameLevels]
  rw [this, if_pos hk]
  simp only [frameLevels, List.getD_eq_getElem?_getD, List.getElem?_map]
  rw [List.getElem?_range (by omega)]
  simp [show 23 - (23 - k) = k by omega]

/-- ... and 24 samples are those of the frame they give. -/
theorem frameLevels_foldl (bits : List Level) (h : bits.length = 24) (r : Frame) :
    frameLevels (bits.foldl shiftIn r) = bits := by
  apply List.ext_getElem
  · simp [frameLevels, h]
  · intro n h1 h2
    simp only [frameLevels, List.getElem_map, List.getElem_range]
    ext k hk
    obtain rfl : k = 0 := by omega
    rw [← BitVec.getLsbD_eq_getElem, BitVec.getLsbD_extractLsb',
      foldl_shiftIn_getLsbD _ _ _ (by omega)]
    have : 23 - (23 - n) = n := by omega
    simp [h, show 23 - n < 24 by omega, this, List.getElem?_eq_getElem h2]

/-- The phases of a cycle with a ready chip and fast pulses (40_read_cycle.md R120). -/
theorem cycleBody_frame (latch : Bool) (s : State) (m : Nat) (x : Frame) (ps : List (Nat × Nat))
    (L : List Level) (D : List Nat)
    (ht : (counters s).tries = 0) (hd : s.seq.ctx = .top → s.diag = .zero)
    (hm : m < s.params.readyMaxTries)
    (hl : s.env.levels = readyLevels m x ++ L) (hde : s.env.deltas = pulseDeltas ps ++ D)
    (hn : ps.length = 24 + trailOf s) (hp : allPass s.params ps) :
    (cycleBody latch s).1 = .code (if isSentinel x then .invalidSample else .ok) ∧
    (cycleBody latch s).2.shreg = x ∧ (cycleBody latch s).2.env.levels = L ∧
        (cycleBody latch s).2.env.deltas = D ∧ (cycleBody latch s).2.env.draws = s.env.draws ∧
    (cycleBody latch s).2.diag = diagOf s ⟨BitVec.ofNat 8 (m+1), 24#8, BitVec.ofNat 4 (trailOf s),
        0#4⟩ := by
  obtain ⟨p1, p2, p3, p4⟩ :=
      pollLoop_ready m s.params.readyMaxTries s (frameLevels x ++ L) hm (by simpa [readyLevels] using hl)
  obtain ⟨kp, kk, kg, kc, kr, ks, kx, -, -, kw⟩ := pollLoop_keeps s.params.readyMaxTries s
  simp only [cycleBody]
  generalize pollLoop s.params.readyMaxTries s = r at *
  simp only [p1, Bool.not_true, Bool.false_eq_true, if_false]
  have hx24 : (frameLevels x).length = frameBits := by simp [frameLevels, frameBits]
  obtain ⟨ps1, ps2, rfl, h24⟩ : ∃ a b, ps = a ++ b ∧ a.length = 24 := ⟨ps.take 24, ps.drop 24,
      by simp, by simp; omega⟩
  have hps2 : ps2.length = trailOf s := by simp at hn; omega
  have hpd : pulseDeltas (ps1 ++ ps2) = pulseDeltas ps1 ++ pulseDeltas ps2 := by simp [pulseDeltas]
  have d := dataLoop_script (frameLevels x) ps1 (beginData r.2) L (pulseDeltas ps2 ++ D)
    (by simp [p2]) (by simp [p2, hde, hpd]) (by simp [h24, hx24, frameBits])
        (by intro q hq; simp only [beginData_params, kp]; exact hp q (by simp [hq]))
  rw [hx24] at d
  obtain ⟨d1, d2, d3, d4, d5, d6, d7, d8, d9, d10⟩ := d
  have dn := (dataLoop_locals frameBits (beginData r.2)).1
  have dx := (dataLoop_keeps frameBits (beginData r.2)).2.2.2.2.2.2.1
  have dp := (dataLoop_keeps frameBits (beginData r.2)).1
  replace d9 := d9 (by decide)
  generalize hb : dataLoop frameBits (beginData r.2) = b at *
  simp only [d1, Bool.not_true, Bool.false_eq_true, if_false]
  have bn : (beginTrail latch b.2).seq.n = ps2.length := by
    rw [beginTrail_n, dn, beginData_n, hps2]; simp [trailOf, kc]
  have e := trailLoop_script ps2 (beginTrail latch b.2) D (by simp [d3])
      (by intro q hq; simp only [beginTrail_params, dp, beginData_params,
      kp]; exact hp q (by simp [hq]))
  rw [bn]
  obtain ⟨e1, e2, e3, e4, e5, e6, e7, e8, e9, e10⟩ := e
  replace e9 := e9 (by have := (trailOf_pos s).1; omega)
  generalize trailLoop ps2.length (beginTrail latch b.2) = t at *
  simp only [e1, Bool.not_true, Bool.false_eq_true, if_false]
  have sh : t.2.shreg = x := by rw [e5]; simp [d5, frameLevels_fold]
  refine ⟨by unfold frameCode; rw [armTrail_shreg, sh], by simp [sh], by simp [e2, d2],
      by simp [e3], by simp [e4, d4, p2], ?_⟩
  simp only [latchSample_diag, armTrail_diag, e9.2, beginTrail_diag, d9.2, diagOf, beginData_diag,
      p4]
  have c1 : (beginTrail latch b.2).seq.ctx = s.seq.ctx := by rw [show (beginTrail latch b.2).seq.ctx = b.2.seq.ctx by simp [beginTrail], dx]; simp [beginData, kx]
  have c2 : (beginData r.2).seq.ctx = s.seq.ctx := by simp [beginData, kx]
  rw [c1, c2]
  by_cases hx : s.seq.ctx = .top
  · simp [hx, hd hx, hps2, ht, Diag.zero, frameBits]
  · simp [hx]

theorem topCycle_params (l : Bool) (s : State) : (topCycle l s).2.params = s.params :=
    (topKeeps_closed.topCycle l s).2.2.2.1

/-- A top-level cycle with a ready chip and fast pulses (40_read_cycle.md R120). -/
theorem topCycle_frame (latch : Bool) (s : State) (m : Nat) (x : Frame) (ps : List (Nat × Nat))
    (L : List Level) (D : List Nat)
    (hm : m < s.params.readyMaxTries)
    (hl : s.env.levels = readyLevels m x ++ L) (hde : s.env.deltas = pulseDeltas ps ++ D)
    (hn : ps.length = 24 + trailOf s) (hp : allPass s.params ps) :
    (topCycle latch s).1 = (if isSentinel x then .invalidSample else .ok) ∧ 
    (topCycle latch s).2.shreg = x ∧ (topCycle latch s).2.env.levels = L ∧
        (topCycle latch s).2.env.deltas = D ∧ (topCycle latch s).2.env.draws = s.env.draws ∧
    (topCycle latch s).2.diag = ⟨BitVec.ofNat 8 (m+1), 24#8, BitVec.ofNat 4 (trailOf s), 0#4⟩ := by
  have e : trailOf (beginCycle .top s) = trailOf s := by simp [trailOf]
  obtain ⟨h1, h2⟩ := cycleBody_frame latch (beginCycle .top s) m x ps L D (by simp) (fun _ => rfl)
      (by simpa) (by simpa) (by simpa) (by rw [e]; exact hn) (by simpa [allPass] using hp)
  simp only [topCycle]
  generalize cycleBody latch (beginCycle .top s) = r at *
  rw [h1]
  rw [e] at h2
  refine ⟨rfl, ?_⟩
  simpa [diagOf] using h2

/-- Sub-cycles that each read a frame with fast pulses (40_read_cycle.md R119, 42_power.md R174). -/
theorem subLoop_frames (ys : List Frame) (s : State) (ps : List (Nat × Nat)) (L : List Level)
    (D : List Nat)
    (hmax : 1 ≤ s.params.readyMaxTries)
    (hl : s.env.levels = ys.flatMap (readyLevels 0) ++ L) (hde : s.env.deltas = pulseDeltas ps ++ D)
    (hn : ps.length = ys.length * (24 + trailOf s)) (hp : allPass s.params ps) :
    (subLoop ys.length s).env.levels = L ∧ (subLoop ys.length s).env.deltas = D ∧
    (subLoop ys.length s).seq.v = s.seq.v + ys.countP (fun y => !isSentinel y) ∧
    (ys ≠ [] → (subLoop ys.length s).config = { s.config with armed := BitVec.ofNat 2 (trailOf s)} ∧ (subLoop ys.length s).clk = 0#1) ∧
    highWrites (subLoop ys.length s).events = highWrites s.events + ps.length := by
  induction ys generalizing s ps with
  | nil =>
    obtain rfl : ps = [] := by simpa using hn
    simp_all [subLoop, pulseDeltas]
  | cons y ys ih =>
    obtain ⟨ps1, ps2, rfl, h24⟩ : ∃ a b, ps = a ++ b ∧ a.length = 24 + trailOf s :=
        ⟨ps.take (24 + trailOf s), ps.drop (24 + trailOf s), by simp, by
      simp; rw [hn]; simp⟩
    have hpd : pulseDeltas (ps1 ++ ps2) = pulseDeltas ps1 ++ pulseDeltas ps2 := by simp [pulseDeltas]
    have e : trailOf (beginCycle .sub s) = trailOf s := by simp [trailOf]
    obtain ⟨h1, h2, h3, h4, h5, h6⟩ :=
        cycleBody_frame false (beginCycle .sub s) 0 y ps1 (ys.flatMap (readyLevels 0) ++ L)
        (pulseDeltas ps2 ++ D) (by simp) (by simp)
      (by simp; omega) (by simp [hl]) (by simp [hde, hpd]) (by rw [e]; exact h24)
          (by intro q hq; simp only [beginCycle_params]; exact hp q (by simp [hq]))
    have h := cycleBody_outcome false (beginCycle .sub s) (by simp) (by simp)
    have hs := subCycle_state s
    have hpar : (subCycle s).2.params = s.params := by
      rw [hs, (((sameRun_closed.phases false).cycleBody (beginCycle .sub s))).2.1]; simp
    have hv : (subCycle s).2.seq.v = s.seq.v := by
        rw [subCycle_state]; exact ((sameLoop_closed false).cycleBody _).2.trans (beginCycle_loop .sub s).2
    have hc : (subCycle s).1 = (if isSentinel y then .invalidSample else .ok) := by
      simp only [subCycle, h1]
    rw [h1] at h
    rw [← hs] at h h2 h3 h4 h5 h6
    simp only [List.length_cons, subLoop]
    set u := subDone (subCycle s).1 (subCycle s).2 with hu
    have hk : u.config = { s.config with armed := BitVec.ofNat 2 (trailOf s)} ∧ u.clk = 0#1 ∧
        highWrites u.events = highWrites s.events + ps1.length := by
      simp only [hu, subDone_config, subDone_clk, subDone_events]
      generalize (subCycle s).2 = t at *
      generalize hcd : (if isSentinel y = true then Code.invalidSample else Code.ok) = cd at h
      cases h with
      | notReady _ _ _ _ _ _ _ => split at hcd <;> cases hcd
      | dataTrip _ _ _ _ _ _ _ _ => split at hcd <;> cases hcd
      | complete _ code config raw sample clk diag pulses =>
        refine ⟨by rw [config, e]; simp, clk, by rw [pulses, e, h24]; simp; omega⟩
    have het : trailOf u = trailOf s := trailOf_eq (by rw [hk.1]) (by rw [hk.1])
    have huv : u.seq.v = s.seq.v + (if isSentinel y then 0 else 1) := by
      simp only [hu, subDone, hc, hv]; cases isSentinel y <;> simp
    obtain ⟨i1, i2, i3, i4, i5⟩ := ih u ps2 (by simp [hu, hpar]; exact hmax) (by simp [hu, h3])
        (by simp [hu, h4])
        (by rw [het]; simp [Nat.add_mul] at hn; omega)
        (by
          intro q hq
          simp only [hu, subDone_params, hpar]
          exact hp q (by simp [hq]))
    refine ⟨i1, i2, ?_, fun _ => ?_, ?_⟩
    · rw [i3, huv, List.countP_cons]
      cases isSentinel y
      · simp; omega
      · simp
    · by_cases hy : ys = []
      · subst hy; exact ⟨hk.1, hk.2.1⟩
      · refine ⟨?_, (i4 hy).2⟩
        rw [(i4 hy).1, hk.1, het]
    · rw [i5, hk.2.2]; simp; omega

end Sys2Proof.Machine
end

