-- ==== Sys2Proof/Laws/PerInstr.lean ====
section
/-!
SUPPORT. Statements made for every command, one lemma per constructor: a command's word has the fixed bits
of its row of spec/opcode_table.json and is a legal word.
-/

namespace Sys2Proof.Laws.TableMatch

open Sys2Proof

/-- "mask" of the command's row. -/
def mask : Instr → Word
  | .readOne => 0xFFFFFFFF#32
  | .setChannel _ => 0xFFFF00FF#32
  | .setGain _ => 0xFFFF00FF#32
  | .powerDown => 0xFFFFFFFF#32
  | .powerUp => 0xFFFFFFFF#32
  | .reset => 0xFFFFFFFF#32

/-- "match" of the command's row. -/
def pattern : Instr → Word
  | .readOne => 0x00000001#32
  | .setChannel _ => 0x00000002#32
  | .setGain _ => 0x00000003#32
  | .powerDown => 0x00000004#32
  | .powerUp => 0x00000005#32
  | .reset => 0x00000006#32

/-- The word has the row's fixed bits, and none of the conditions of 30_encoding.md R86 holds of it. -/
def Statement (i : Instr) : Prop :=
  encode i &&& mask i = pattern i ∧ wordWellFormed (encode i) = true

theorem readOne : Statement .readOne := by unfold Statement; decide

theorem setChannel (arg : Byte) : Statement (.setChannel arg) := by
  unfold Statement; revert arg; decide +kernel

theorem setGain (arg : Byte) : Statement (.setGain arg) := by
  unfold Statement; revert arg; decide +kernel

theorem powerDown : Statement .powerDown := by unfold Statement; decide

theorem powerUp : Statement .powerUp := by unfold Statement; decide

theorem reset : Statement .reset := by unfold Statement; decide

end Sys2Proof.Laws.TableMatch
end

