-- ==== Sys2Proof/Laws/Runs.lean ====
section
/-!
SUPPORT. The machine's own steps follow the engine's: with no host operation pending, during pauses, and
during a wait for BUSY = 0.
-/

namespace Sys2Proof.Machine

/-- The state with another host queue. -/
def withBus (b : List HostOp) (s : State) : State := { s with bus := b }

/-! ### No update of the engine reads or writes the host's queue -/

theorem noteDiag_withBus (d : Diag) (b : List HostOp) (s : State) :
    noteDiag d (withBus b s) = withBus b (noteDiag d s) := by
  unfold noteDiag; cases h : s.seq.ctx <;> simp [withBus, h]

theorem setCounters_withBus (c : Counters) (b : List HostOp) (s : State) :
    setCounters c (withBus b s) = withBus b (setCounters c s) := by
  unfold setCounters; cases h : s.seq.ctx <;> simp [withBus, h]

theorem latchSample_withBus (l : Bool) (b : List HostOp) (s : State) :
    latchSample l (withBus b s) = withBus b (latchSample l s) := by
  unfold latchSample
  by_cases h : (l && !isSentinel s.shreg) = true <;> simp [withBus, h]

theorem pollDone_withBus (b : List HostOp) (s : State) :
    pollDone (withBus b s) = withBus b (pollDone s) := by
  simp only [pollDone, ← setCounters_withBus, ← noteDiag_withBus]; rfl

theorem bitDone_withBus (l : Level) (b : List HostOp) (s : State) :
    bitDone l (withBus b s) = withBus b (bitDone l s) := by
  simp only [bitDone, ← setCounters_withBus, ← noteDiag_withBus]; rfl

theorem trailDone_withBus (b : List HostOp) (s : State) :
    trailDone (withBus b s) = withBus b (trailDone s) := by
  simp only [trailDone, ← setCounters_withBus, ← noteDiag_withBus]; rfl

theorem beginData_withBus (b : List HostOp) (s : State) :
    beginData (withBus b s) = withBus b (beginData s) := by
  simp only [beginData, ← setCounters_withBus]; rfl

theorem beginTrail_withBus (l : Bool) (b : List HostOp) (s : State) :
    beginTrail l (withBus b s) = withBus b (beginTrail l s) := by
  simp only [beginTrail, ← setCounters_withBus]; rfl

theorem startCycle_withBus (c : Ctx) (b : List HostOp) (s : State) :
    startCycle c (withBus b s) = withBus b (startCycle c s) := by cases c <;> rfl

theorem cycleEnded_withBus (c : Code) (b : List HostOp) (s : State) :
    cycleEnded c (withBus b s) = withBus b (cycleEnded c s) := by
  have h : (withBus b s).seq.ctx = s.seq.ctx := rfl
  have o : (withBus b s).cmdOp = s.cmdOp := rfl
  unfold cycleEnded
  rw [h, o]
  cases s.seq.ctx
  · dsimp only; split <;> rfl
  · rfl

theorem trailTripped_withBus (b : List HostOp) (s : State) :
    trailTripped (withBus b s) = withBus b (trailTripped s) := by
  have h : (withBus b s).seq.ctx = s.seq.ctx := rfl
  unfold trailTripped
  rw [h]
  cases s.seq.ctx
  · rfl
  · exact cycleEnded_withBus _ b s

/-- A choice between two updates commutes with the queue when both do. -/
theorem ite_withBus {p q : Prop} [Decidable p] [Decidable q] (h : p ↔ q) {x y x' y' : State} (b : List HostOp)
    (hx : x = withBus b x') (hy : y = withBus b y') :
    (if p then x else y) = withBus b (if q then x' else y') := by
  by_cases hq : q
  · rw [if_pos hq, if_pos (h.2 hq), hx]
  · rw [if_neg hq, if_neg (mt h.1 hq), hy]

/-- A step of the engine does the same whatever the host has queued. -/
theorem tick_withBus (b : List HostOp) (s : State) : tick (withBus b s) = withBus b (tick s) := by
  have hp : (withBus b s).seq.point = s.seq.point := rfl
  unfold tick
  rw [hp]
  cases s.seq.point <;> dsimp only
  case idle => exact ite_withBus Iff.rfl b rfl rfl
  case poll =>
    have e : pollDone (readData (withBus b s)).2 = withBus b (pollDone (readData s).2) :=
      pollDone_withBus b (readData s).2
    rw [e, beginData_withBus]
    exact ite_withBus Iff.rfl b rfl rfl
  case pollWait =>
    exact ite_withBus Iff.rfl b (cycleEnded_withBus _ b (sleep s.params.pollIntervalNs s)) rfl
  case dataStop t0 => exact ite_withBus Iff.rfl b (cycleEnded_withBus _ b (disarm (now s).2)) rfl
  case dataSample =>
    have e : bitDone (readData (withBus b s)).1 (readData (withBus b s)).2 =
        withBus b (bitDone (readData s).1 (readData s).2) := bitDone_withBus _ b (readData s).2
    rw [e, beginTrail_withBus]
    exact ite_withBus Iff.rfl b rfl rfl
  case trailStop t0 =>
    have e : trailDone (now (withBus b s)).2 = withBus b (trailDone (now s).2) :=
      trailDone_withBus b (now s).2
    rw [e]
    exact ite_withBus Iff.rfl b (trailTripped_withBus b (disarm (now s).2)) (ite_withBus Iff.rfl b rfl rfl)
  case decode => rw [latchSample_withBus, cycleEnded_withBus]; rfl
  case recover =>
    exact ite_withBus Iff.rfl b (startCycle_withBus _ b s) (cycleEnded_withBus _ b (endRecovery s))
  case pdHold => exact ite_withBus Iff.rfl b rfl rfl
  case puWait => exact ite_withBus Iff.rfl b rfl rfl
  case resetSettle => exact ite_withBus Iff.rfl b (startCycle_withBus _ b s) rfl
  all_goals rfl

theorem engineStep_withBus (b : List HostOp) (s : State) :
    engineStep (withBus b s) = withBus b (engineStep s) :=
  ite_withBus Iff.rfl b rfl (tick_withBus b s)

theorem engineSteps_withBus (b : List HostOp) (m : Nat) (s : State) :
    engineSteps m (withBus b s) = withBus b (engineSteps m s) := by
  induction m generalizing s with
  | zero => rfl
  | succ m ih => simp only [engineSteps, engineStep_withBus, ih]

/-! ### What the engine keeps -/

theorem keepsParams_closed : EngineClosed (fun s t => t.params = s.params) where
  refl _ := rfl
  trans h1 h2 := h2.trans h1
  readData _ := rfl
  now _ := rfl
  setClk _ _ := rfl
  sleep _ _ := rfl
  pollDone s := by simp
  beginData s := by simp
  bitDone b s := by simp
  beginTrail s := by simp
  trailDone s := by simp
  disarm _ := rfl
  armTrail _ := rfl
  latchSample s := by simp
  beginSubs _ := rfl
  beginSub s := by simp
  subDone _ _ := rfl
  beginTop s := by simp
  endRecovery s := by simp
  beginTrailTop l s := by simp
  latchSampleTop l s := by simp
  goTo _ _ := rfl
  accept _ _ _ := rfl
  retire _ _ := rfl
  clearDiag _ := rfl
  noteRecValid _ := rfl
  setWarn _ := rfl
  setFatal _ _ := rfl
  setSettleCode _ _ _ := rfl
  setChannel _ _ := rfl
  setGainA _ _ _ := rfl

theorem cycleEnded_busy (c : Code) (s : State) :
    (cycleEnded c s).status.busy = s.status.busy ∨ (cycleEnded c s).seq.point = .idle := by
  unfold cycleEnded
  split
  · split
    · exact .inr rfl
    · exact .inl rfl
  · exact .inl rfl

theorem trailTripped_busy (s : State) :
    (trailTripped s).status.busy = s.status.busy ∨ (trailTripped s).seq.point = .idle := by
  unfold trailTripped
  split
  · exact .inl rfl
  · exact cycleEnded_busy _ s

/-- A command in progress shows BUSY = 1 after a step of the engine, or has ended (10_state.md R38). -/
theorem engineStep_busy {s : State} (h : s.status.busy = true) :
    (engineStep s).status.busy = true ∨ (engineStep s).seq.point = .idle := by
  unfold engineStep
  split
  · exact .inl h
  · unfold tick
    cases s.seq.point <;> dsimp only
    case idle => rw [if_pos h]; exact .inl rfl
    case poll => split <;> exact .inl (by simpa using h)
    case pollWait =>
      split
      · exact (cycleEnded_busy _ _).imp_left (·.trans h)
      · exact .inl h
    case dataStop t0 =>
      split
      · exact (cycleEnded_busy _ _).imp_left (·.trans h)
      · exact .inl h
    case dataSample => split <;> exact .inl (by simpa using h)
    case trailStop t0 =>
      split
      · exact (trailTripped_busy _).imp_left (·.trans h)
      · split <;> exact .inl (by simpa using h)
    case decode => exact (cycleEnded_busy _ _).imp_left (fun e => e.trans (by simpa using h))
    case recover =>
      split
      · exact .inl (by simpa [startCycle] using h)
      · exact (cycleEnded_busy _ _).imp_left (fun e => e.trans (by simpa using h))
    case settleWait => exact .inr rfl
    case pdHold => split <;> [exact .inl h; exact .inr rfl]
    case puWait => split <;> [exact .inl h; exact .inr rfl]
    case resetSettle =>
      split
      · exact .inl (by simpa [startCycle] using h)
      · exact .inr rfl
    all_goals exact .inl h

/-- An idle block without a command stands still. -/
theorem engineSteps_idle {s : State} (hb : s.status.busy = false) (hp : s.seq.point = .idle) :
    ∀ m, engineSteps m s = s
  | 0 => rfl
  | m + 1 => by
    have : engineStep s = s := by unfold engineStep tick; simp [hp, hb]
    rw [engineSteps, this]; exact engineSteps_idle hb hp m

/-! ### Steps of the machine that let the engine run -/

theorem engineStep_legal {s : State} (h : s.params.legal = true) : (engineStep s).params.legal = true := by
  rw [keepsParams_closed.engineStep s]; exact h

theorem engineStep_bus (s : State) : (engineStep s).bus = s.bus := by
  have h : engineStep s = withBus s.bus (engineStep s) := by rw [← engineStep_withBus]; rfl
  rw [h]; rfl

theorem step_alone {s : State} (hl : s.params.legal = true) (h : s.bus = []) :
    step s = .next (engineStep s) := by simp [step, stepOf, hl, h]

theorem step_pause {s : State} {rest : List HostOp} (hl : s.params.legal = true) (h : s.bus = .pause :: rest) :
    step s = .next (engineStep (withBus rest s)) := by simp [step, stepOf, hl, h, hostStep, withBus]

theorem step_waitIdle_busy {s : State} {rest : List HostOp} (hl : s.params.legal = true)
    (h : s.bus = .waitIdle :: rest) (hb : s.status.busy = true) : step s = .next (engineStep s) := by
  have e : ({ s with bus := .waitIdle :: rest } : State) = s := by rw [← h]
  simp [step, stepOf, hl, h, hostStep, hb, e]

theorem step_waitIdle_done {s : State} {rest : List HostOp} (hl : s.params.legal = true)
    (h : s.bus = .waitIdle :: rest) (hb : s.status.busy = false) : step s = .next (withBus rest s) := by
  simp [step, stepOf, hl, h, hostStep, hb, withBus]

theorem engineSteps_bus (m : Nat) (s : State) : (engineSteps m s).bus = s.bus := by
  induction m generalizing s with
  | zero => rfl
  | succ m ih => rw [engineSteps, ih, engineStep_bus]

theorem runSteps_alone (m : Nat) {s : State} (hl : s.params.legal = true) (h : s.bus = []) :
    runSteps m s = .next (engineSteps m s) := by
  induction m generalizing s with
  | zero => rfl
  | succ m ih =>
    simp only [runSteps, step_alone hl h, engineSteps]
    exact ih (engineStep_legal hl) ((engineStep_bus s).trans h)

theorem runSteps_pauses (m : Nat) {s : State} {rest : List HostOp} (hl : s.params.legal = true)
    (h : s.bus = List.replicate m .pause ++ rest) :
    runSteps m s = .next (withBus rest (engineSteps m s)) := by
  induction m generalizing s with
  | zero => simp only [List.replicate_zero, List.nil_append] at h; rw [← h]; rfl
  | succ m ih =>
    have h' : s.bus = .pause :: (List.replicate m .pause ++ rest) := h
    simp only [runSteps, step_pause hl h', engineSteps, engineStep_withBus]
    rw [ih (s := withBus (List.replicate m HostOp.pause ++ rest) (engineStep s)) (engineStep_legal hl) rfl,
      engineSteps_withBus]
    rfl

/-- A wait for BUSY = 0 runs the engine to the end of the command. -/
theorem runSteps_wait (m : Nat) {s : State} {rest : List HostOp} (hl : s.params.legal = true)
    (h : s.bus = .waitIdle :: rest) (hs : s.status.busy = true ∨ engineSteps m s = s)
    (ht : (engineSteps m s).status.busy = false) :
    ∃ k, runSteps k s = .next (withBus rest (engineSteps m s)) := by
  induction m generalizing s with
  | zero => exact ⟨1, by simp only [runSteps, step_waitIdle_done hl h ht]; rfl⟩
  | succ m ih =>
    rcases hs with hb | he
    · have hn := engineStep_busy hb
      have hs' : (engineStep s).status.busy = true ∨ engineSteps m (engineStep s) = engineStep s := by
        by_cases hc : (engineStep s).status.busy = true
        · exact .inl hc
        · exact .inr (engineSteps_idle (by simpa using hc) (hn.resolve_left hc) m)
      obtain ⟨k, hk⟩ := ih (engineStep_legal hl) ((engineStep_bus s).trans h) hs' ht
      exact ⟨k + 1, by simp only [runSteps, step_waitIdle_busy hl h hb]; exact hk⟩
    · rw [he] at ht ⊢
      exact ⟨1, by simp only [runSteps, step_waitIdle_done hl h ht]⟩

/-- A register read of an idle block returns the register and changes only the host's side (20_memory.md R68). -/
theorem memRead_idle {s : State} {off : Nat} (hl : s.params.legal = true) (hb : s.status.busy = false)
    (h : off < 32) (h4 : off % 4 = 0) :
    memRead off s = some (registerWord off s, { s with bus := [], reads := registerWord off s :: s.reads }) := by
  have e (b : List HostOp) : registerWord off { s with bus := b } = registerWord off s := rfl
  have hw : windowOffset s.params (s.params.base + off) 4 = some off := by simp [windowOffset, h, h4]
  simp [memRead, issue, step, stepOf, hl, hostStep, hw, readRegister, hb, e]

/-- The host's own wait for BUSY = 0 runs the engine to the end of the command (30_encoding.md R93). -/
theorem awaitIdle_wait (m : Nat) {s : State} (hl : s.params.legal = true) (h : s.bus = [.waitIdle])
    (hs : s.status.busy = true ∨ engineSteps m s = s) (ht : (engineSteps m s).status.busy = false) :
    ∃ polls, awaitIdle polls s = .ok (withBus [] (engineSteps m s)) := by
  have hne : s.bus ≠ [] := by simp [h]
  have done (hb : s.status.busy = false) : awaitIdle 1 s = .ok (withBus [] s) := by
    simp only [awaitIdle, if_neg hne, step_waitIdle_done hl h hb]; rfl
  induction m generalizing s with
  | zero => exact ⟨1, done ht⟩
  | succ m ih =>
    rcases hs with hb | he
    · have hn := engineStep_busy hb
      have hs' : (engineStep s).status.busy = true ∨ engineSteps m (engineStep s) = engineStep s := by
        by_cases hc : (engineStep s).status.busy = true
        · exact .inl hc
        · exact .inr (engineSteps_idle (by simpa using hc) (hn.resolve_left hc) m)
      have hb' := (engineStep_bus s).trans h
      have hne' : (engineStep s).bus ≠ [] := by simp [hb']
      obtain ⟨k, hk⟩ := ih (engineStep_legal hl) hb' hs' ht hne' (fun hd => by
        simp only [awaitIdle, if_neg hne', step_waitIdle_done (engineStep_legal hl) hb' hd]; rfl)
      exact ⟨k + 1, by simp only [awaitIdle, if_neg hne, step_waitIdle_busy hl h hb]; exact hk⟩
    · rw [he] at ht ⊢; exact ⟨1, done ht⟩

/-- Where the engine ends, the machine ends: from a command in progress, or a command already ended. -/
theorem Reaches.runsTo {u t : State} (h : Reaches u t) (hl : u.params.legal = true)
    (hu : u.status.busy = true ∨ u = t) (ht : t.status.busy = false) : RunsTo u t := by
  rcases hu with hb | rfl
  · obtain ⟨m, rfl⟩ := h
    refine ⟨⟨m, rfl, fun rest => ?_⟩, ⟨m, ?_⟩, fun rest => ?_⟩
    · have := runSteps_pauses m (s := withBus (List.replicate m HostOp.pause ++ rest) u) hl rfl
      rwa [engineSteps_withBus] at this
    · have := runSteps_alone m (s := withBus [] u) hl rfl
      rwa [engineSteps_withBus] at this
    · have := runSteps_wait m (s := withBus (.waitIdle :: rest) u) hl rfl (.inl hb)
        (by rw [engineSteps_withBus]; exact ht)
      rwa [engineSteps_withBus] at this
  · exact ⟨⟨0, rfl, fun rest => rfl⟩, ⟨0, rfl⟩,
      fun rest => runSteps_wait 0 (s := withBus (.waitIdle :: rest) u) hl rfl (.inr rfl) ht⟩

end Sys2Proof.Machine
end

