-- ==== Sys2Proof/Tests/Slice0.lean ====
section
/-!
SUPPORT. Tests of one step on small states, with the expected values of 95_test_vectors.md, and for each
statement with hypotheses a named witness that meets them all.
-/

namespace Sys2Proof.Tests

open Sys2Proof Sys2Proof.Machine

/-! ### WellFormed: a good term and an ill-formed one for each check -/

theorem test_reservedClear : reservedClear 0x00004003#32 = true ∧ reservedClear 0x00010001#32 = false ∧
    reservedClear 0x80000006#32 = false ∧ reservedClear 0x00000011#32 = false := by decide

theorem test_opcodeAssigned : opcodeAssigned 0x00000001#32 = true ∧ opcodeAssigned 0x00000006#32 = true ∧
    opcodeAssigned 0x00000000#32 = false ∧ opcodeAssigned 0x00000007#32 = false ∧
    opcodeAssigned 0x0000000F#32 = false := by decide

theorem test_operandAllowed : operandAllowed 0x0000FF02#32 = true ∧ operandAllowed 0x0000FF03#32 = true ∧
    operandAllowed 0x00000101#32 = false ∧ operandAllowed 0x00000106#32 = false := by decide

theorem test_wordWellFormed : wordWellFormed 0x00000102#32 = true ∧ wordWellFormed 0x00014003#32 = false ∧
    wordWellFormed 0x00000007#32 = false ∧ wordWellFormed 0x00000106#32 = false := by decide

theorem test_asmWellFormed : (Asm.setGain 255).wellFormed = true ∧ (Asm.setGain 256).wellFormed = false ∧
    (Asm.setChannelRaw 255).wellFormed = true ∧ (Asm.setChannelRaw 256).wellFormed = false := by decide

/-- A configuration whose open parameters are given: BASE = 64, T_SETTLE_NS = 7, GAIN_B = 32. -/
def pars : Params := { Params.default with tSettleNs := 7, gainB := 32, base := 64 }

theorem test_paramsLegal : pars.legal = true ∧
    { pars with readyMaxTries := 0 }.legal = false ∧ { pars with readyMaxTries := 256 }.legal = false ∧
    { pars with recoveryReads := 0 }.legal = false ∧ { pars with recoveryReads := 16 }.legal = false ∧
    { pars with resetSettleReads := 0 }.legal = false ∧ { pars with resetSettleReads := 16 }.legal = false ∧
    { pars with initGain := 32#8 }.legal = false := by decide

theorem test_hostParamsLegal : (HostParams.mk 2 3 0).legal = true ∧ (HostParams.mk 1 3 0).legal = false ∧
    (HostParams.mk 4 5 0).legal = false ∧ (HostParams.mk 2 2 0).legal = false := by decide

/-! ### Decoding: the words of 30_encoding.md R92 and 95_test_vectors.md section 2.5 -/

theorem test_decode_read_one : decodeCmd 0x00000001#32 = .ok .readOne := by decide
theorem test_decode_set_channel : decodeCmd 0x00000002#32 = .ok (.setChannel 0#8) ∧
    decodeCmd 0x00000102#32 = .ok (.setChannel 1#8) ∧
    decodeCmd 0x0000FF02#32 = .ok (.setChannel 255#8) := by decide
theorem test_decode_set_gain : decodeCmd 0x00004003#32 = .ok (.setGain 64#8) ∧
    decodeCmd 0x00008003#32 = .ok (.setGain 128#8) ∧ decodeCmd 0x00000703#32 = .ok (.setGain 7#8) := by
  decide
theorem test_decode_power_down : decodeCmd 0x00000004#32 = .ok .powerDown := by decide
theorem test_decode_power_up : decodeCmd 0x00000005#32 = .ok .powerUp := by decide
theorem test_decode_reset : decodeCmd 0x00000006#32 = .ok .reset := by decide

/-- The illegal words of section 2.5, each refused by its name; the order of the checks is R86's. -/
theorem test_decode_illegal : decodeCmd 0x00000000#32 = .error .reservedOpcode ∧
    decodeCmd 0x00000101#32 = .error .operandNotZero ∧ decodeCmd 0x00000011#32 = .error .reservedBits ∧
    decodeCmd 0x00010001#32 = .error .reservedBits ∧ decodeCmd 0x80000006#32 = .error .reservedBits ∧
    decodeCmd 0x00000007#32 = .error .reservedOpcode ∧ decodeCmd 0x0000000F#32 = .error .reservedOpcode ∧
    decodeCmd 0x00014003#32 = .error .reservedBits ∧
    decodeCmd 0x00000106#32 = .error .operandNotZero := by decide

theorem test_encode : encode .readOne = 0x00000001#32 ∧ encode (.setChannel 1#8) = 0x00000102#32 ∧
    encode (.setGain 128#8) = 0x00008003#32 ∧ encode .powerDown = 0x00000004#32 ∧
    encode .powerUp = 0x00000005#32 ∧ encode .reset = 0x00000006#32 := by decide

/-- 30_encoding.md R92: `set_channel B`, `set_gain 64`, `set_channel #2`, a raw word, `set_gain 256`. -/
theorem test_assemble : assemble .setChannelB = some 0x00000102#32 ∧
    assemble (.setGain 64) = some 0x00004003#32 ∧ assemble (.setChannelRaw 2) = some 0x00000202#32 ∧
    assemble (.word 0x00014003#32) = some 0x00014003#32 ∧ assemble (.setGain 256) = none := by decide

/-- 20_memory.md R64: lane 0 carries bits 7:0; the table numbers the bits of the word. -/
theorem test_lanes : byteLane 1 0x00004003#32 = 0x40#8 ∧
    wordOfLanes 0x03#8 0x40#8 0x00#8 0x00#8 = 0x00004003#32 ∧
    decodeTableWord 32 0x4003 = some (.setGain 64#8) ∧ decodeTableWord 32 0x10001 = none := by decide

/-! ### The state S0 and the oracles of 95_test_vectors.md section 0 -/

/-- S0: the state in which the automatic `reset` ends under M(0x123456). -/
def boot : State := { State.resetWith pars with
  status := ⟨.ok, false, false, false, .none⟩, config := ⟨.a, 128#8, 1#2, 0#2⟩, diag := ⟨0#8, 0#8, 0#4, 6#4⟩ }

/-- `n` pulses of 1000 ns each. -/
def fast (n : Nat) : List (Nat × Nat) := List.replicate n (0, 1000)

/-- The oracle M(x) for `k` cycles of `n` pulses. -/
def oracle (k n : Nat) (x : Frame) : Env :=
  ⟨(List.replicate k (readyLevels 0 x)).flatten, pulseDeltas (fast (k * n)), 0, 0⟩

/-- The oracle H for `n` samples. -/
def dead (n : Nat) : Env := ⟨List.replicate n 1#1, [], 0, 0⟩

/-- What the host reads: STATUS, CONFIG, RAW, SAMPLE, DIAG. -/
def view (s : State) : List Word := [statusWord s, configWord s, rawWord s, s.sample, diagWord s]

/-- An observation of the state a step answers. -/
def seen {α : Type} (f : State → α) : Host.Outcome State Fault Refusal → Option α
  | .next t => some (f t)
  | .fault _ => none
  | .refused _ => none

/-! ### Each command, one step -/

/-- P1, the rows 0x800001 and 0x7FFFFF of section 2.1, and H (L1.10, P6). -/
theorem test_read_one_outcomes :
    seen view (exec .readOne { boot with env := oracle 1 25 0x123456#24 }) =
      some [0xF00#32, 0x158000#32, 0x123456#32, 0x123456#32, 0x11801#32] ∧
    seen view (exec .readOne { boot with env := oracle 1 25 0x800001#24 }) =
      some [0xF00#32, 0x158000#32, 0x800001#32, 0xFF800001#32, 0x11801#32] ∧
    seen view (exec .readOne { boot with env := oracle 1 25 0x7FFFFF#24 }) =
      some [0xF03#32, 0x58000#32, 0x7FFFFF#32, 0x0#32, 0x11801#32] ∧
    seen view (exec .readOne { boot with env := dead 40 }) =
      some [0xF01#32, 0x58000#32, 0x0#32, 0x0#32, 0x28#32] := by decide +kernel

/-- Section 2.3: data pulse 5 at 60000 ns; P4 and P4': the trailing pulse at 60000 ns, then recovery. -/
theorem test_read_one_trips :
    seen (fun t => (view t, highWrites t.events)) (exec .readOne { boot with
      env := ⟨readyLevels 0 0x123456#24, pulseDeltas (fast 4 ++ [(0, 60000)]), 0, 0⟩ }) =
      some ([0xF02#32, 0x18000#32, 0x0#32, 0x0#32, 0x401#32], 5) ∧
    seen (fun t => (view t, highWrites t.events)) (exec .readOne { boot with
      env := ⟨(List.replicate 7 (readyLevels 0 0x123456#24)).flatten,
        pulseDeltas (fast 24 ++ (0, 60000) :: fast 150), 0, 0⟩ }) =
      some ([0xF02#32, 0x58000#32, 0x123456#32, 0x0#32, 0x601801#32], 175) ∧
    seen (fun t => (view t, highWrites t.events)) (exec .readOne { boot with
      env := ⟨readyLevels 0 0x123456#24 ++ List.replicate 240 1#1,
        pulseDeltas (fast 24 ++ [(0, 60000)]), 0, 0⟩ }) =
      some ([0xF04#32, 0x18000#32, 0x123456#32, 0x0#32, 0x1801#32], 25) := by decide +kernel

/-- P3 (`set_channel B` under M(0x800000)) and section 2.6 (`set_channel B` under H). -/
theorem test_set_channel_settles :
    seen (fun t => (view t, highWrites t.events))
      (exec (.setChannel 1#8) { boot with env := oracle 1 26 0x800000#24 }) =
      some ([0x300#32, 0xA8001#32, 0x0#32, 0x0#32, 0x21801#32], 26) ∧
    seen (fun t => (view t, highWrites t.events))
      (exec (.setChannel 1#8) { boot with env := dead 40 }) =
      some ([0x100#32, 0x68001#32, 0x0#32, 0x0#32, 0x28#32], 0) := by decide +kernel

/-- Section 2.6, `set_channel #2`: CODE 5, nothing else. -/
theorem test_set_channel_invalid : seen (fun t => (view t, t.events)) (exec (.setChannel 2#8) boot) =
    some ([0xF05#32, 0x58000#32, 0x0#32, 0x0#32, 0x600000#32], []) := by decide

/-- P2: `set_gain 64` under M(0xFFFFFF), 27 pulses and the delay. -/
theorem test_set_gain_settles :
    seen (fun t => (view t, highWrites t.events, t.events.head?))
      (exec (.setGain 64#8) { boot with env := oracle 1 27 0xFFFFFF#24 }) =
      some ([0x0#32, 0xF4000#32, 0x0#32, 0x0#32, 0x31801#32], 27, some (.sleep 7)) := by decide +kernel

/-- Section 2.6: `set_gain 32` on A, and `set_gain 200` on B with GAIN_A 64 (CODE 0, WARN 1). -/
theorem test_set_gain_refused : seen (fun t => (view t, t.events)) (exec (.setGain 32#8) boot) =
      some ([0xF05#32, 0x58000#32, 0x0#32, 0x0#32, 0x600000#32], []) ∧
    seen (fun t => (view t, t.events))
      (exec (.setGain 200#8) { boot with config := ⟨.b, 64#8, 2#2, 0#2⟩ }) =
      some ([0xF20#32, 0xA4001#32, 0x0#32, 0x0#32, 0x600000#32], []) := by decide

/-- Section 2.7, row 1 (the history is newest first). -/
theorem test_power_down : seen (fun t => (t.clk, view t, t.events)) (exec .powerDown boot) =
    some (1#1, [0xF00#32, 0x18000#32, 0x0#32, 0x0#32, 0x600000#32],
      [.sleep 10000000, .clkWrite 1#1, .clkWrite 0#1]) := by decide

/-- Section 2.7, row 2: ARMED is unchanged. -/
theorem test_power_up : seen (fun t => (t.clk, view t, t.events)) (exec .powerUp { boot with clk := 1#1 }) =
    some (0#1, [0xF00#32, 0x58000#32, 0x0#32, 0x0#32, 0x600000#32],
      [.sleep 10000000, .clkWrite 0#1]) := by decide

/-- Section 2.7: `reset` under M(0x123456) gives S0 again. -/
theorem test_reset_ok :
    seen (fun t => (view t, highWrites t.events))
      (exec .reset { boot with env := oracle 6 25 0x123456#24 }) =
      some ([0xF00#32, 0x58000#32, 0x0#32, 0x0#32, 0x600000#32], 151) := by decide +kernel

/-- Section 2.7: `reset` under H and under M(0x800000). -/
theorem test_reset_fatal :
    seen view (exec .reset { boot with env := dead 240 }) =
      some [0xF44#32, 0x18000#32, 0x0#32, 0x0#32, 0x0#32] ∧
    seen view (exec .reset { boot with env := oracle 6 25 0x800000#24 }) =
      some [0xF44#32, 0x58000#32, 0x0#32, 0x0#32, 0x0#32] := by decide +kernel

/-! ### The port, the engine and the host -/

/-- 10_state.md R49: the words after block reset, and the first step begins the automatic `reset`. -/
theorem test_reset_state : view (State.resetWith pars) = [0xF1F#32, 0x18000#32, 0x0#32, 0x0#32, 0x0#32] ∧
    seen (fun t => (t.cmdOp, phase t, t.status.busy)) (step (State.resetWith pars)) =
      some (6#4, .pd, true) := by decide

/-- The very next step of the state that places `power_down` runs it. -/
theorem test_placed_word : seen (fun t => (t.clk, t.status)) (step ((State.resetWith pars).withFetchWord 32 4)) =
    some (1#1, ⟨.ok, false, false, false, .none⟩) := by decide

/-- `power_up` by a plain write: PHASE is PU and BUSY 1 until its two primitives have run. -/
theorem test_engine_power_up :
    seen (fun t => (phase t, t.status.busy, (engineSteps 2 t).events, (engineSteps 2 t).status.busy))
      (step { boot with bus := [.write 64 4 5#32] }) =
      some (.pu, true, [.sleep 10000000, .clkWrite 0#1], false) := by decide

/-- Section 2.2: SHREG after 4, 8 and 24 data pulses of the frame 0x123456. -/
theorem test_shift_register : ((frameLevels 0x123456#24).take 4).foldl shiftIn 0#24 = 0x1#24 ∧
    ((frameLevels 0x123456#24).take 8).foldl shiftIn 0#24 = 0x12#24 ∧
    (frameLevels 0x123456#24).foldl shiftIn 0#24 = 0x123456#24 := by decide

/-- Section 2.1: the decode table. -/
theorem test_decode_sample : decodeSample 0x123456#24 = 1193046 ∧ decodeSample 0x7FFFFE#24 = 8388606 ∧
    decodeSample 0x800001#24 = -8388607 ∧ decodeSample 0xEDCBAA#24 = -1193046 ∧
    decodeSample 0xFFFFFF#24 = -1 ∧ deliver 0xC00000#24 = 0xFFC00000#32 ∧
    isSentinel 0x7FFFFF#24 = true ∧ isSentinel 0x800000#24 = true ∧ isSentinel 0x7FFFFE#24 = false := by
  decide

/-- 30_encoding.md R93: `get_channel` and `get_gain`. -/
theorem test_getters : (getChannel boot).map (·.1) = some 0#1 ∧ (getGain boot).map (·.1) = some 128#8 := by
  decide

/-- R38, D9: while BUSY = 1 the read of CONFIG behind `get_gain` is a draw. -/
theorem test_getter_busy : (getGain (State.resetWith pars)).map (·.1) = some ((Config.freeWord 0).extractLsb' 8 8) := rfl

/-- R192: zero and one are degenerate counts, so a lower bound of 0 is refused. -/
theorem test_bounds : (acquire ⟨0, 3, 0⟩ 0 3 boot).1 = .illegalBounds := by decide

/-- R191 "every integer": a negative count is rejected. -/
theorem test_negative_count : (acquire ⟨2, 3, 0⟩ (-1) 3 boot).1 = .invalidParameter := by decide

/-- R226: after `read_one` OK a `set_gain` and another back leave the old SAMPLE, which is no longer trusted. -/
theorem test_trust_ends : ¬ SampleTrusted { boot with cmdOp := 3#4, config := ⟨.a, 128#8, 1#2, 1#2⟩ } ∧
    SampleTrusted { boot with cmdOp := 1#4, config := ⟨.a, 128#8, 1#2, 1#2⟩ } := by
  unfold SampleTrusted; decide

/-- L1.3: `acquire 3` under M(0x123456). -/
theorem test_acquire : (acquire ⟨2, 3, 0⟩ 3 3 { boot with env := oracle 3 25 0x123456#24 }).1 =
    .samples [1193046#32, 1193046#32, 1193046#32] := by decide +kernel

/-- L1.7, and one PROTOCOL_DESYNC more than DESYNC_RETRY_LIMIT. -/
theorem test_acquire_errors : (acquire ⟨2, 3, 0⟩ 4 3 boot).1 = .invalidParameter ∧
    (acquire ⟨2, 3, 0⟩ 3 1 { boot with env := ⟨readyLevels 0 0x123456#24 ++ List.replicate 240 1#1,
        pulseDeltas (fast 24 ++ [(0, 60000)]), 0, 0⟩ }).1 = .protocolDesync ∧
    (acquire ⟨2, 3, 0⟩ 3 1 { boot with env := dead 40 }).1 = .running := by decide +kernel

/-! ### Witnesses: concrete states and operands that meet all hypotheses of a statement together -/

/-- S0 with host operations queued. -/
def queued (b : List HostOp) : State := { boot with bus := b }

/-- The block just after reset (BUSY = 1), with host operations queued. -/
def busyWith (b : List HostOp) : State := { State.resetWith pars with bus := b }

theorem witness_DecodeInvertsEncode : decodeCmd 0x0000FF03#32 = .ok (.setGain 255#8) ∧
    encode (.setGain 255#8) = 0x0000FF03#32 := by decide

theorem witness_AssemblerWords : 0 ≤ 255 ∧ (255 : Nat) ≤ 255 ∧ 255 < 256 ∧
    assemble (.setGain 255) = some 0x0000FF03#32 := by decide

/-- The decoded command; then each clause about a step that lets the engine run or ends a wait. -/
theorem witness_StepRunsDecodedCommand : (queued [.command 0x102#32]).params.legal = true ∧
    Idle (queued [.command 0x102#32]) ∧ (queued [.command 0x102#32]).bus = .command 0x102#32 :: [] ∧
    decodeCmd 0x102#32 = .ok (.setChannel 1#8) ∧
    seen (fun t => t.seq.point) (step (busyWith [])) = some .pdLow ∧
    seen (fun t => t.seq.point) (step (busyWith [.pause])) = some .pdLow ∧
    seen (fun t => t.bus) (step (busyWith [.waitIdle])) = some [.waitIdle] ∧
    seen (fun t => t.seq.point) (step (busyWith [.waitIdle])) = some .pdLow ∧
    step (queued [.waitIdle]) = .next boot ∧
    step (busyWith [.command 5#32]) = .next (busyWith [.waitIdle]) ∧ ¬ Idle (busyWith [.command 5#32]) :=
  ⟨by decide, ⟨rfl, rfl⟩, rfl, by decide, by decide, by decide, by decide, by decide, rfl, rfl,
   fun h => Bool.noConfusion h.2⟩

theorem witness_PlacedWordRunsNext : (State.resetWith pars).params.legal = true ∧
    decodeTableWord 32 0x8003 = some (.setGain 128#8) := by decide

theorem witness_IllegalWordSetsCodeOnly :
    (queued [.command 0x106#32]).params.legal = true ∧ Idle (queued [.command 0x106#32]) ∧
    decodeCmd 0x106#32 = .error .operandNotZero ∧
    (queued [.write 64 4 7#32]).params.legal = true ∧ Idle (queued [.write 64 4 7#32]) ∧
    (queued [.write 64 4 7#32]).bus = .write (queued [.write 64 4 7#32]).params.base 4 7#32 :: [] ∧
    decodeCmd 7#32 = .error .reservedOpcode ∧ decodeCmd 0x11#32 = .error .reservedBits :=
  ⟨by decide, ⟨rfl, rfl⟩, by decide, by decide, ⟨rfl, rfl⟩, rfl, by decide, by decide⟩

theorem witness_BusyCommandWriteIsIgnored : (busyWith [.write 64 4 1#32]).params.legal = true ∧
    (busyWith [.write 64 4 1#32]).status.busy = true ∧
    (busyWith [.write 64 4 1#32]).bus = .write (busyWith [.write 64 4 1#32]).params.base 4 1#32 :: [] :=
  ⟨by decide, rfl, rfl⟩

/-- Clause 1, by either write; clause 2, one change of the latches for each of its three causes. -/
theorem witness_LatchesFollowAcceptance :
    (queued [.command 0x4003#32]).params.legal = true ∧ Idle (queued [.command 0x4003#32]) ∧
    seen (fun t => (t.cmdOp, t.cmdArg)) (step (queued [.write 64 4 0x4003#32])) = some (3#4, 64#8) ∧
    seen (fun t => t.cmdOp) (step (queued [.command 4#32])) = some 4#4 ∧
    seen (fun t => t.cmdOp) (step { queued [.assertRst] with cmdOp := 4#4 }) = some 0#4 ∧
    seen (fun t => t.cmdOp) (step (State.resetWith pars)) = some 6#4 :=
  ⟨by decide, ⟨rfl, rfl⟩, by decide, by decide, by decide, by decide⟩

/-- Behind the write of `power_up` (two primitives): as many pauses, nothing, or a wait, and then a read. -/
theorem witness_EngineStepsRefineCommand_runs :
    runSteps 3 (queued [.write 64 4 5#32, .pause, .pause, .read 68 4]) =
      exec .powerUp (queued [.read 68 4]) ∧
    runSteps 3 (queued [.write 64 4 5#32]) = exec .powerUp (queued []) ∧
    runSteps 4 (queued [.write 64 4 5#32, .waitIdle, .read 68 4]) = exec .powerUp (queued [.read 68 4]) :=
  ⟨rfl, rfl, rfl⟩

theorem witness_EngineStepsRefineCommand : (queued [.write 64 4 5#32]).params.legal = true ∧
    Idle (queued [.write 64 4 5#32]) ∧
    (queued [.write 64 4 5#32]).bus = .write (queued [.write 64 4 5#32]).params.base 4 5#32 :: [] ∧
    decodeCmd 5#32 = .ok .powerUp := ⟨by decide, ⟨rfl, rfl⟩, rfl, by decide⟩

/-- A block held in reset, with one readiness sample in one settle sub-cycle, and no chip. -/
def held (b : List HostOp) : State :=
  { busyWith b with
    rst := true, params := { pars with readyMaxTries := 1, resetSettleReads := 1 }, env := dead 1 }

/-- Behind the release of `rst`: ten pauses for the ten steps of `reset`, nothing, or a wait, and then a read. -/
theorem witness_DeassertionRunsReset_runs :
    runSteps 11 (held (.releaseRst :: (List.replicate 10 .pause ++ [.read 68 4]))) =
      exec .reset { held [.read 68 4] with rst := false } ∧
    runSteps 11 (held [.releaseRst]) = exec .reset { held [] with rst := false } ∧
    runSteps 12 (held [.releaseRst, .waitIdle, .read 68 4]) =
      exec .reset { held [.read 68 4] with rst := false } := ⟨rfl, rfl, rfl⟩

/-- Clause 1 from a block held in reset, whose release leaves the block of clause 2. -/
theorem witness_DeassertionRunsReset : (State.resetWith pars).params.legal = true ∧
    ({ busyWith [.releaseRst] with rst := true } : State).bus = .releaseRst :: [] ∧
    step { busyWith [.releaseRst] with rst := true } = .next (State.resetWith pars) ∧
    (State.resetWith pars).rst = false ∧ (State.resetWith pars).status.busy = true ∧
    (State.resetWith pars).seq.point = .idle := ⟨by decide, rfl, rfl, rfl, rfl, rfl⟩

/-- Both sides at the edges of the window at 64..95: sub-word, below, misaligned, above; first and last. -/
theorem witness_OnlyInadmissibleAccessFaults : (queued []).params.legal = true ∧
    step (queued [.read 64 2]) = .fault .inadmissibleAccess ∧
    step (queued [.read 60 4]) = .fault .inadmissibleAccess ∧
    step (queued [.read 66 4]) = .fault .inadmissibleAccess ∧
    step (queued [.write 96 4 0#32]) = .fault .inadmissibleAccess ∧
    (seen (fun t => t.reads) (step (queued [.read 64 4]))).isSome = true ∧
    (seen (fun t => t.reads) (step (queued [.read 92 4]))).isSome = true :=
  ⟨by decide, rfl, rfl, rfl, rfl, by decide, by decide⟩

theorem witness_RefusedExactlyForIllegalConfiguration :
    step { boot with params := { pars with recoveryReads := 16 } } = .refused .illegalConfiguration ∧
    step { boot with params := { pars with initGain := 32#8 } } = .refused .illegalConfiguration ∧
    ∃ t, step { boot with params := { pars with recoveryReads := 15 } } = .next t := ⟨rfl, rfl, _, rfl⟩

/-- CMD, the last reserved offset, and CONFIG. -/
theorem witness_IdleReadReturnsRegister :
    (queued [.read 64 4]).params.legal = true ∧ (queued [.read 64 4]).status.busy = false ∧
    seen (fun t => t.reads) (step (queued [.read 64 4])) = some [0#32] ∧
    seen (fun t => t.reads) (step (queued [.read (64 + 28) 4])) = some [0#32] ∧
    seen (fun t => t.reads) (step (queued [.read (64 + 0x10) 4])) = some [0x58000#32] := by decide

/-- STATUS, and the first and last other offsets. -/
theorem witness_BusyReadIsExactForStatusOnly :
    (busyWith [.read 68 4]).params.legal = true ∧ (busyWith [.read 68 4]).status.busy = true ∧
    seen (fun t => t.reads) (step (busyWith [.read 68 4])) = some [0xF1F#32] ∧
    (seen (fun t => t.env.draws) (step (busyWith [.read 64 4]))) = some 1 ∧
    (seen (fun t => t.env.draws) (step (busyWith [.read (64 + 28) 4]))) = some 1 := by
  refine ⟨by decide, rfl, by decide, rfl, rfl⟩

theorem witness_WritesOutsideCmdAreIgnored : (queued [.write 68 4 1#32]).params.legal = true ∧
    0 < 4 ∧ 28 < 32 ∧ 4 % 4 = 0 ∧ 28 % 4 = 0 ∧
    step (queued [.write (64 + 4) 4 1#32]) = .next boot ∧
    step (queued [.write (64 + 28) 4 1#32]) = .next boot :=
  ⟨by decide, by decide, by decide, rfl, rfl, rfl, rfl⟩

theorem witness_TrailCountTable : boot.config.channel = .a ∧ boot.config.gainA = 128#8 ∧
    ({ boot with config := ⟨.a, 64#8, 3#2, 0#2⟩ } : State).config.gainA = 64#8 ∧
    ({ boot with config := ⟨.b, 64#8, 2#2, 0#2⟩ } : State).config.channel = .b := by decide

theorem witness_GuardTripsAtThreshold : pars.tGuardNs ≤ 60000 ∧ 59999 < pars.tGuardNs ∧
    guardTrips pars 60000 = true ∧ guardTrips pars 59999 = false := by decide

/-- Both ends of the range, and a frame that is no sentinel. -/
theorem witness_DecodeRoundTripAndRange : -(2 ^ 23) + 1 ≤ (-8388607 : Int) ∧ (8388606 : Int) ≤ 2 ^ 23 - 2 ∧
    decodeSample (BitVec.ofInt 24 (-8388607)) = -8388607 ∧ decodeSample (BitVec.ofInt 24 8388606) = 8388606 ∧
    isSentinel 0x800001#24 = false := by decide

/-- A legal state for each of the three codes. -/
theorem witness_ReadOneOutcomesWithoutTrip : boot.params.legal = true ∧
    seen (fun t => t.status.code) (exec .readOne { boot with env := oracle 1 25 1#24 }) = some .ok ∧
    seen (fun t => t.status.code) (exec .readOne { boot with env := oracle 1 25 0x800000#24 }) =
      some .invalidSample ∧
    seen (fun t => t.status.code) (exec .readOne { boot with env := dead 40 }) = some .notReady := by
  decide +kernel

/-- Data pulses 1 and 24; the last trailing pulse of gain 64. -/
theorem witness_ReadOneOutcomesWithTrip : boot.params.legal = true ∧
    seen (fun t => (t.status.code, t.diag.bitcnt)) (exec .readOne { boot with
      env := ⟨readyLevels 0 1#24, pulseDeltas [(0, 60000)], 0, 0⟩ }) = some (.timingViolation, 0#8) ∧
    seen (fun t => (t.status.code, t.diag.bitcnt)) (exec .readOne { boot with
      env := ⟨readyLevels 0 1#24, pulseDeltas (fast 23 ++ [(0, 60000)]), 0, 0⟩ }) =
      some (.timingViolation, 23#8) ∧
    seen (fun t => (t.status.code, t.diag.trailcnt)) (exec .readOne { boot with
      config := ⟨.a, 64#8, 3#2, 0#2⟩
      env := ⟨readyLevels 0 1#24 ++ List.replicate 240 1#1, pulseDeltas (fast 26 ++ [(0, 60000)]), 0, 0⟩ }) =
      some (.protocolDesync, 2#4) := by decide +kernel

/-- S0 with the given environment. -/
def scripted (e : Env) : State := { boot with env := e }

/-- Ready at the first and at the last sample. -/
theorem witness_ReadOneReturnsTheFrame :
    (scripted (oracle 1 25 5#24)).params.legal = true ∧
    0 < (scripted (oracle 1 25 5#24)).params.readyMaxTries ∧
    39 < (scripted (oracle 1 25 5#24)).params.readyMaxTries ∧
    (scripted (oracle 1 25 5#24)).env.levels = readyLevels 0 5#24 ++ [] ∧
    (scripted (oracle 1 25 5#24)).env.deltas = pulseDeltas (fast 25) ++ [] ∧
    (fast 25).length = 24 + trailOf (scripted (oracle 1 25 5#24)) ∧
    allPass (scripted (oracle 1 25 5#24)).params (fast 25) ∧
    seen (fun t => (t.sample, t.diag.polls)) (exec .readOne (scripted
      ⟨readyLevels 39 5#24, pulseDeltas (fast 25), 0, 0⟩)) = some (5#32, 40#8) := by
  unfold allPass; decide +kernel

/-- p = 1 is the sign bit, p = 24 is bit 0. -/
theorem witness_FrameBitOrder : (scripted (oracle 1 25 0x800001#24)).params.legal = true ∧
    0 < (scripted (oracle 1 25 0x800001#24)).params.readyMaxTries ∧
    (frameLevels 0x800001#24).length = 24 ∧
    (scripted (oracle 1 25 0x800001#24)).env.levels =
      List.replicate 0 1#1 ++ 0#1 :: (frameLevels 0x800001#24 ++ []) ∧
    (scripted (oracle 1 25 0x800001#24)).env.deltas = pulseDeltas (fast 25) ++ [] ∧
    (fast 25).length = 24 + trailOf (scripted (oracle 1 25 0x800001#24)) ∧
    allPass (scripted (oracle 1 25 0x800001#24)).params (fast 25) ∧
    seen (fun t => (t.raw.extractLsb' (24 - 1) 1, t.raw.extractLsb' (24 - 24) 1))
      (exec .readOne (scripted (oracle 1 25 0x800001#24))) = some (1#1, 1#1) ∧ 1 ≤ 1 ∧ 24 ≤ 24 := by
  unfold allPass; decide +kernel

theorem witness_ReadOneNotReady : (scripted (dead 41)).params.legal = true ∧
    (scripted (dead 41)).env.levels =
      List.replicate (scripted (dead 41)).params.readyMaxTries 1#1 ++ [1#1] := by decide

/-- S0 whose data pulse `q + 1` measures the threshold itself, after `q` bits of 1. -/
def dataTripAt (q : Nat) : State := scripted
  ⟨List.replicate 0 1#1 ++ 0#1 :: (List.replicate q 1#1 ++ []), pulseDeltas (fast q) ++ 0 :: 60000 :: [], 0, 0⟩

/-- Data pulse 1 (no bit sampled) and data pulse 24 (23 bits sampled). -/
theorem witness_ReadOneDataPulseTrip :
    ((dataTripAt 0).params.legal = true ∧ 0 < (dataTripAt 0).params.readyMaxTries ∧
      ([] : List Level).length < 24 ∧ (dataTripAt 0).env.levels = [] ++ 0#1 :: ([] ++ []) ∧
      (dataTripAt 0).env.deltas = pulseDeltas [] ++ 0 :: 60000 :: [] ∧
      allPass (dataTripAt 0).params [] ∧ (dataTripAt 0).params.tGuardNs ≤ 60000) ∧
    ((dataTripAt 23).params.legal = true ∧ (List.replicate 23 1#1 : List Level).length < 24 ∧
      (dataTripAt 23).env.levels = [] ++ 0#1 :: (List.replicate 23 1#1 ++ []) ∧
      (dataTripAt 23).env.deltas = pulseDeltas (fast 23) ++ 0 :: 60000 :: [] ∧
      (fast 23).length = (List.replicate 23 1#1 : List Level).length ∧
      allPass (dataTripAt 23).params (fast 23)) := by unfold allPass; decide +kernel

/-- A state of gain `g` whose trailing pulse `q + 1` measures the threshold itself; then a dead line. -/
def trailTripDead (g : Byte) (q : Nat) : State :=
  { scripted ⟨readyLevels 0 9#24 ++ (List.replicate 240 1#1 ++ []),
      pulseDeltas (fast (24 + q)) ++ 0 :: 60000 :: [], 0, 0⟩ with config := ⟨.a, g, 1#2, 0#2⟩ }

/-- The one trailing pulse of (A, 128), and the third of (A, 64). -/
theorem witness_ReadOneTrailTripUnrecovered :
    ((trailTripDead 128#8 0).params.legal = true ∧ 0 < (trailTripDead 128#8 0).params.readyMaxTries ∧
      (trailTripDead 128#8 0).env.levels = readyLevels 0 9#24 ++ (List.replicate
        ((trailTripDead 128#8 0).params.recoveryReads * (trailTripDead 128#8 0).params.readyMaxTries) 1#1 ++ []) ∧
      (trailTripDead 128#8 0).env.deltas = pulseDeltas (fast 24) ++ 0 :: 60000 :: [] ∧
      24 ≤ (fast 24).length ∧ (fast 24).length < 24 + trailOf (trailTripDead 128#8 0) ∧
      allPass (trailTripDead 128#8 0).params (fast 24) ∧ (trailTripDead 128#8 0).params.tGuardNs ≤ 60000) ∧
    ((trailTripDead 64#8 2).env.deltas = pulseDeltas (fast 26) ++ 0 :: 60000 :: [] ∧
      (fast 26).length < 24 + trailOf (trailTripDead 64#8 2) ∧
      allPass (trailTripDead 64#8 2).params (fast 26)) := by unfold allPass; decide +kernel

/-- S0 whose trailing pulse trips, and whose six recovery sub-cycles read the frames `ys`. -/
def trailTripRecovered (ys : List Frame) : State := scripted
  ⟨readyLevels 0 9#24 ++ (ys.flatMap (readyLevels 0) ++ []),
    pulseDeltas (fast 24) ++ 0 :: 60000 :: (pulseDeltas (fast 150) ++ []), 0, 0⟩

/-- Five sentinels and one sample. -/
def oneSample : List Frame := List.replicate 5 0x800000#24 ++ [1#24]

/-- Every sub-cycle reads a sentinel, or only the last one reads a sample. -/
theorem witness_ReadOneTrailTripRecovered :
    ((trailTripRecovered oneSample).params.legal = true ∧
      0 < (trailTripRecovered oneSample).params.readyMaxTries ∧
      oneSample.length = (trailTripRecovered oneSample).params.recoveryReads ∧
      (trailTripRecovered oneSample).env.levels =
        readyLevels 0 9#24 ++ (oneSample.flatMap (readyLevels 0) ++ []) ∧
      (trailTripRecovered oneSample).env.deltas =
        pulseDeltas (fast 24) ++ 0 :: 60000 :: (pulseDeltas (fast 150) ++ []) ∧
      24 ≤ (fast 24).length ∧ (fast 24).length < 24 + trailOf (trailTripRecovered oneSample) ∧
      allPass (trailTripRecovered oneSample).params (fast 24) ∧
      (trailTripRecovered oneSample).params.tGuardNs ≤ 60000 ∧
      (fast 150).length = oneSample.length * (24 + trailOf (trailTripRecovered oneSample)) ∧
      allPass (trailTripRecovered oneSample).params (fast 150)) ∧
    seen (fun t => (t.status.code, t.diag.recValid)) (exec .readOne (trailTripRecovered oneSample)) =
      some (.timingViolation, 1#4) ∧
    seen (fun t => (t.status.code, t.diag.recValid))
      (exec .readOne (trailTripRecovered (List.replicate 6 0x800000#24))) =
      some (.protocolDesync, 0#4) := by unfold allPass; decide +kernel

theorem witness_InvalidOperandsChangeNothingElse : 2#8 ≠ 0#8 ∧ 2#8 ≠ 1#8 ∧ 255#8 ≠ 1#8 ∧
    boot.config.channel = .a ∧ 63#8 ≠ 64#8 ∧ 63#8 ≠ 128#8 ∧ 129#8 ≠ 128#8 := by decide

/-- Both operands. -/
theorem witness_SetChannelCommitsAndSettles : (0#8 = 0#8 ∧ Channel.a = .a) ∧ (1#8 = 1#8 ∧ Channel.b = .b) := by
  decide

theorem witness_SetGainOnChannelBWarnsOnly :
    ({ boot with config := ⟨.b, 128#8, 2#2, 0#2⟩ } : State).config.channel = .b := rfl

/-- Both gains. -/
theorem witness_SetGainCommitsAndSettles : boot.config.channel = .a ∧ (64#8 = 64#8 ∨ 64#8 = 128#8) ∧
    (128#8 = 64#8 ∨ 128#8 = 128#8) := by decide

/-- The three kinds of command, each with the pulses of its own trailing count. -/
theorem witness_SettleReadArmsNewConfiguration :
    ((scripted (oracle 1 25 1#24)).params.legal = true ∧
      0 < (scripted (oracle 1 25 1#24)).params.readyMaxTries ∧
      (scripted (oracle 1 25 1#24)).env.levels = readyLevels 0 1#24 ++ [] ∧
      (scripted (oracle 1 25 1#24)).env.deltas = pulseDeltas (fast 25) ++ [] ∧
      (fast 25).length = 24 + trailCount .a (scripted (oracle 1 25 1#24)).config.gainA ∧
      allPass (scripted (oracle 1 25 1#24)).params (fast 25)) ∧
    ((scripted (oracle 1 26 1#24)).env.deltas = pulseDeltas (fast 26) ++ [] ∧
      (fast 26).length = 24 + trailCount .b (scripted (oracle 1 26 1#24)).config.gainA ∧
      allPass (scripted (oracle 1 26 1#24)).params (fast 26)) ∧
    ((scripted (oracle 1 27 1#24)).config.channel = .a ∧
      (scripted (oracle 1 27 1#24)).env.deltas = pulseDeltas (fast 27) ++ [] ∧
      (fast 27).length = 24 + trailCount .a 64#8 ∧
      allPass (scripted (oracle 1 27 1#24)).params (fast 27)) := by unfold allPass; decide +kernel

theorem witness_ResetSelfTestOutcome : boot.params.legal = true := by decide

theorem witness_ResetCountsValidFrames : (scripted (oracle 6 25 1#24)).params.legal = true ∧
    (List.replicate 6 1#24 : List Frame).length = (scripted (oracle 6 25 1#24)).params.resetSettleReads ∧
    (scripted (oracle 6 25 1#24)).env.levels = (List.replicate 6 1#24).flatMap (readyLevels 0) ++ [] ∧
    (scripted (oracle 6 25 1#24)).env.deltas = pulseDeltas (fast 150) ++ [] ∧
    (fast 150).length =
      (List.replicate 6 1#24 : List Frame).length * (24 + trailOf (scripted (oracle 6 25 1#24))) ∧
    allPass (scripted (oracle 6 25 1#24)).params (fast 150) := by unfold allPass; decide +kernel

theorem witness_ResetFindsNoChip : (scripted (dead 240)).params.legal = true ∧
    (scripted (dead 240)).env.levels = List.replicate ((scripted (dead 240)).params.resetSettleReads *
      (scripted (dead 240)).params.readyMaxTries) 1#1 ++ [] := by decide +kernel

theorem witness_ResultsWrittenByReadOneOnly : Instr.reset ≠ .readOne ∧
    seen (fun t => t.status.code ≠ .ok) (exec .readOne { boot with env := dead 40 }) = some True := by
  refine ⟨by decide, ?_⟩
  have : seen (fun t => t.status.code) (exec .readOne { boot with env := dead 40 }) = some .notReady := by
    decide +kernel
  revert this
  cases exec .readOne { boot with env := dead 40 } <;> simp_all [seen]

/-- Both sides of the last clause, from ARMED = TRAIL (trusted) and from ARMED unknown. -/
theorem witness_ResultsWrittenByReadOneOnly_trust :
    seen (fun t => (t.status.busy, t.cmdOp, t.status.code, t.config.sampleCfg, trailOf t))
      (exec .readOne { boot with env := oracle 1 25 7#24 }) = some (false, 1#4, .ok, 1#2, 1) ∧
    seen (fun t => (t.status.busy, t.cmdOp, t.status.code, t.config.sampleCfg, trailOf t))
      (exec .readOne { boot with env := oracle 1 25 7#24, config := ⟨.a, 128#8, 0#2, 0#2⟩ }) =
        some (false, 1#4, .ok, 0#2, 1) := by decide +kernel

theorem witness_WarnAndFatalHaveOneWriterEach : Instr.readOne ≠ .reset := by decide

/-- On channel B, and without an `assertRst` at the head of the queue. -/
theorem witness_ConfigurationStaysLegal :
    ConfigLegal { queued [.command 0x4003#32] with config := ⟨.b, 128#8, 2#2, 0#2⟩ } ∧
    (∃ t, step { queued [.command 0x4003#32] with config := ⟨.b, 128#8, 2#2, 0#2⟩ } = .next t) ∧
    (∀ rest, [HostOp.command 0x4003#32] ≠ .assertRst :: rest) :=
  ⟨rfl, ⟨_, rfl⟩, by simp⟩

theorem witness_SampleIsNeverASentinel : SampleSound { boot with sample := 0xFF800001#32 } ∧
    ∃ t, step { boot with sample := 0xFF800001#32 } = .next t :=
  ⟨⟨0x800001#24, by decide, by decide⟩, ⟨_, rfl⟩⟩

theorem witness_SettleCodeStaysACycleCode : SettleCodeLegal boot ∧
    SettleCodeLegal { boot with status.settleCode := .protocolDesync } ∧ ∃ t, step boot = .next t :=
  ⟨.inr rfl, .inl rfl, ⟨_, rfl⟩⟩

/-- `read_one` in the middle of data pulse 4, its first `Now` having read 3. -/
def midPulse : State := { boot with
  status := ⟨.ok, true, false, false, .none⟩, cmdOp := 1#4, clk := 0#1, diag := ⟨1#8, 3#8, 0#4, 0#4⟩
  seq := { Sequencer.atReset with point := .dataStop 3, top := ⟨1, 3, 0⟩, cfg0 := 1#2, n := 1 }
  env := ⟨[], [5], 0, 3⟩
  events := [.clkWrite 0#1, .clkWrite 1#1, .timeRead 3] }

theorem witness_TimeNeverRunsBackwards : TimeOrdered midPulse ∧
    seen (fun t => timeReads t.events) (step midPulse) = some [8, 3] := by
  refine ⟨?_, by decide⟩
  simp [TimeOrdered, midPulse, timeReads]

theorem midPulse_sound : SequencerSound midPulse where
  busy _ := rfl
  top := ⟨by decide, by decide, by decide⟩
  sub := ⟨by decide, by decide, by decide⟩
  loops := by decide
  diag := ⟨by decide, by decide, by decide, by decide⟩
  point := ⟨by decide, by decide, .inl rfl⟩

theorem witness_SequencerStaysSound : SequencerSound midPulse ∧
    seen (fun t => t.seq.point) (step midPulse) = some .dataSample := ⟨midPulse_sound, by decide⟩

theorem witness_ParametersNeverChange : ∃ t, step midPulse = .next t := ⟨_, rfl⟩

theorem boot_sound (b : List HostOp) (f : Bool) :
    SequencerSound { queued b with status := ⟨.ok, false, false, f, .none⟩ } where
  busy h := absurd rfl h
  top := ⟨Nat.zero_le _, Nat.zero_le _, Nat.zero_le _⟩
  sub := ⟨Nat.zero_le _, Nat.zero_le _, Nat.zero_le _⟩
  loops := ⟨Nat.zero_le _, Nat.zero_le _⟩
  diag := ⟨Nat.zero_le _, Nat.zero_le _, Nat.zero_le _, show 6 ≤ 6 from Nat.le_refl _⟩
  point := trivial

/-- FATAL falls in a step of `reset`, and by block reset. -/
theorem witness_FatalChangesOnlyInReset :
    SequencerSound { queued [.command 6#32] with status := ⟨.ok, false, false, true, .none⟩ } ∧
    SequencerSound { queued [.assertRst] with status := ⟨.ok, false, false, true, .none⟩ } ∧
    seen (fun t => (t.status.fatal, t.cmdOp)) (step { queued [.command 6#32] with
      status := ⟨.ok, false, false, true, .none⟩, env := oracle 6 25 1#24 }) = some (false, 6#4) ∧
    seen (fun t => t.status.fatal) (step { queued [.assertRst] with
      status := ⟨.ok, false, false, true, .none⟩ }) = some false :=
  ⟨boot_sound _ _, boot_sound _ _, by decide +kernel, by decide⟩

theorem witness_AssertingRstSetsResetValues : (queued [.assertRst]).params.legal = true ∧
    (queued [.assertRst]).bus = .assertRst :: [] := ⟨by decide, rfl⟩

/-- A write to CMD and a read of RAW while `rst` is asserted. -/
theorem witness_AssertedRstHoldsTheBlock :
    ({ busyWith [.write 64 4 1#32] with rst := true } : State).status.busy = true ∧
    (∃ t, step { busyWith [.write 64 4 1#32] with rst := true } = .next t) ∧
    (∃ t, step { busyWith [.read 72 4] with rst := true } = .next t) ∧
    (∀ rest, [HostOp.write 64 4 1#32] ≠ .releaseRst :: rest) ∧
    (∀ rest, [HostOp.write 64 4 1#32] ≠ .assertRst :: rest) :=
  ⟨rfl, ⟨_, rfl⟩, ⟨_, rfl⟩, by simp, by simp⟩

theorem witness_MeasureCountCheck : (⟨2, 3, 0⟩ : HostParams).legal = true ∧
    ¬ (2 ≤ 1 ∧ 1 ≤ 3) ∧ ¬ (2 ≤ 4 ∧ 4 ≤ 3) ∧
    validateMeasureCount ⟨2, 3, 0⟩ 2 = .accepted ∧ validateMeasureCount ⟨2, 3, 0⟩ 3 = .accepted ∧
    validateMeasureCount ⟨2, 3, 0⟩ 1 = .invalidParameter ∧
    validateMeasureCount ⟨2, 3, 0⟩ (-1) = .invalidParameter ∧
    validateMeasureCount ⟨2, 3, 0⟩ 4 = .invalidParameter := by decide

/-- Clause 1: each constraint of R192 violated just past its edge; clause 2 below. -/
theorem witness_AcquireReturnsDecodedSamples_bounds :
    validateMeasureCount ⟨1, 3, 0⟩ 3 = .illegalBounds ∧ validateMeasureCount ⟨4, 9, 0⟩ 5 = .illegalBounds ∧
    validateMeasureCount ⟨2, 2, 0⟩ 2 = .illegalBounds ∧ validateMeasureCount ⟨3, 3, 0⟩ 3 = .accepted := by decide

theorem witness_AcquireReturnsDecodedSamples : Idle { boot with env := oracle 2 25 0x800001#24 } ∧
    (acquire ⟨2, 3, 0⟩ 2 2 { boot with env := oracle 2 25 0x800001#24 }).1 =
      .samples [0xFF800001#32, 0xFF800001#32] := ⟨⟨rfl, rfl⟩, by decide +kernel⟩

/-- Not idle, but SAMPLE sound: the automatic `reset` ends with OK and the old SAMPLE is read, and then a frame. -/
theorem witness_AcquireReturnsDecodedSamples_busy :
    SampleSound { held [] with rst := false, env := oracle 2 25 7#24 } ∧
    (acquire ⟨2, 3, 0⟩ 2 300 { held [] with rst := false, env := oracle 2 25 7#24 }).1 =
      .samples [0#32, 7#32] := ⟨⟨0#24, by decide, by decide⟩, by decide +kernel⟩

/-- Clause 2: the block whose automatic `reset` is pending, and the state its ten engine steps reach. -/
theorem witness_AcquireRoundCollectsAFrame_busy :
    ({ held [] with rst := false } : State).params.legal = true ∧
    ({ held [] with rst := false } : State).status.busy = true ∧
    (engineSteps 10 { held [] with rst := false }).status.busy = false ∧
    RunsTo { held [] with rst := false } (engineSteps 10 { held [] with rst := false }) :=
  ⟨by decide, rfl, rfl, Reaches.runsTo ⟨10, rfl⟩ (by decide) (.inl rfl) rfl⟩

theorem witness_AcquireRoundCollectsAFrame : (scripted (oracle 1 25 7#24)).params.legal = true ∧
    Idle (scripted (oracle 1 25 7#24)) ∧ 0 < (scripted (oracle 1 25 7#24)).params.readyMaxTries ∧
    isSentinel 7#24 = false ∧ (scripted (oracle 1 25 7#24)).env.levels = readyLevels 0 7#24 ++ [] ∧
    (scripted (oracle 1 25 7#24)).env.deltas = pulseDeltas (fast 25) ++ [] ∧
    (fast 25).length = 24 + trailOf (scripted (oracle 1 25 7#24)) ∧
    allPass (scripted (oracle 1 25 7#24)).params (fast 25) := by
  refine ⟨by decide, ⟨rfl, rfl⟩, by decide, by decide, by decide, by decide, by decide, ?_⟩
  unfold allPass; decide

end Sys2Proof.Tests
end

section
/-!
PROOF. STATUS.WARN and STATUS.FATAL (10_state.md R39): the cycles leave both alone, so each command writes
exactly what its acceptance, `setWarn` and `setFatal` write.
-/

namespace Sys2Proof.Machine

/-! ### STATUS across the parts of a command -/

@[simp] theorem topCycle_status (latch : Bool) (s : State) : (topCycle latch s).2.status = s.status :=
  (topKeeps_closed.topCycle latch s).1

@[simp] theorem subLoop_status (m : Nat) (s : State) : (subLoop m s).status = s.status :=
  (topKeeps_closed.subLoop m s).1

@[simp] theorem settle_status (s : State) :
    (settle s).status = { s.status with settleCode := (topCycle false s).1 } := by simp [settle]

@[simp] theorem enterPowerDown_status (s : State) : (enterPowerDown s).status = s.status := rfl

@[simp] theorem leavePowerDown_status (s : State) : (leavePowerDown s).status = s.status := rfl

@[simp] theorem endReset_status (s : State) : (endReset s).status =
    { s.status with code := resetCode s.seq.v, busy := false, fatal := s.seq.v == 0 } := rfl

/-! ### The flags after each command -/

/-- What every command but `set_gain` and `reset` does to the two flags: its acceptance clears WARN, and FATAL
stays. -/
def ClearsWarnOnly (s t : State) : Prop := t.status.warn = false ∧ t.status.fatal = s.status.fatal

theorem readOneResult_flags (s : State) : ClearsWarnOnly s (readOneResult s) := by
  simp [ClearsWarnOnly, readOneResult]

theorem setChannelResult_flags (arg : Byte) (s : State) : ClearsWarnOnly s (setChannelResult arg s) := by
  cases hc : channelOfArg arg with
  | none => simp [ClearsWarnOnly, setChannelResult, hc]
  | some c => simp [ClearsWarnOnly, setChannelResult, hc]

/-- On channel B `set_gain` sets WARN, whatever its operand; on channel A it does not (41_config.md R153). -/
theorem setGainResult_flags (arg : Byte) (s : State) :
    ((setGainResult arg s).status.warn = true ↔ s.config.channel = .b) ∧
    (setGainResult arg s).status.fatal = s.status.fatal := by
  by_cases hb : s.config.channel = .b
  · simp [setGainResult, hb]
  · by_cases hg : gainLegal arg = true
    · simp [setGainResult, hb, hg]
    · simp [setGainResult, hb, hg]

/-- FATAL after `reset` says whether no settle sub-cycle returned OK (42_power.md R174). -/
theorem resetResult_flags (s : State) : (resetResult s).status.warn = false ∧
    ((resetResult s).status.code = .protocolDesync ∧ (resetResult s).status.fatal = true ∨
      (resetResult s).status.code = .ok ∧ (resetResult s).status.fatal = false) := by
  simp only [resetResult, endReset_status]
  generalize subLoop_eq : subLoop _ _ = t
  have hwarn : t.status.warn = false := by simp [← subLoop_eq]
  refine ⟨hwarn, ?_⟩
  by_cases hv : t.seq.v = 0
  · exact .inl (by simp [hv, resetCode])
  · exact .inr (by simp [hv, resetCode])

theorem illegalCommand_flags (w : Word) (s : State) : ClearsWarnOnly s (illegalCommand w s) := ⟨rfl, rfl⟩

/-- Settles O44: the flags of each command, and of an illegal word. -/
theorem warnAndFatalHaveOneWriterEach : Obligations.WarnAndFatalHaveOneWriterEach := by
  unfold Obligations.WarnAndFatalHaveOneWriterEach
  refine ⟨fun i s => ?_, fun w s => ⟨rfl, illegalCommand_flags w s⟩⟩
  cases i with
  | readOne =>
    obtain ⟨hwarn, hfatal⟩ := readOneResult_flags s
    exact ⟨_, rfl, by simp [hwarn], fun _ => hfatal, by simp⟩
  | setChannel arg =>
    obtain ⟨hwarn, hfatal⟩ := setChannelResult_flags arg s
    exact ⟨_, rfl, by simp [hwarn], fun _ => hfatal, by simp⟩
  | setGain arg =>
    obtain ⟨hwarn, hfatal⟩ := setGainResult_flags arg s
    exact ⟨_, rfl, by simp [hwarn], fun _ => hfatal, by simp⟩
  | powerDown => exact ⟨_, rfl, by simp, by simp, by simp⟩
  | powerUp => exact ⟨_, rfl, by simp, by simp, by simp⟩
  | reset =>
    obtain ⟨hwarn, hend⟩ := resetResult_flags s
    exact ⟨_, rfl, by simp [hwarn], by simp, fun _ => hend⟩

end Sys2Proof.Machine
end

section
/-!
PROOF. The order of a frame's bits (30_encoding.md R89): RAW is the shift register's frame where a latching cycle
completes, and the line's samples are that frame, most significant bit first.
-/

namespace Sys2Proof.Machine

/-- OK and INVALID_SAMPLE are the codes of a complete cycle only (40_read_cycle.md R121), and a complete cycle that
latches has copied SHREG to RAW. -/
theorem TopEnd.raw_eq_shreg {s t : State} {c : Code} (h : TopEnd true s t c)
    (hc : c = .ok ∨ c = .invalidSample) : t.raw = t.shreg := by
  obtain ⟨rfl, -⟩ | ⟨rfl, -⟩ | ⟨_, _, v, rfl, -⟩ | ⟨-, _, -, hraw, -⟩ := h
  case inl | inr.inl => simp at hc
  case inr.inr.inl =>
    simp only [recoveryCode] at hc
    split at hc <;> simp at hc
  case inr.inr.inr => simpa using hraw

/-- With a ready chip and fast pulses `read_one` leaves the frame on the line in RAW (40_read_cycle.md R120). -/
theorem readOneResult_raw_of_frame (s : State) (m : Nat) (x : Frame) (ps : List (Nat × Nat)) (L : List Level)
    (D : List Nat) (hm : m < s.params.readyMaxTries)
    (hl : s.env.levels = readyLevels m x ++ L) (hd : s.env.deltas = pulseDeltas ps ++ D)
    (hn : ps.length = 24 + trailOf s) (hp : allPass s.params ps) : (readOneResult s).raw = x := by
  obtain ⟨hcode, hshreg, -⟩ := topCycle_frame true (accept 0x1#4 0#8 s) m x ps L D hm hl hd hn hp
  have hdone : (topCycle true (accept 0x1#4 0#8 s)).1 = .ok ∨
      (topCycle true (accept 0x1#4 0#8 s)).1 = .invalidSample := by
    rw [hcode]
    split
    · exact .inr rfl
    · exact .inl rfl
  simp only [readOneResult, finish_raw]
  exact ((topCycle_end true _).raw_eq_shreg hdone).trans hshreg

/-- The sample of data pulse p is bit 24 - p of the frame (30_encoding.md R89). -/
theorem frameLevels_getD (x : Frame) {p : Nat} (h1 : 1 ≤ p) (h2 : p ≤ 24) :
    (frameLevels x).getD (p - 1) 0#1 = x.extractLsb' (24 - p) 1 := by
  have hlt : p - 1 < 24 := by omega
  have hbit : 23 - (p - 1) = 24 - p := by omega
  simp [frameLevels, hlt, hbit]

/-- Settles O23: the 24 samples are `frameLevels x` for the frame x they shift in, and RAW is x. -/
theorem frameBitOrder : Obligations.FrameBitOrder := by
  unfold Obligations.FrameBitOrder
  intro s m bits ps L D _ hm hbits hl hd hn hp
  have hx : frameLevels (bits.foldl shiftIn 0#24) = bits := frameLevels_foldl bits hbits 0#24
  have hraw := readOneResult_raw_of_frame s m (bits.foldl shiftIn 0#24) ps L D hm
    (by simpa [readyLevels, hx] using hl) hd hn hp
  refine ⟨_, rfl, fun p h1 h2 => ?_⟩
  rw [hraw, ← frameLevels_getD _ h1 h2, hx]

end Sys2Proof.Machine
end

section
/-!
PROOF. `power_down` and `power_up` (42_power.md R170, R172): each command is its acceptance, a straight line of
primitives and its end, so its whole effect is the composition of what the three write.
-/

namespace Sys2Proof.Machine

/-! ### What each part of a power command writes, and that it writes nothing else -/

theorem accept_eq (op : BitVec 4) (arg : Byte) (s : State) : accept op arg s = { s with
    cmdOp := op, cmdArg := arg, status := { s.status with busy := true, warn := false } } := rfl

theorem finish_eq (c : Code) (s : State) : finish c s = { s with
    status := { s.status with code := c, busy := false }, seq := { s.seq with point := .idle } } := rfl

theorem enterPowerDown_eq (s : State) : enterPowerDown s = { s with
    clk := 1#1, config := { s.config with armed := 0#2 },
    events := .sleep s.params.tPdNs :: .clkWrite 1#1 :: .clkWrite 0#1 :: s.events } := rfl

theorem leavePowerDown_eq (s : State) : leavePowerDown s = { s with
    clk := 0#1, events := .sleep s.params.tPuNs :: .clkWrite 0#1 :: s.events } := rfl

/-! ### The commands -/

/-- Settles O37: acceptance, the power-down pulse and the end write what the statement lists. -/
theorem powerDownEffect : Obligations.PowerDownEffect := by
  unfold Obligations.PowerDownEffect
  refine ⟨by decide, fun s => ?_⟩
  calc exec .powerDown s
    _ = .next (finish .ok (enterPowerDown (accept 0x4#4 0#8 s))) := rfl
    _ = _ := by rw [finish_eq, enterPowerDown_eq, accept_eq]

/-- Settles O38: acceptance, the wake-up and the end write what the statement lists; ARMED is in none of them. -/
theorem powerUpEffect : Obligations.PowerUpEffect := by
  unfold Obligations.PowerUpEffect
  refine ⟨by decide, fun s => ?_⟩
  calc exec .powerUp s
    _ = .next (finish .ok (leavePowerDown (accept 0x5#4 0#8 s))) := rfl
    _ = _ := by rw [finish_eq, leavePowerDown_eq, accept_eq]

end Sys2Proof.Machine
end

section
/-!
PROOF. The measure-count check (45_host_aggregator.md R191): under legal bounds its answer is decided by the interval
alone, and `acquire` hands a rejection on before it issues anything.
-/

namespace Sys2Proof.Machine

/-- The bounds are ones R192 admits, so the check never answers `illegalBounds`. -/
theorem validateMeasureCount_of_legal {h : HostParams} (hlegal : h.legal = true) (times : Int) :
    validateMeasureCount h times =
      if h.minMeasures ≤ times ∧ times ≤ h.maxMeasures then .accepted else .invalidParameter :=
  if_pos hlegal

theorem validateMeasureCount_eq_accepted_iff {h : HostParams} (hlegal : h.legal = true) (times : Int) :
    validateMeasureCount h times = .accepted ↔ h.minMeasures ≤ times ∧ times ≤ h.maxMeasures := by
  simp [validateMeasureCount_of_legal hlegal]

theorem validateMeasureCount_eq_invalidParameter_iff {h : HostParams} (hlegal : h.legal = true) (times : Int) :
    validateMeasureCount h times = .invalidParameter ↔ ¬ (h.minMeasures ≤ times ∧ times ≤ h.maxMeasures) := by
  simp [validateMeasureCount_of_legal hlegal]

/-- A rejected count ends `acquire` before its loop: no host operation is issued (45_host_aggregator.md R193). -/
theorem acquire_of_invalidParameter {h : HostParams} {times : Int}
    (hcheck : validateMeasureCount h times = .invalidParameter) (fuel : Nat) (s : State) :
    acquire h times fuel s = (.invalidParameter, s) := by
  simp [acquire, hcheck]

/-- Settles O58: the interval decides the check, and `acquire` returns with its rejection. -/
theorem measureCountCheck : Obligations.MeasureCountCheck := by
  unfold Obligations.MeasureCountCheck
  intro h times hlegal
  refine ⟨validateMeasureCount_eq_accepted_iff hlegal times, fun hout => ?_⟩
  have hcheck := (validateMeasureCount_eq_invalidParameter_iff hlegal times).2 hout
  exact ⟨hcheck, acquire_of_invalidParameter hcheck⟩

end Sys2Proof.Machine
end

section
/-!
PROOF. Encoding and decoding (30_encoding.md R81-R92): the decoder accepts a word exactly when its four fields are
those of a command, and the encoder writes these four fields.
-/

namespace Sys2Proof

/-! ### The decoder, field by field -/

theorem noOperand_eq_ok_iff {arg : Byte} {i j : Instr} : noOperand arg i = .ok j ↔ arg = 0#8 ∧ i = j := by
  unfold noOperand
  split <;> simp [*]

theorem noOperand_eq_error_iff {arg : Byte} {i : Instr} :
    (∃ why, noOperand arg i = .error why) ↔ arg ≠ 0#8 := by
  unfold noOperand
  split <;> simp [*]

/-- With the reserved fields clear the opcode chooses the command (R86). -/
theorem decodeCmd_of_clear {w : Word} (hhigh : w.extractLsb' 16 16 = 0#16) (hmid : w.extractLsb' 4 4 = 0#4) :
    decodeCmd w = match (opField w).toNat with
      | 1 => noOperand (argField w) .readOne
      | 2 => .ok (.setChannel (argField w))
      | 3 => .ok (.setGain (argField w))
      | 4 => noOperand (argField w) .powerDown
      | 5 => noOperand (argField w) .powerUp
      | 6 => noOperand (argField w) .reset
      | _ => .error .reservedOpcode :=
  if_neg (by simp [hhigh, hmid])

theorem decodeCmd_of_reserved {w : Word} (h : w.extractLsb' 16 16 ≠ 0#16 ∨ w.extractLsb' 4 4 ≠ 0#4) :
    decodeCmd w = .error .reservedBits := if_pos h

/-- A command's own word is decoded to it. -/
theorem decodeCmd_encode (i : Instr) : decodeCmd (encode i) = .ok i := by
  rw [decodeCmd_of_clear (encode_high i) (encode_mid i), opField_encode, argField_encode]
  cases i <;> rfl

/-- An accepted word has the fields of the command it decodes to. -/
theorem fields_of_decodeCmd {w : Word} {i : Instr} (h : decodeCmd w = .ok i) :
    w.extractLsb' 16 16 = 0#16 ∧ w.extractLsb' 4 4 = 0#4 ∧ opField w = i.op ∧ argField w = i.arg := by
  by_cases hres : w.extractLsb' 16 16 ≠ 0#16 ∨ w.extractLsb' 4 4 ≠ 0#4
  · simp [decodeCmd_of_reserved hres] at h
  · obtain ⟨hhigh, hmid⟩ : w.extractLsb' 16 16 = 0#16 ∧ w.extractLsb' 4 4 = 0#4 := by simpa using hres
    have op_eq {k : BitVec 4} (hk : (opField w).toNat = k.toNat) : opField w = k := BitVec.eq_of_toNat_eq hk
    rw [decodeCmd_of_clear hhigh hmid] at h
    refine ⟨hhigh, hmid, ?_⟩
    split at h
    case h_1 | h_4 | h_5 | h_6 =>
      obtain ⟨harg, rfl⟩ := noOperand_eq_ok_iff.1 h
      exact ⟨op_eq ‹_›, harg⟩
    case h_2 | h_3 =>
      cases h
      exact ⟨op_eq ‹_›, rfl⟩
    case h_7 => simp at h

/-- Settles O1: the fields of an accepted word are those of the command's word, and a word is its fields. -/
theorem decodeInvertsEncode : Obligations.DecodeInvertsEncode := by
  unfold Obligations.DecodeInvertsEncode
  refine fun w i => ⟨fun h => ?_, fun h => h ▸ decodeCmd_encode i⟩
  obtain ⟨hhigh, hmid, hop, harg⟩ := fields_of_decodeCmd h
  exact word_ext ((encode_high i).trans hhigh.symm) ((encode_mid i).trans hmid.symm)
    ((opField_encode i).trans hop.symm) ((argField_encode i).trans harg.symm)

/-- Settles O2: the reserved fields are checked first, then the opcode, then the operand it does not have. -/
theorem illegalWordsAreTheReservedPatterns : Obligations.IllegalWordsAreTheReservedPatterns := by
  unfold Obligations.IllegalWordsAreTheReservedPatterns
  intro w
  by_cases hres : w.extractLsb' 16 16 ≠ 0#16 ∨ w.extractLsb' 4 4 ≠ 0#4
  · exact ⟨fun _ => hres.imp_right .inl, fun _ => ⟨_, decodeCmd_of_reserved hres⟩⟩
  · obtain ⟨hhigh, hmid⟩ : w.extractLsb' 16 16 = 0#16 ∧ w.extractLsb' 4 4 = 0#4 := by simpa using hres
    have op_eq {k : BitVec 4} (hk : (opField w).toNat = k.toNat) : w.extractLsb' 0 4 = k :=
      BitVec.eq_of_toNat_eq hk
    rw [decodeCmd_of_clear hhigh hmid]
    split
    case h_1 hk => simp [noOperand_eq_error_iff, hhigh, hmid, op_eq (k := 1#4) hk, argField]
    case h_2 hk => simp [hhigh, hmid, op_eq (k := 2#4) hk]
    case h_3 hk => simp [hhigh, hmid, op_eq (k := 3#4) hk]
    case h_4 hk => simp [noOperand_eq_error_iff, hhigh, hmid, op_eq (k := 4#4) hk, argField]
    case h_5 hk => simp [noOperand_eq_error_iff, hhigh, hmid, op_eq (k := 5#4) hk, argField]
    case h_6 hk => simp [noOperand_eq_error_iff, hhigh, hmid, op_eq (k := 6#4) hk, argField]
    case h_7 h1 h2 h3 h4 h5 h6 =>
      have hop : w.extractLsb' 0 4 = 0#4 ∨ 7#4 ≤ w.extractLsb' 0 4 := by
        change opField w = 0#4 ∨ 7#4 ≤ opField w
        simp only [imp_false] at h1 h2 h3 h4 h5 h6
        rw [← BitVec.toNat_inj, BitVec.le_def]
        simp only [BitVec.toNat_ofNat]
        omega
      simp [hop]

/-! ### The word as the opcode table numbers it -/

/-- Byte lane `k` of the word with a given number (20_memory.md R64). -/
theorem byteLane_ofNat (k n : Nat) :
    byteLane k (BitVec.ofNat 32 n) = BitVec.ofNat 8 (n % 2 ^ 32 / 2 ^ (8 * k)) := by
  apply BitVec.eq_of_toNat_eq
  simp [byteLane, BitVec.extractLsb'_toNat, Nat.shiftRight_eq_div_pow]

/-- Taken apart into lanes and put together again, a table word is the word of its number. -/
theorem decodeTableWord_eq_some_iff {n : Nat} {i : Instr} :
    decodeTableWord 32 n = some i ↔ decodeCmd (BitVec.ofNat 32 n) = .ok i := by
  have hlt : n % 2 ^ 32 < 2 ^ 32 := Nat.mod_lt _ (by decide)
  simp only [decodeTableWord, hlt, if_true, ← byteLane_ofNat, wordOfLanes_byteLane]
  split <;> simp [*]

/-- Settles O3: the number of the command's word is the word again. -/
theorem tableWordsDecodeToTheirCommands : Obligations.TableWordsDecodeToTheirCommands := by
  unfold Obligations.TableWordsDecodeToTheirCommands
  intro i
  rw [decodeTableWord_eq_some_iff, BitVec.ofNat_toNat, BitVec.setWidth_eq]
  exact decodeCmd_encode i

/-- Settles O4: the six command words by the encoder, the three others by running the decoder. -/
theorem specWordsDecode : Obligations.SpecWordsDecode := by
  unfold Obligations.SpecWordsDecode
  exact ⟨decodeCmd_encode .readOne, decodeCmd_encode (.setChannel 1#8), decodeCmd_encode (.setGain 64#8),
    decodeCmd_encode .powerDown, decodeCmd_encode .powerUp, decodeCmd_encode .reset, by decide, by decide, by decide⟩

/-! ### The assembler -/

/-- A command's word is its opcode and, from bit 8, its operand. -/
theorem encode_eq_or (i : Instr) : encode i = i.op.setWidth 32 ||| (i.arg.setWidth 32 <<< 8) := by
  ext k hk
  rw [← BitVec.getLsbD_eq_getElem, ← BitVec.getLsbD_eq_getElem, encode_getLsbD]
  simp only [BitVec.getLsbD_or, BitVec.getLsbD_setWidth, BitVec.getLsbD_shiftLeft, hk]
  by_cases h4 : k < 4
  · simp [h4, show k < 8 by omega]
  by_cases h8 : k < 8
  · simp [h4, h8, BitVec.getLsbD_of_ge i.op k (by omega)]
  by_cases h16 : k < 16
  · simp [h4, h8, h16, BitVec.getLsbD_of_ge i.op k (by omega), show k - 8 < 32 by omega]
  · simp [h4, h8, h16, BitVec.getLsbD_of_ge i.op k (by omega), BitVec.getLsbD_of_ge i.arg (k - 8) (by omega)]

/-- An operand 0..255 keeps its number when it is put in a word. -/
theorem setWidth_ofNat_byte {n : Nat} (h : n ≤ 255) : (BitVec.ofNat 8 n).setWidth 32 = BitVec.ofNat 32 n := by
  apply BitVec.eq_of_toNat_eq
  simp
  omega

/-- Settles O5: an operand up to 255 fits the field, and a larger one is not well formed. -/
theorem assemblerWords : Obligations.AssemblerWords := by
  unfold Obligations.AssemblerWords
  refine ⟨fun n hn => ?_, fun n hn => ?_⟩
  · simp [assemble, Asm.wellFormed, hn, encode_eq_or, Instr.op, Instr.arg, setWidth_ofNat_byte]
  · have : ¬ n ≤ 255 := by omega
    simp [assemble, Asm.wellFormed, this]

end Sys2Proof
end

section
/-!
PROOF. One step of the machine, said once (60_exceptions.md R220, R222, 20_memory.md R65-R68): a lemma for each head
of the host's queue, and the inversion of a step that answers a next state.
-/

namespace Sys2Proof.Machine

/-! ### Accesses to the window -/

theorem windowOffset_eq_some_iff {p : Params} {addr bytes off : Nat} :
    windowOffset p addr bytes = some off ↔
      (bytes = 4 ∧ p.base ≤ addr ∧ addr < p.base + 32 ∧ (addr - p.base) % 4 = 0) ∧ addr - p.base = off := by
  unfold windowOffset
  split <;> simp [*]

theorem windowOffset_eq_none_iff {p : Params} {addr bytes : Nat} :
    windowOffset p addr bytes = none ↔
      ¬ (bytes = 4 ∧ p.base ≤ addr ∧ addr < p.base + 32 ∧ (addr - p.base) % 4 = 0) := by
  unfold windowOffset
  split <;> simp [*]

theorem windowOffset_base_add (p : Params) {off : Nat} (hlt : off < 32) (h4 : off % 4 = 0) :
    windowOffset p (p.base + off) 4 = some off :=
  windowOffset_eq_some_iff.2 ⟨⟨rfl, by omega, by omega, by simpa using h4⟩, by omega⟩

theorem windowOffset_base (p : Params) : windowOffset p p.base 4 = some cmdOffset :=
  windowOffset_base_add p (off := 0) (by decide) rfl

/-! ### The block's answer to a command word -/

theorem cmdIgnored_eq_false_iff {s : State} : cmdIgnored s = false ↔ Idle s := by
  simp [cmdIgnored, Idle]

theorem cmdIgnored_eq_true_iff {s : State} : cmdIgnored s = true ↔ ¬ Idle s := by
  rw [← cmdIgnored_eq_false_iff, Bool.not_eq_false]

/-- The host's queue decides nothing about whether the block is idle. -/
theorem idle_withBus {s : State} (b : List HostOp) (h : Idle s) : Idle (withBus b s) := h

theorem writeCmd_of_not_idle {w : Word} {s : State} (h : ¬ Idle s) : writeCmd w s = s := by
  simp [writeCmd, cmdIgnored_eq_true_iff.2 h]

theorem writeCmd_of_error {w : Word} {s : State} {why : IllegalWord} (h : Idle s)
    (hw : decodeCmd w = .error why) : writeCmd w s = illegalCommand w s := by
  simp [writeCmd, cmdIgnored_eq_false_iff.2 h, hw]

theorem writeCmd_of_ok {w : Word} {s : State} {i : Instr} (h : Idle s) (hw : decodeCmd w = .ok i) :
    writeCmd w s = start i s := by
  simp [writeCmd, cmdIgnored_eq_false_iff.2 h, hw]

/-! ### A step, by the head of the host's queue -/

theorem step_of_bus {s : State} {op : HostOp} {rest : List HostOp} (hl : s.params.legal = true)
    (h : s.bus = op :: rest) : step s = hostStep op (withBus rest s) := by
  simp [step, stepOf, hl, h, withBus]

theorem step_illegalConfiguration {s : State} (hl : s.params.legal = false) :
    step s = .refused .illegalConfiguration := by
  simp [step, stepOf, hl]

section
variable {s : State} {rest : List HostOp} (hl : s.params.legal = true)
include hl

theorem step_command_ignored {w : Word} (h : s.bus = .command w :: rest) (hi : ¬ Idle s) :
    step s = .next (withBus (.waitIdle :: rest) s) := by
  have hig : cmdIgnored (withBus rest s) = true := cmdIgnored_eq_true_iff.2 hi
  simp only [step_of_bus hl h, hostStep, commandStep, hig, if_true]
  rfl

theorem step_command_error {w : Word} {why : IllegalWord} (h : s.bus = .command w :: rest) (hi : Idle s)
    (hw : decodeCmd w = .error why) : step s = .next (illegalCommand w (withBus rest s)) := by
  have hig : cmdIgnored (withBus rest s) = false := cmdIgnored_eq_false_iff.2 hi
  simp [step_of_bus hl h, hostStep, commandStep, hig, hw]

theorem step_command_ok {w : Word} {i : Instr} (h : s.bus = .command w :: rest) (hi : Idle s)
    (hw : decodeCmd w = .ok i) : step s = exec i (withBus rest s) := by
  have hig : cmdIgnored (withBus rest s) = false := cmdIgnored_eq_false_iff.2 hi
  simp [step_of_bus hl h, hostStep, commandStep, hig, hw]

theorem step_write {addr bytes off : Nat} {v : Word} (h : s.bus = .write addr bytes v :: rest)
    (ho : windowOffset s.params addr bytes = some off) :
    step s = .next (writeRegister off v (withBus rest s)) := by
  have ho' : windowOffset (withBus rest s).params addr bytes = some off := ho
  simp [step_of_bus hl h, hostStep, ho']

theorem step_write_cmd {w : Word} (h : s.bus = .write s.params.base 4 w :: rest) :
    step s = .next (writeCmd w (withBus rest s)) := by
  rw [step_write hl h (windowOffset_base _)]
  rfl

theorem step_write_inadmissible {addr bytes : Nat} {v : Word} (h : s.bus = .write addr bytes v :: rest)
    (ho : windowOffset s.params addr bytes = none) : step s = .fault .inadmissibleAccess := by
  have ho' : windowOffset (withBus rest s).params addr bytes = none := ho
  simp [step_of_bus hl h, hostStep, ho']

theorem step_read {addr bytes off : Nat} (h : s.bus = .read addr bytes :: rest)
    (ho : windowOffset s.params addr bytes = some off) :
    step s = .next (readRegister off (withBus rest s)) := by
  have ho' : windowOffset (withBus rest s).params addr bytes = some off := ho
  simp [step_of_bus hl h, hostStep, ho']

theorem step_read_inadmissible {addr bytes : Nat} (h : s.bus = .read addr bytes :: rest)
    (ho : windowOffset s.params addr bytes = none) : step s = .fault .inadmissibleAccess := by
  have ho' : windowOffset (withBus rest s).params addr bytes = none := ho
  simp [step_of_bus hl h, hostStep, ho']

theorem step_assertRst (h : s.bus = .assertRst :: rest) :
    step s = .next (blockReset true (withBus rest s)) := step_of_bus hl h

theorem step_releaseRst (h : s.bus = .releaseRst :: rest) :
    step s = .next { withBus rest s with rst := false } := step_of_bus hl h

end

/-! ### What a step can do -/

/-- The host's next operation writes the word `w` to CMD, waiting for the command or not. -/
def WritesCmd (w : Word) (rest : List HostOp) (s : State) : Prop :=
  s.bus = .command w :: rest ∨ s.bus = .write s.params.base 4 w :: rest

/-- The ways in which a step from `s` answers the next state `t`. -/
inductive StepCase (s t : State) : Prop where
  /-- The engine runs one step. -/
  | engine (b : List HostOp) (ht : t = engineStep (withBus b s))
  /-- Only the queue changes: a wait has ended, or a write was ignored. -/
  | queue (b : List HostOp) (ht : t = withBus b s)
  /-- An idle block takes an illegal word. -/
  | illegal (w : Word) (rest : List HostOp) (hi : Idle s) (hb : WritesCmd w rest s)
      (ht : t = illegalCommand w (withBus rest s))
  /-- An idle block runs a command to its end. -/
  | run (w : Word) (i : Instr) (rest : List HostOp) (hi : Idle s) (hb : WritesCmd w rest s)
      (ht : exec i (withBus rest s) = .next t)
  /-- An idle block accepts a command, which waits at its first primitive. -/
  | start (w : Word) (i : Instr) (rest : List HostOp) (hi : Idle s) (hb : WritesCmd w rest s)
      (ht : t = Machine.start i (withBus rest s))
  /-- The host reads a register. -/
  | read (addr bytes off : Nat) (rest : List HostOp) (hb : s.bus = .read addr bytes :: rest)
      (ht : t = readRegister off (withBus rest s))
  /-- `rst` is asserted. -/
  | assertRst (rest : List HostOp) (hb : s.bus = .assertRst :: rest) (ht : t = blockReset true (withBus rest s))
  /-- `rst` is released. -/
  | releaseRst (rest : List HostOp) (hb : s.bus = .releaseRst :: rest) (ht : t = { withBus rest s with rst := false })

theorem legal_of_step {s t : State} (h : step s = .next t) : s.params.legal = true := by
  by_contra hl
  simp [step_illegalConfiguration (by simpa using hl)] at h

theorem stepCase_command {s t : State} {w : Word} {rest : List HostOp} (h : step s = .next t)
    (hb : s.bus = .command w :: rest) : StepCase s t := by
  have hl := legal_of_step h
  by_cases hi : Idle s
  · cases hw : decodeCmd w with
    | error why =>
      rw [step_command_error hl hb hi hw] at h
      cases h
      exact .illegal w rest hi (.inl hb) rfl
    | ok i =>
      rw [step_command_ok hl hb hi hw] at h
      exact .run w i rest hi (.inl hb) h
  · rw [step_command_ignored hl hb hi] at h
    cases h
    exact .queue _ rfl

theorem stepCase_write {s t : State} {addr bytes : Nat} {v : Word} {rest : List HostOp} (h : step s = .next t)
    (hb : s.bus = .write addr bytes v :: rest) : StepCase s t := by
  have hl := legal_of_step h
  cases ho : windowOffset s.params addr bytes with
  | none => simp [step_write_inadmissible hl hb ho] at h
  | some off =>
    rw [step_write hl hb ho] at h
    cases h
    by_cases hc : off = cmdOffset
    · obtain ⟨⟨rfl, hle, -⟩, hoff⟩ := windowOffset_eq_some_iff.1 ho
      obtain rfl : addr = s.params.base := by simp [hc, cmdOffset] at hoff; omega
      simp only [writeRegister, hc, if_true]
      by_cases hi : Idle s
      · cases hw : decodeCmd v with
        | error why =>
          rw [writeCmd_of_error (idle_withBus rest hi) hw]
          exact .illegal v rest hi (.inr hb) rfl
        | ok i =>
          rw [writeCmd_of_ok (idle_withBus rest hi) hw]
          exact .start v i rest hi (.inr hb) rfl
      · rw [writeCmd_of_not_idle (s := withBus rest s) hi]
        exact .queue rest rfl
    · simp only [writeRegister, hc, if_false]
      exact .queue rest rfl

/-- The inversion of a step: one of the eight cases. -/
theorem stepCase_of_step {s t : State} (h : step s = .next t) : StepCase s t := by
  have hl := legal_of_step h
  cases hb : s.bus with
  | nil =>
    rw [step_alone hl hb] at h
    cases h
    exact .engine s.bus rfl
  | cons op rest =>
    cases op with
    | command w => exact stepCase_command h hb
    | write addr bytes v => exact stepCase_write h hb
    | read addr bytes =>
      cases ho : windowOffset s.params addr bytes with
      | none => simp [step_read_inadmissible hl hb ho] at h
      | some off =>
        rw [step_read hl hb ho] at h
        cases h
        exact .read addr bytes off rest hb rfl
    | waitIdle =>
      cases hbusy : s.status.busy with
      | true =>
        rw [step_waitIdle_busy hl hb hbusy] at h
        cases h
        exact .engine s.bus rfl
      | false =>
        rw [step_waitIdle_done hl hb hbusy] at h
        cases h
        exact .queue rest rfl
    | pause =>
      rw [step_pause hl hb] at h
      cases h
      exact .engine rest rfl
    | assertRst =>
      rw [step_assertRst hl hb] at h
      cases h
      exact .assertRst rest hb rfl
    | releaseRst =>
      rw [step_releaseRst hl hb] at h
      cases h
      exact .releaseRst rest hb rfl

end Sys2Proof.Machine
end

section
/-!
PROOF. The step and the register window: what each host operation does, and where a step stops
(30_encoding.md R86, R93; 60_exceptions.md R220-R231; 20_memory.md R65-R75).
-/

namespace Sys2Proof.Machine

/-- Every command answers a next state. -/
theorem exec_completes (i : Instr) (s : State) : ∃ t, exec i s = .next t := by
  cases i <;> exact ⟨_, rfl⟩

/-- Settles O6: a step by the head of the queue. -/
theorem stepRunsDecodedCommand : Obligations.StepRunsDecodedCommand := by
  unfold Obligations.StepRunsDecodedCommand
  exact ⟨fun s w i rest hl hi hb hw => step_command_ok hl hb hi hw,
    fun s rest hl => ⟨step_alone hl, step_pause hl, step_waitIdle_busy hl, step_waitIdle_done hl,
      fun w hb hi => step_command_ignored hl hb hi⟩⟩

theorem ofNat_word_mod (n : Nat) : BitVec.ofNat 32 (n % 2 ^ 32) = BitVec.ofNat 32 n := by
  apply BitVec.eq_of_toNat_eq
  simp

/-- Settles O7: the placed word is a command at the head of an idle block's queue, and decodes to `i`. -/
theorem placedWordRunsNext : Obligations.PlacedWordRunsNext := by
  unfold Obligations.PlacedWordRunsNext
  intro s w i hl hw
  have hdec : decodeCmd (BitVec.ofNat 32 (w % 2 ^ 32)) = .ok i := by
    rw [ofNat_word_mod]
    exact decodeTableWord_eq_some_iff.1 hw
  exact step_command_ok (s := s.withFetchWord 32 w) hl rfl ⟨rfl, rfl⟩ hdec

/-- A command word taken from the host by an idle block that rejects it, in either way of writing it. -/
theorem step_of_illegalWord {s : State} {w : Word} {why : IllegalWord} {rest : List HostOp}
    (hl : s.params.legal = true) (hi : Idle s) (hb : WritesCmd w rest s) (hw : decodeCmd w = .error why) :
    step s = .next (illegalCommand w (withBus rest s)) := by
  rcases hb with hb | hb
  · exact step_command_error hl hb hi hw
  · rw [step_write_cmd hl hb, writeCmd_of_error (idle_withBus rest hi) hw]

theorem illegalCommand_eq (w : Word) (s : State) : illegalCommand w s = { s with
    cmdOp := opField w, cmdArg := argField w,
    status := { s.status with code := .illegalCommand, busy := false, warn := false } } := rfl

/-- Settles O8: acceptance and end of an illegal word leave BUSY as it was, 0. -/
theorem illegalWordSetsCodeOnly : Obligations.IllegalWordSetsCodeOnly := by
  unfold Obligations.IllegalWordSetsCodeOnly
  intro s w why rest hl hi hb hw
  obtain ⟨-, hbusy⟩ := id hi
  rw [step_of_illegalWord hl hi hb hw, illegalCommand_eq]
  simp only [withBus, hbusy]
  rfl

theorem not_idle_of_busy {s : State} (h : s.status.busy = true) : ¬ Idle s := by
  simp [Idle, h]

/-- Settles O9: a block with BUSY = 1 is not idle. -/
theorem busyCommandWriteIsIgnored : Obligations.BusyCommandWriteIsIgnored := by
  unfold Obligations.BusyCommandWriteIsIgnored
  intro s w rest hl hbusy hb
  rw [step_write_cmd hl hb, writeCmd_of_not_idle (s := withBus rest s) (not_idle_of_busy hbusy)]
  rfl

/-! ### Where a step stops -/

/-- The next host operation is an access 20_memory.md R65 does not admit. -/
def InadmissibleNext (s : State) : Prop :=
  ∃ addr bytes rest, (s.bus = .read addr bytes :: rest ∨ ∃ v, s.bus = .write addr bytes v :: rest) ∧
    windowOffset s.params addr bytes = none

/-- With legal parameters a step answers a next state, or faults on an inadmissible access. -/
theorem step_next_or_inadmissible {s : State} (hl : s.params.legal = true) :
    (∃ t, step s = .next t) ∨ InadmissibleNext s := by
  cases hb : s.bus with
  | nil => exact .inl ⟨_, step_alone hl hb⟩
  | cons op rest =>
    cases op with
    | command w =>
      by_cases hi : Idle s
      · cases hw : decodeCmd w with
        | error why => exact .inl ⟨_, step_command_error hl hb hi hw⟩
        | ok i => exact .inl (step_command_ok hl hb hi hw ▸ exec_completes i _)
      · exact .inl ⟨_, step_command_ignored hl hb hi⟩
    | write addr bytes v =>
      cases ho : windowOffset s.params addr bytes with
      | none => exact .inr ⟨addr, bytes, rest, .inr ⟨v, hb⟩, ho⟩
      | some off => exact .inl ⟨_, step_write hl hb ho⟩
    | read addr bytes =>
      cases ho : windowOffset s.params addr bytes with
      | none => exact .inr ⟨addr, bytes, rest, .inl hb, ho⟩
      | some off => exact .inl ⟨_, step_read hl hb ho⟩
    | waitIdle =>
      cases hbusy : s.status.busy with
      | true => exact .inl ⟨_, step_waitIdle_busy hl hb hbusy⟩
      | false => exact .inl ⟨_, step_waitIdle_done hl hb hbusy⟩
    | pause => exact .inl ⟨_, step_pause hl hb⟩
    | assertRst => exact .inl ⟨_, step_assertRst hl hb⟩
    | releaseRst => exact .inl ⟨_, step_releaseRst hl hb⟩

theorem step_of_inadmissible {s : State} (hl : s.params.legal = true) (h : InadmissibleNext s) :
    step s = .fault .inadmissibleAccess := by
  obtain ⟨addr, bytes, rest, hb | ⟨v, hb⟩, ho⟩ := h
  · exact step_read_inadmissible hl hb ho
  · exact step_write_inadmissible hl hb ho

/-- Settles O13: a step that does not answer a next state has met an inadmissible access. -/
theorem onlyInadmissibleAccessFaults : Obligations.OnlyInadmissibleAccessFaults := by
  unfold Obligations.OnlyInadmissibleAccessFaults
  intro s hl
  simp only [← windowOffset_eq_none_iff]
  refine ⟨fun ⟨r, h⟩ => ?_, fun h => ⟨_, step_of_inadmissible hl h⟩⟩
  obtain ⟨t, ht⟩ | hbad := step_next_or_inadmissible hl
  · simp [ht] at h
  · exact hbad

theorem legal_iff {p : Params} : p.legal = true ↔
    (p.initGain = 64#8 ∨ p.initGain = 128#8) ∧ 1 ≤ p.readyMaxTries ∧ p.readyMaxTries ≤ 255 ∧
      1 ≤ p.recoveryReads ∧ p.recoveryReads ≤ 15 ∧ 1 ≤ p.resetSettleReads ∧ p.resetSettleReads ≤ 15 := by
  simp only [Params.legal, gainLegal, Bool.and_eq_true, Bool.or_eq_true, beq_iff_eq, decide_eq_true_eq]
  tauto

/-- Settles O14: a step with legal parameters answers a next state or a fault. -/
theorem refusedExactlyForIllegalConfiguration : Obligations.RefusedExactlyForIllegalConfiguration := by
  unfold Obligations.RefusedExactlyForIllegalConfiguration
  intro s
  rw [← legal_iff]
  refine ⟨fun ⟨r, h⟩ hl => ?_, fun hl => ⟨_, step_illegalConfiguration (by simpa using hl)⟩⟩
  obtain ⟨t, ht⟩ | hbad := step_next_or_inadmissible hl
  · simp [ht] at h
  · simp [step_of_inadmissible hl hbad] at h

/-! ### Reads and writes of the window -/

/-- Settles O17: only offset 0 takes a write. -/
theorem writesOutsideCmdAreIgnored : Obligations.WritesOutsideCmdAreIgnored := by
  unfold Obligations.WritesOutsideCmdAreIgnored
  intro s off v rest hl hpos hlt h4 hb
  have hoff : off ≠ cmdOffset := by simp [cmdOffset]; omega
  rw [step_write hl hb (windowOffset_base_add _ hlt h4), writeRegister, if_neg hoff]
  rfl

theorem readRegister_exact {off : Nat} {s : State} (h : s.status.busy = false ∨ off = statusOffset) :
    readRegister off s = { s with reads := registerWord off s :: s.reads } := by
  rcases h with h | h <;> simp [readRegister, h]

theorem readRegister_free {off : Nat} {s : State} (hb : s.status.busy = true) (ho : off ≠ statusOffset) :
    readRegister off s =
      { s with reads := Config.freeWord s.env.draws :: s.reads, env.draws := s.env.draws + 1 } := by
  simp [readRegister, hb, ho]

/-- While BUSY = 1 a register read but that of STATUS draws a free value (20_memory.md R68). -/
theorem memRead_busy {s : State} {off : Nat} (hl : s.params.legal = true) (hb : s.status.busy = true)
    (h : off < 32) (h4 : off % 4 = 0) (ho : off ≠ statusOffset) :
    memRead off s = some (Config.freeWord s.env.draws, { s with
      bus := [], reads := Config.freeWord s.env.draws :: s.reads, env.draws := s.env.draws + 1 }) := by
  have hread : issue (.read (s.params.base + off) 4) s = .next (readRegister off (withBus [] s)) :=
    step_read (s := withBus [.read (s.params.base + off) 4] s) hl rfl (windowOffset_base_add _ h h4)
  rw [memRead, hread, readRegister_free (s := withBus [] s) hb ho]
  rfl

end Sys2Proof.Machine
end

section
/-!
PROOF. The register words (10_state.md R36-R45): a field is found by peeling the concatenation the word is built of.
-/

namespace Sys2Proof.Machine

/-- Bits beyond a value's width read 0. -/
theorem extractLsb'_of_width_le {w start len : Nat} (x : BitVec w) (h : w ≤ start) :
    x.extractLsb' start len = 0#len := by
  ext k hk
  simp only [BitVec.getElem_extractLsb', BitVec.getElem_zero]
  exact BitVec.getLsbD_of_ge x (start + k) (by omega)

theorem statusWord_fields (s : State) :
    (statusWord s).extractLsb' 0 4 = s.status.code.bits ∧
      (statusWord s).extractLsb' 4 1 = BitVec.ofBool s.status.busy ∧
      (statusWord s).extractLsb' 5 1 = BitVec.ofBool s.status.warn ∧
      (statusWord s).extractLsb' 6 1 = BitVec.ofBool s.status.fatal ∧
      (statusWord s).extractLsb' 7 1 = 0#1 ∧
      (statusWord s).extractLsb' 8 4 = s.status.settleCode.bits ∧
      (statusWord s).extractLsb' 12 20 = 0#20 := by
  simp (disch := decide) only [statusWord, BitVec.extractLsb'_setWidth_of_le, BitVec.extractLsb'_append_eq_of_le,
    BitVec.extractLsb'_append_eq_of_add_le, extractLsb'_of_width_le]
  simp

theorem configWord_fields (s : State) :
    (configWord s).extractLsb' 0 1 = channelBit s.config.channel ∧
      (configWord s).extractLsb' 1 7 = 0#7 ∧
      (configWord s).extractLsb' 8 8 = s.config.gainA ∧
      (configWord s).extractLsb' 16 2 = BitVec.ofNat 2 (trailOf s) ∧
      (configWord s).extractLsb' 18 2 = s.config.armed ∧
      (configWord s).extractLsb' 20 2 = s.config.sampleCfg ∧
      (configWord s).extractLsb' 22 10 = 0#10 := by
  simp (disch := decide) only [configWord, BitVec.extractLsb'_setWidth_of_le, BitVec.extractLsb'_append_eq_of_le,
    BitVec.extractLsb'_append_eq_of_add_le, extractLsb'_of_width_le]
  simp

theorem rawWord_fields (s : State) :
    (rawWord s).extractLsb' 0 24 = s.raw ∧ (rawWord s).extractLsb' 24 8 = 0#8 := by
  simp [rawWord, BitVec.extractLsb'_setWidth_of_le, BitVec.extractLsb'_eq_self, extractLsb'_of_width_le]

theorem diagWord_fields (s : State) :
    (diagWord s).extractLsb' 0 8 = s.diag.polls ∧ (diagWord s).extractLsb' 8 8 = s.diag.bitcnt ∧
      (diagWord s).extractLsb' 16 4 = s.diag.trailcnt ∧ (diagWord s).extractLsb' 20 4 = s.diag.recValid ∧
      (diagWord s).extractLsb' 24 8 = 0#8 := by
  simp (disch := decide) only [diagWord, BitVec.extractLsb'_setWidth_of_le, BitVec.extractLsb'_append_eq_of_le,
    BitVec.extractLsb'_append_eq_of_add_le, extractLsb'_of_width_le]
  simp

/-- Settles O18: the numbers of the codes by their definition, the fields word by word. -/
theorem registerWordFields : Obligations.RegisterWordFields := by
  unfold Obligations.RegisterWordFields
  exact ⟨by decide, fun s => ⟨statusWord_fields s, configWord_fields s, rawWord_fields s, diagWord_fields s⟩⟩

/-- Settles O19: the table of the trailing count, shown by CONFIG.TRAIL. -/
theorem trailCountTable : Obligations.TrailCountTable := by
  unfold Obligations.TrailCountTable
  intro s
  obtain ⟨-, -, -, htrail, -⟩ := configWord_fields s
  rw [htrail]
  refine ⟨fun hc hg => ?_, fun hc hg => ?_, fun hc => ?_⟩
  · simp [trailOf, trailCount, hc, hg]
  · simp [trailOf, trailCount, hc, hg]
  · simp [trailOf, trailCount, hc]

/-- Settles O20: the guard is the comparison with the threshold. -/
theorem guardTripsAtThreshold : Obligations.GuardTripsAtThreshold := by
  unfold Obligations.GuardTripsAtThreshold
  intro p e
  simp [guardTrips]

/-! ### What the host reads -/

/-- Settles O15: an exact read of the register at the offset; the getters take CONFIG's fields from such a read. -/
theorem idleReadReturnsRegister : Obligations.IdleReadReturnsRegister := by
  unfold Obligations.IdleReadReturnsRegister
  refine ⟨fun s off rest hl hbusy hlt h4 hb => ?_, fun s hl hbusy => ?_⟩
  · rw [step_read hl hb (windowOffset_base_add _ hlt h4), readRegister_exact (s := withBus rest s) (.inl hbusy)]
    rfl
  · obtain ⟨hchannel, -, hgain, -⟩ := configWord_fields s
    have hread : memRead configOffset s =
        some (configWord s, { s with bus := [], reads := configWord s :: s.reads }) :=
      memRead_idle hl hbusy (by decide) rfl
    simp [getChannel, getGain, hread, hchannel, hgain]

/-- Settles O16: the read of STATUS is exact, the others draw. -/
theorem busyReadIsExactForStatusOnly : Obligations.BusyReadIsExactForStatusOnly := by
  unfold Obligations.BusyReadIsExactForStatusOnly
  refine ⟨fun s off rest hl hbusy hlt h4 hb => ?_, fun s hl hbusy => ?_⟩
  · rw [step_read hl hb (windowOffset_base_add _ hlt h4)]
    refine ⟨fun ho => ?_, fun ho => ?_⟩
    · rw [readRegister_exact (.inr ho), ho]
      rfl
    · rw [readRegister_free (s := withBus rest s) hbusy ho]
      rfl
  · simp [getChannel, getGain, memRead_busy (off := configOffset) hl hbusy (by decide) rfl (by decide)]

/-- Settles O57: the words of the reset values, whatever the open parameters are. -/
theorem resetRegisterWords : Obligations.ResetRegisterWords := by
  unfold Obligations.ResetRegisterWords
  decide

end Sys2Proof.Machine
end

section
/-!
PROOF. The decode (40_read_cycle.md R118, R125): two's complement of 24 bits.
-/

namespace Sys2Proof.Machine

/-- The decode is the signed reading of the frame (R118). -/
theorem decodeSample_eq_toInt (r : Frame) : decodeSample r = r.toInt := by
  have hxor : r ^^^ 0xFFFFFF#24 = ~~~r := by
    rw [BitVec.xor_comm]
    exact BitVec.allOnes_xor (x := r)
  have hmsb : r.msb = r.getLsbD 23 := rfl
  have hlt := r.isLt
  rw [decodeSample, hxor, BitVec.toInt_eq_msb_cond, hmsb, BitVec.toNat_not]
  split <;> omega

/-- Settles O21: the signed reading of a frame, and of its sign extension. -/
theorem decodeIsTwosComplement : Obligations.DecodeIsTwosComplement := by
  unfold Obligations.DecodeIsTwosComplement
  intro r
  have hmsb : r.msb = r.getLsbD 23 := rfl
  rw [decodeSample_eq_toInt]
  refine ⟨?_, BitVec.toInt_signExtend_of_le (by decide)⟩
  rw [BitVec.toInt_eq_msb_cond, hmsb]
  split <;> simp

theorem isSentinel_eq_false_iff (r : Frame) :
    isSentinel r = false ↔ r.toInt ≠ 2 ^ 23 - 1 ∧ r.toInt ≠ -(2 ^ 23) := by
  have hmax : r = sentinelMax ↔ r.toInt = 2 ^ 23 - 1 := by
    rw [← BitVec.toInt_inj]
    rfl
  have hmin : r = sentinelMin ↔ r.toInt = -(2 ^ 23) := by
    rw [← BitVec.toInt_inj]
    rfl
  simp [isSentinel, hmax, hmin]

/-- Settles O22: the frames are the signed 24-bit numbers, and the sentinels the two ends of their range. -/
theorem decodeRoundTripAndRange : Obligations.DecodeRoundTripAndRange := by
  unfold Obligations.DecodeRoundTripAndRange
  simp only [isSentinel_eq_false_iff, decodeSample_eq_toInt]
  refine ⟨fun x hlo hhi => ?_, fun r hr => ?_⟩
  · have hx : (BitVec.ofInt 24 x).toInt = x := by
      rw [BitVec.toInt_ofInt]
      exact Int.bmod_eq_of_le (by simp; omega) (by simp; omega)
    omega
  · have hlo := BitVec.le_toInt r
    have hhi := BitVec.toInt_lt (x := r)
    simp only [Nat.reduceSub] at hlo hhi
    omega

end Sys2Proof.Machine
end

section
/-!
PROOF. The invariants of the registers and of the history (10_state.md R42, R43, 60_exceptions.md R210, 00_scope.md
R7, R10): each named update either leaves what they speak of alone, or writes a legal value there.
-/

namespace Sys2Proof.Machine

/-- An update that leaves alone everything the four invariants and the parameters are about. -/
def Untouched (s t : State) : Prop :=
  t.params = s.params ∧ t.config.gainA = s.config.gainA ∧ t.sample = s.sample ∧
    t.status.settleCode = s.status.settleCode ∧ t.env.lastNow = s.env.lastNow ∧
    timeReads t.events = timeReads s.events

/-- What every update of the machine keeps: the parameters, and each of the four invariants. -/
structure Keeps (s t : State) : Prop where
  params : t.params = s.params
  config : s.params.legal = true → ConfigLegal s → ConfigLegal t
  sample : SampleSound s → SampleSound t
  settleCode : SettleCodeLegal s → SettleCodeLegal t
  time : TimeOrdered s → TimeOrdered t

theorem Untouched.keeps {s t : State} (h : Untouched s t) : Keeps s t := by
  obtain ⟨hp, hg, hs, hc, hn, he⟩ := h
  exact ⟨hp, fun _ => by simp [ConfigLegal, hg], by simp [SampleSound, hs], by simp [SettleCodeLegal, hc],
    by simp [TimeOrdered, hn, he]⟩

@[simp] theorem afterLevel_lastNow (e : Env) : e.afterLevel.lastNow = e.lastNow := by
  unfold Env.afterLevel; split <;> rfl

@[simp] theorem afterNow_lastNow (e : Env) : e.afterNow.lastNow = e.nextNow := by
  unfold Env.afterNow; split <;> rfl

@[simp] theorem latchSample_gainA (latch : Bool) (s : State) :
    (latchSample latch s).config.gainA = s.config.gainA := by
  unfold latchSample; split <;> rfl

/-- A reading of the time source is not below the last one (00_scope.md R10). -/
theorem now_timeOrdered {s : State} (h : TimeOrdered s) : TimeOrdered (now s).2 := by
  have hle : s.env.lastNow ≤ s.env.nextNow := Nat.le_add_right _ _
  obtain ⟨hlast, hrest⟩ := List.pairwise_cons.1 h
  simp only [TimeOrdered, now_env, afterNow_lastNow, now_events, timeReads, List.pairwise_cons, List.mem_cons,
    forall_eq_or_imp]
  exact ⟨⟨Nat.le_refl _, fun t ht => (hlast t ht).trans hle⟩, fun t ht => (hlast t ht).trans hle, hrest⟩

/-- A latching cycle delivers only a frame that is no sentinel (40_read_cycle.md R117, R118). -/
theorem latchSample_sound (latch : Bool) {s : State} (h : SampleSound s) : SampleSound (latchSample latch s) := by
  unfold latchSample
  split
  · next hl =>
    simp only [Bool.and_eq_true, Bool.not_eq_true'] at hl
    exact ⟨s.shreg, hl.2, rfl⟩
  · exact h

theorem keeps_closed : MachineClosed Keeps where
  refl _ := Untouched.keeps ⟨rfl, rfl, rfl, rfl, rfl, rfl⟩
  trans h1 h2 := ⟨h2.params.trans h1.params, fun hl h => h2.config (h1.params ▸ hl) (h1.config hl h),
    h2.sample ∘ h1.sample, h2.settleCode ∘ h1.settleCode, h2.time ∘ h1.time⟩
  readData _ := Untouched.keeps ⟨rfl, rfl, rfl, rfl, by simp, rfl⟩
  now _ := ⟨rfl, fun _ h => h, id, id, now_timeOrdered⟩
  setClk _ _ := Untouched.keeps ⟨rfl, rfl, rfl, rfl, rfl, rfl⟩
  sleep _ _ := Untouched.keeps ⟨rfl, rfl, rfl, rfl, rfl, rfl⟩
  pollDone _ := Untouched.keeps (by simp [Untouched])
  beginData _ := Untouched.keeps (by simp [Untouched])
  bitDone _ _ := Untouched.keeps (by simp [Untouched])
  beginTrail _ := Untouched.keeps (by simp [Untouched])
  trailDone _ := Untouched.keeps (by simp [Untouched])
  disarm _ := Untouched.keeps ⟨rfl, rfl, rfl, rfl, rfl, rfl⟩
  armTrail _ := Untouched.keeps ⟨rfl, rfl, rfl, rfl, rfl, rfl⟩
  latchSample _ := Untouched.keeps ⟨rfl, rfl, rfl, rfl, rfl, rfl⟩
  beginSubs _ := Untouched.keeps ⟨rfl, rfl, rfl, rfl, rfl, rfl⟩
  beginSub _ := Untouched.keeps (by simp [Untouched])
  subDone _ _ := Untouched.keeps ⟨rfl, rfl, rfl, rfl, rfl, rfl⟩
  beginTop _ := Untouched.keeps (by simp [Untouched])
  endRecovery _ := Untouched.keeps ⟨rfl, rfl, rfl, rfl, rfl, rfl⟩
  beginTrailTop _ _ := Untouched.keeps (by simp [Untouched])
  latchSampleTop _ _ := ⟨by simp, fun _ => by simp [ConfigLegal], latchSample_sound _, by simp [SettleCodeLegal],
    by simp [TimeOrdered]⟩
  goTo _ _ := Untouched.keeps ⟨rfl, rfl, rfl, rfl, rfl, rfl⟩
  accept _ _ _ := Untouched.keeps ⟨rfl, rfl, rfl, rfl, rfl, rfl⟩
  retire _ _ := Untouched.keeps ⟨rfl, rfl, rfl, rfl, rfl, rfl⟩
  clearDiag _ := Untouched.keeps ⟨rfl, rfl, rfl, rfl, rfl, rfl⟩
  noteRecValid _ := Untouched.keeps ⟨rfl, rfl, rfl, rfl, rfl, rfl⟩
  setWarn _ := Untouched.keeps ⟨rfl, rfl, rfl, rfl, rfl, rfl⟩
  setFatal _ _ := Untouched.keeps ⟨rfl, rfl, rfl, rfl, rfl, rfl⟩
  setSettleCode _ _ hc := ⟨rfl, fun _ h => h, id, fun _ => .inl hc, id⟩
  setChannel _ _ := Untouched.keeps ⟨rfl, rfl, rfl, rfl, rfl, rfl⟩
  setGainA _ _ hg := ⟨rfl, fun _ _ => hg, id, id, id⟩
  setBus _ _ := Untouched.keeps ⟨rfl, rfl, rfl, rfl, rfl, rfl⟩
  readRegister _ _ := Untouched.keeps (by unfold readRegister; split <;> exact ⟨rfl, rfl, rfl, rfl, rfl, rfl⟩)
  blockReset _ := ⟨rfl, fun hl _ => by
      simp only [Params.legal, Bool.and_eq_true] at hl
      exact hl.2, fun _ => ⟨0#24, by decide, (by decide : 0#32 = deliver 0#24)⟩, fun _ => .inr rfl, id⟩
  releaseRst _ := Untouched.keeps ⟨rfl, rfl, rfl, rfl, rfl, rfl⟩

/-- Settles O48: only the delivery of a frame that is no sentinel, and block reset, write SAMPLE. -/
theorem sampleIsNeverASentinel : Obligations.SampleIsNeverASentinel := by
  unfold Obligations.SampleIsNeverASentinel
  exact fun s t h hs => (keeps_closed.step hs).sample h

/-- Settles O49: only the code of a settle read, and block reset, are written to SETTLE_CODE. -/
theorem settleCodeStaysACycleCode : Obligations.SettleCodeStaysACycleCode := by
  unfold Obligations.SettleCodeStaysACycleCode
  exact fun s t h hs => (keeps_closed.step hs).settleCode h

/-- Settles O50: a reading of the time source adds to the last one. -/
theorem timeNeverRunsBackwards : Obligations.TimeNeverRunsBackwards := by
  unfold Obligations.TimeNeverRunsBackwards
  exact fun s t h hs => (keeps_closed.step hs).time h

/-- Settles O53: no update writes the parameters. -/
theorem parametersNeverChange : Obligations.ParametersNeverChange := by
  unfold Obligations.ParametersNeverChange
  exact fun s t hs => (keeps_closed.step hs).params

end Sys2Proof.Machine
end

section
/-!
PROOF. Who writes GAIN_A, the latches and FATAL (10_state.md R35, R39, R42, 70_reset_and_hazards.md R240): a step of
the engine from a point of a command in progress writes none of them but FATAL, at the end of `reset`.
-/

namespace Sys2Proof.Machine

/-! ### The parts of an engine step -/

/-- What an engine step leaves alone, but for FATAL at the end of `reset`. -/
def CommandKept (s t : State) : Prop :=
  t.cmdOp = s.cmdOp ∧ t.cmdArg = s.cmdArg ∧ t.config.channel = s.config.channel ∧
    t.config.gainA = s.config.gainA

/-- ... and FATAL. -/
def FatalKept (s t : State) : Prop := CommandKept s t ∧ t.status.fatal = s.status.fatal

theorem FatalKept.trans {s t u : State} (h1 : FatalKept s t) (h2 : FatalKept t u) : FatalKept s u := by
  obtain ⟨⟨a, b, c, d⟩, e⟩ := h1
  obtain ⟨⟨a', b', c', d'⟩, e'⟩ := h2
  exact ⟨⟨a'.trans a, b'.trans b, c'.trans c, d'.trans d⟩, e'.trans e⟩

theorem fatalKept_goTo {s t : State} (p : Point) (h : FatalKept s t) : FatalKept s (goTo p t) := h

theorem fatalKept_cycleEnded (c : Code) {s t : State} (h : FatalKept s t) : FatalKept s (cycleEnded c t) := by
  refine h.trans ?_
  unfold cycleEnded; split
  · split <;> exact ⟨⟨rfl, rfl, rfl, rfl⟩, rfl⟩
  · exact ⟨⟨rfl, rfl, rfl, rfl⟩, rfl⟩

theorem fatalKept_trailTripped {s t : State} (h : FatalKept s t) : FatalKept s (trailTripped t) := by
  unfold trailTripped; split
  · exact h.trans ⟨⟨rfl, rfl, rfl, rfl⟩, rfl⟩
  · exact fatalKept_cycleEnded _ h

theorem fatalKept_latchSample (l : Bool) (s : State) : FatalKept s (latchSample l s) := by
  unfold latchSample; split <;> exact ⟨⟨rfl, rfl, rfl, rfl⟩, rfl⟩

theorem fatalKept_startCycle (c : Ctx) (s : State) : FatalKept s (startCycle c s) := by
  simp [startCycle, FatalKept, CommandKept]

/-- A step of a command in progress, but the end of the settle loop of `reset`. -/
theorem tick_fatalKept {s : State} (hidle : s.seq.point ≠ .idle)
    (hend : s.seq.point ≠ .resetSettle) : FatalKept s (tick s) := by
  unfold tick
  cases hp : s.seq.point <;> dsimp only
  case idle => exact absurd hp hidle
  case resetSettle => exact absurd hp hend
  case poll => split <;> exact fatalKept_goTo _ (by simp [FatalKept, CommandKept])
  case pollWait =>
    split
    · exact fatalKept_cycleEnded _ ⟨⟨rfl, rfl, rfl, rfl⟩, rfl⟩
    · exact ⟨⟨rfl, rfl, rfl, rfl⟩, rfl⟩
  case dataStop t0 =>
    split
    · exact fatalKept_cycleEnded _ ⟨⟨rfl, rfl, rfl, rfl⟩, rfl⟩
    · exact ⟨⟨rfl, rfl, rfl, rfl⟩, rfl⟩
  case dataSample => split <;> exact fatalKept_goTo _ (by simp [FatalKept, CommandKept])
  case trailStop t0 =>
    split
    · exact fatalKept_trailTripped ⟨⟨rfl, rfl, rfl, rfl⟩, rfl⟩
    · split <;> exact fatalKept_goTo _ (by simp [FatalKept, CommandKept])
  case decode => exact fatalKept_cycleEnded _ (fatalKept_latchSample _ s)
  case recover =>
    split
    · exact fatalKept_startCycle _ s
    · exact fatalKept_cycleEnded _ ⟨⟨rfl, rfl, rfl, rfl⟩, rfl⟩
  case pdHold => split <;> exact ⟨⟨rfl, rfl, rfl, rfl⟩, rfl⟩
  case puWait => split <;> exact ⟨⟨rfl, rfl, rfl, rfl⟩, rfl⟩
  all_goals exact ⟨⟨rfl, rfl, rfl, rfl⟩, rfl⟩

theorem tick_resetSettle {s : State} (hp : s.seq.point = .resetSettle) : CommandKept s (tick s) := by
  simp only [tick, hp]
  split
  · exact (fatalKept_startCycle _ s).1
  · exact ⟨rfl, rfl, rfl, rfl⟩

theorem tick_commandKept {s : State} (hidle : s.seq.point ≠ .idle) : CommandKept s (tick s) := by
  by_cases hend : s.seq.point = .resetSettle
  · exact tick_resetSettle hend
  · exact (tick_fatalKept hidle hend).1

theorem tick_idle {s : State} (hp : s.seq.point = .idle) :
    tick s = if s.status.busy then start .reset s else s := by
  simp [tick, hp]

/-! ### Commands: what the loops of cycles leave alone, for `simp` -/

section
variable {s t : State} (h : TopKeeps s t)
include h

theorem TopKeeps.cmdOp : t.cmdOp = s.cmdOp := by
  obtain ⟨-, h, -⟩ := h
  exact h

theorem TopKeeps.cmdArg : t.cmdArg = s.cmdArg := by
  obtain ⟨-, -, h, -⟩ := h
  exact h

theorem TopKeeps.params : t.params = s.params := by
  obtain ⟨-, -, -, h, -⟩ := h
  exact h

theorem TopKeeps.rst : t.rst = s.rst := by
  obtain ⟨-, -, -, -, h, -⟩ := h
  exact h

theorem TopKeeps.bus : t.bus = s.bus := by
  obtain ⟨-, -, -, -, -, h, -⟩ := h
  exact h

theorem TopKeeps.reads : t.reads = s.reads := by
  obtain ⟨-, -, -, -, -, -, h, -⟩ := h
  exact h

theorem TopKeeps.channel : t.config.channel = s.config.channel := by
  obtain ⟨-, -, -, -, -, -, -, h, -⟩ := h
  exact h

theorem TopKeeps.gainA : t.config.gainA = s.config.gainA := by
  obtain ⟨-, -, -, -, -, -, -, -, h⟩ := h
  exact h

end

section
variable (latch : Bool) (m : Nat) (s : State)

@[simp] theorem topCycle_cmdOp : (topCycle latch s).2.cmdOp = s.cmdOp :=
  (topKeeps_closed.topCycle latch s).cmdOp
@[simp] theorem topCycle_cmdArg : (topCycle latch s).2.cmdArg = s.cmdArg :=
  (topKeeps_closed.topCycle latch s).cmdArg
@[simp] theorem topCycle_rst : (topCycle latch s).2.rst = s.rst :=
  (topKeeps_closed.topCycle latch s).rst
@[simp] theorem topCycle_bus : (topCycle latch s).2.bus = s.bus :=
  (topKeeps_closed.topCycle latch s).bus
@[simp] theorem topCycle_reads : (topCycle latch s).2.reads = s.reads :=
  (topKeeps_closed.topCycle latch s).reads
@[simp] theorem topCycle_channel : (topCycle latch s).2.config.channel = s.config.channel :=
  (topKeeps_closed.topCycle latch s).channel
@[simp] theorem topCycle_gainA : (topCycle latch s).2.config.gainA = s.config.gainA :=
  (topKeeps_closed.topCycle latch s).gainA

@[simp] theorem subLoop_cmdOp : (subLoop m s).cmdOp = s.cmdOp := (topKeeps_closed.subLoop m s).cmdOp
@[simp] theorem subLoop_cmdArg : (subLoop m s).cmdArg = s.cmdArg := (topKeeps_closed.subLoop m s).cmdArg
@[simp] theorem subLoop_params : (subLoop m s).params = s.params := (topKeeps_closed.subLoop m s).params
@[simp] theorem subLoop_rst : (subLoop m s).rst = s.rst := (topKeeps_closed.subLoop m s).rst
@[simp] theorem subLoop_bus : (subLoop m s).bus = s.bus := (topKeeps_closed.subLoop m s).bus
@[simp] theorem subLoop_reads : (subLoop m s).reads = s.reads := (topKeeps_closed.subLoop m s).reads
@[simp] theorem subLoop_channel : (subLoop m s).config.channel = s.config.channel :=
  (topKeeps_closed.subLoop m s).channel
@[simp] theorem subLoop_gainA : (subLoop m s).config.gainA = s.config.gainA := (topKeeps_closed.subLoop m s).gainA

end

/-- A command that runs to its end latches its word (10_state.md R35). -/
theorem exec_latches {i : Instr} {s t : State} (h : exec i s = .next t) : t.cmdOp = i.op ∧ t.cmdArg = i.arg := by
  cases i <;> cases h
  case readOne => simp [readOneResult, Instr.op, Instr.arg]
  case setChannel arg =>
    cases hc : channelOfArg arg <;> simp [setChannelResult, hc, settle, Instr.op, Instr.arg]
  case setGain arg =>
    by_cases hb : s.config.channel = .b
    · simp [setGainResult, hb, Instr.op, Instr.arg]
    · by_cases hg : gainLegal arg = true <;> simp [setGainResult, hb, hg, settle, Instr.op, Instr.arg]
  case reset => simp [resetResult, endReset, enterPowerDown, leavePowerDown, Instr.op, Instr.arg]
  all_goals exact ⟨rfl, rfl⟩

/-- Acceptance latches the word, and nothing before the first primitive writes the latches again. -/
theorem start_latches (i : Instr) (s : State) : (start i s).cmdOp = i.op ∧ (start i s).cmdArg = i.arg := by
  cases i
  case readOne => simp [start, startCycle]
  case setChannel arg => cases hc : channelOfArg arg <;> simp [start, hc, startCycle, Instr.arg]
  case setGain arg =>
    by_cases hb : s.config.channel = .b
    · simp [start, hb]
    · by_cases hg : gainLegal arg = true <;> simp [start, hb, hg, startCycle, Instr.arg]
  all_goals exact ⟨rfl, rfl⟩

/-- From channel B no command writes GAIN_A: `set_gain` does so on channel A only (41_config.md R153). -/
theorem exec_gainA_of_channelB {i : Instr} {s t : State} (hb : s.config.channel = .b) (h : exec i s = .next t) :
    t.config.gainA = s.config.gainA := by
  cases i <;> cases h
  case readOne => simp [readOneResult]
  case setChannel arg => cases hc : channelOfArg arg <;> simp [setChannelResult, hc, settle]
  case setGain arg => simp [setGainResult, hb]
  case reset => simp [resetResult, endReset, enterPowerDown, leavePowerDown]
  all_goals rfl

theorem start_gainA_of_channelB (i : Instr) {s : State} (hb : s.config.channel = .b) :
    (start i s).config.gainA = s.config.gainA := by
  cases i
  case readOne => simp [start, startCycle]
  case setChannel arg => cases hc : channelOfArg arg <;> simp [start, hc, startCycle, Instr.arg]
  case setGain arg => simp [start, hb]
  all_goals rfl

/-- Nothing before its first primitive writes FATAL, whatever the command. -/
theorem start_fatal (i : Instr) (s : State) : (start i s).status.fatal = s.status.fatal := by
  cases i
  case readOne => simp [start, startCycle]
  case setChannel arg => cases hc : channelOfArg arg <;> simp [start, hc, startCycle, Instr.arg]
  case setGain arg =>
    by_cases hb : s.config.channel = .b
    · simp [start, hb]
    · by_cases hg : gainLegal arg = true <;> simp [start, hb, hg, startCycle, Instr.arg]
  all_goals rfl

/-- `reset` is the only command that writes FATAL (O44). -/
theorem exec_fatal {i : Instr} {s t : State} (hi : i ≠ .reset) (h : exec i s = .next t) :
    t.status.fatal = s.status.fatal := by
  obtain ⟨t', ht', -, hfatal, -⟩ := warnAndFatalHaveOneWriterEach.1 i s
  obtain rfl : t' = t := by simpa [ht'] using h
  exact hfatal hi

/-! ### The engine's step, idle or not -/

/-- A step of the engine keeps the latches, unless the automatic `reset` begins. -/
theorem engineStep_commandKept {s : State} (h : ¬ (s.rst = false ∧ s.status.busy = true ∧ s.seq.point = .idle)) :
    CommandKept s (engineStep s) := by
  unfold engineStep
  split
  · exact ⟨rfl, rfl, rfl, rfl⟩
  · next hr =>
    by_cases hp : s.seq.point = .idle
    · have hb : s.status.busy = false := by
        by_contra hb
        exact h ⟨by simpa using hr, by simpa using hb, hp⟩
      simp [tick_idle hp, hb, CommandKept]
    · exact tick_commandKept hp

theorem engineStep_gainA (s : State) : (engineStep s).config.gainA = s.config.gainA := by
  by_cases h : s.rst = false ∧ s.status.busy = true ∧ s.seq.point = .idle
  · obtain ⟨hr, hb, hp⟩ := h
    simp only [engineStep, hr, Bool.false_eq_true, if_false, tick_idle hp, hb, if_true]
    rfl
  · obtain ⟨-, -, -, hgain⟩ := engineStep_commandKept h
    exact hgain

/-- A read of a register writes no register of the block. -/
theorem readRegister_eq (off : Nat) (s : State) : ∃ w d, readRegister off s =
    { s with reads := w :: s.reads, env := { s.env with draws := d } } := by
  unfold readRegister
  split
  · exact ⟨_, _, rfl⟩
  · exact ⟨_, _, rfl⟩

/-- Settles O47: GAIN_A is written by `set_gain` on channel A and by block reset, with a legal gain each time. -/
theorem configurationStaysLegal : Obligations.ConfigurationStaysLegal := by
  unfold Obligations.ConfigurationStaysLegal
  refine fun s t h hs => ⟨(keeps_closed.step hs).config (legal_of_step hs) h, fun hb hrst => ?_⟩
  cases stepCase_of_step hs with
  | engine b ht => subst ht; exact engineStep_gainA _
  | queue b ht => subst ht; rfl
  | illegal w rest hi hw ht => subst ht; rfl
  | run w i rest hi hw ht => exact exec_gainA_of_channelB (s := withBus rest s) hb ht
  | start w i rest hi hw ht => subst ht; exact start_gainA_of_channelB i (s := withBus rest s) hb
  | read addr bytes off rest hw ht =>
    obtain ⟨w, d, hread⟩ := readRegister_eq off (withBus rest s)
    rw [hread] at ht
    subst ht
    rfl
  | assertRst rest hw ht => exact absurd hw (hrst rest)
  | releaseRst rest hw ht => subst ht; rfl

/-- A word written to CMD of an idle block, either way, is latched, whether it is a command or not. -/
theorem step_latches {s : State} {w : Word} {rest : List HostOp} (hl : s.params.legal = true) (hi : Idle s)
    (hb : WritesCmd w rest s) : ∃ t, step s = .next t ∧ t.cmdOp = opField w ∧ t.cmdArg = argField w := by
  cases hw : decodeCmd w with
  | error why => exact ⟨_, step_of_illegalWord hl hi hb hw, rfl, rfl⟩
  | ok i =>
    obtain ⟨-, -, hop, harg⟩ := fields_of_decodeCmd hw
    rw [hop, harg]
    rcases hb with hb | hb
    · obtain ⟨t, ht⟩ := exec_completes i (withBus rest s)
      exact ⟨t, (step_command_ok hl hb hi hw).trans ht, exec_latches ht⟩
    · exact ⟨_, by rw [step_write_cmd hl hb, writeCmd_of_ok (idle_withBus rest hi) hw], start_latches i _⟩

/-- Settles O10: each word an idle block takes is latched; of the other steps only block reset and the start of the
automatic `reset` write the latches. -/
theorem latchesFollowAcceptance : Obligations.LatchesFollowAcceptance := by
  unfold Obligations.LatchesFollowAcceptance
  refine ⟨fun s w rest hl hi hb => step_latches hl hi hb, fun s t hs hne => ?_⟩
  have same (h : t.cmdOp = s.cmdOp) (h' : t.cmdArg = s.cmdArg) : False := by simp [h, h'] at hne
  cases stepCase_of_step hs with
  | engine b ht =>
    by_cases hreset : s.rst = false ∧ s.status.busy = true ∧ s.seq.point = .idle
    · exact .inr (.inr hreset)
    · obtain ⟨hop, harg, -⟩ := engineStep_commandKept (s := withBus b s) hreset
      subst ht
      exact (same hop harg).elim
  | queue b ht => subst ht; exact (same rfl rfl).elim
  | illegal w rest hi hb ht => exact .inl ⟨w, rest, hi, hb⟩
  | run w i rest hi hb ht => exact .inl ⟨w, rest, hi, hb⟩
  | start w i rest hi hb ht => exact .inl ⟨w, rest, hi, hb⟩
  | read addr bytes off rest hb ht =>
    obtain ⟨w, d, hread⟩ := readRegister_eq off (withBus rest s)
    rw [hread] at ht
    subst ht
    exact (same rfl rfl).elim
  | assertRst rest hb ht => exact .inr (.inl ⟨rest, hb⟩)
  | releaseRst rest hb ht => subst ht; exact (same rfl rfl).elim

/-- An engine step that changes FATAL is one of `reset`: the end of its settle loop, where a sound sequencer's running
command is `reset`. -/
theorem engineStep_fatal {s : State} (h : PointSound s) (hne : (engineStep s).status.fatal ≠ s.status.fatal) :
    (engineStep s).cmdOp = 6#4 := by
  unfold engineStep at hne ⊢
  split at hne
  · exact absurd rfl hne
  · next hr =>
    simp only [hr, Bool.false_eq_true, if_false]
    by_cases hidle : s.seq.point = .idle
    · rw [tick_idle hidle] at hne
      split at hne
      · exact absurd (start_fatal .reset s) hne
      · exact absurd rfl hne
    · by_cases hend : s.seq.point = .resetSettle
      · obtain ⟨hop, -⟩ := tick_resetSettle hend
        simp only [PointSound, hend] at h
        obtain ⟨-, hreset⟩ := h
        exact hop.trans hreset
      · obtain ⟨-, hfatal⟩ := tick_fatalKept hidle hend
        exact absurd hfatal hne

/-- Settles O54: of the commands only `reset` writes FATAL, at its end. -/
theorem fatalChangesOnlyInReset : Obligations.FatalChangesOnlyInReset := by
  unfold Obligations.FatalChangesOnlyInReset
  intro s t hsound hs hne
  cases stepCase_of_step hs with
  | engine b ht =>
    subst ht
    exact .inl (engineStep_fatal (s := withBus b s) hsound.point hne)
  | queue b ht => subst ht; exact absurd rfl hne
  | illegal w rest hi hb ht => subst ht; exact absurd rfl hne
  | run w i rest hi hb ht =>
    by_cases hreset : i = .reset
    · subst hreset
      exact .inl (exec_latches ht).1
    · exact absurd (exec_fatal hreset ht) hne
  | start w i rest hi hb ht => subst ht; exact absurd (start_fatal i (withBus rest s)) hne
  | read addr bytes off rest hb ht =>
    obtain ⟨w, d, hread⟩ := readRegister_eq off (withBus rest s)
    rw [hread] at ht
    subst ht
    exact absurd rfl hne
  | assertRst rest hb ht => exact .inr ⟨rest, hb⟩
  | releaseRst rest hb ht => subst ht; exact absurd rfl hne

end Sys2Proof.Machine
end

section
/-!
PROOF. The sequencer stays sound (10_state.md R32, R33, R38, R44): `Bounded` keeps the counters, and each engine step
moves to a point whose counters are still below the bound of their loop.
-/

namespace Sys2Proof.Machine

/-! ### Sound states -/

theorem SequencerSound.bounded {s : State} (h : SequencerSound s) : Bounded s := ⟨h.top, h.sub, h.loops, h.diag⟩

theorem Bounded.sound {s : State} (h : Bounded s) (hbusy : s.seq.point ≠ .idle → s.status.busy = true)
    (hp : PointSound s) : SequencerSound s := ⟨hbusy, h.top, h.sub, h.loops, h.diag, hp⟩

theorem Bounded.sound_idle {s : State} (h : Bounded s) (hp : s.seq.point = .idle) : SequencerSound s :=
  h.sound (absurd hp) (by simp [PointSound, hp])

theorem Bounded.sound_goTo {s : State} {p : Point} (h : Bounded s) (hbusy : s.status.busy = true)
    (hp : PointSound (goTo p s)) : SequencerSound (goTo p s) :=
  Bounded.sound (s := goTo p s) ⟨h.top, h.sub, h.loops, h.diag⟩ (fun _ => hbusy) hp

theorem SequencerSound.idle_of_not_busy {s : State} (h : SequencerSound s) (hb : s.status.busy = false) :
    s.seq.point = .idle := by
  by_contra hp
  exact absurd ((h.busy hp).symm.trans hb) (by decide)

/-- The cycle in progress is the same one: its context, its loop, its command and its trailing count. -/
def SameCycle (s t : State) : Prop :=
  t.seq.ctx = s.seq.ctx ∧ t.seq.k = s.seq.k ∧ t.cmdOp = s.cmdOp ∧ t.params = s.params ∧ trailOf t = trailOf s

theorem CycleInProgress.of_same {s t : State} (h : CycleInProgress s) (hs : SameCycle s t) : CycleInProgress t := by
  obtain ⟨hctx, hk, hop, hp, -⟩ := hs
  unfold CycleInProgress loopBound runsTopCycle at *
  rw [hctx, hk, hop, hp]
  exact h

/-! ### Updates outside the counters -/

section
variable {s : State} (h : Bounded s)
include h

theorem Bounded.accept (op : BitVec 4) (arg : Byte) : Bounded (accept op arg s) := ⟨h.top, h.sub, h.loops, h.diag⟩
theorem Bounded.retire (c : Code) : Bounded (retire c s) := ⟨h.top, h.sub, h.loops, h.diag⟩
theorem Bounded.finish (c : Code) : Bounded (finish c s) := ⟨h.top, h.sub, h.loops, h.diag⟩
theorem Bounded.setWarn : Bounded (setWarn s) := ⟨h.top, h.sub, h.loops, h.diag⟩
theorem Bounded.setFatal (f : Bool) : Bounded (setFatal f s) := ⟨h.top, h.sub, h.loops, h.diag⟩
theorem Bounded.setSettleCode (c : Code) : Bounded (setSettleCode c s) := ⟨h.top, h.sub, h.loops, h.diag⟩
theorem Bounded.setChannel (c : Channel) : Bounded (setChannel c s) := ⟨h.top, h.sub, h.loops, h.diag⟩
theorem Bounded.setGainA (g : Byte) : Bounded (setGainA g s) := ⟨h.top, h.sub, h.loops, h.diag⟩

theorem Bounded.now : Bounded (now s).2 := ⟨h.top, h.sub, h.loops, h.diag⟩
theorem Bounded.setClk (v : Level) : Bounded (setClk v s) := ⟨h.top, h.sub, h.loops, h.diag⟩
theorem Bounded.sleep (d : Nat) : Bounded (sleep d s) := ⟨h.top, h.sub, h.loops, h.diag⟩
theorem Bounded.disarm : Bounded (disarm s) := ⟨h.top, h.sub, h.loops, h.diag⟩
theorem Bounded.armTrail : Bounded (armTrail s) := ⟨h.top, h.sub, h.loops, h.diag⟩
theorem Bounded.readData : Bounded (readData s).2 := ⟨h.top, h.sub, h.loops, h.diag⟩

theorem Bounded.clearDiag : Bounded (clearDiag s) :=
  ⟨h.top, h.sub, h.loops, Nat.zero_le _, Nat.zero_le _, Nat.zero_le _, Nat.zero_le _⟩

theorem Bounded.settle : Bounded (settle s) := ((h.topCycle false).setSettleCode _).sleep _

theorem Bounded.endReset : Bounded (endReset s) := (h.noteRecValid.setFatal _).finish _

theorem Bounded.enterPowerDown : Bounded (enterPowerDown s) := (((h.setClk _).setClk _).sleep _).disarm

theorem Bounded.leavePowerDown : Bounded (leavePowerDown s) := (h.setClk _).sleep _

theorem Bounded.subDone (c : Code) (hk : s.seq.k < maxLoop s.params) : Bounded (subDone c s) := by
  obtain ⟨-, hv⟩ := h.loops
  refine ⟨h.top, h.sub, ⟨hk, ?_⟩, h.diag⟩
  simp only [Machine.subDone]
  split <;> omega

end

/-! ### The parts of an engine step -/

theorem startCycle_top_sound {s : State} (hl : s.params.legal = true) (h : Bounded s) (hbusy : s.status.busy = true)
    (hrun : runsTopCycle s) : SequencerSound (startCycle .top s) := by
  obtain ⟨-, hmax, -⟩ := legal_iff.1 hl
  refine (h.beginCycle .top).sound_goTo (by simpa) ⟨?_, ?_⟩
  · simp only [counters_goTo, beginCycle_tries, goTo_params, beginCycle_params]
    omega
  · simpa [CycleInProgress, runsTopCycle] using hrun

theorem startCycle_sub_sound {s : State} (hl : s.params.legal = true) (h : Bounded s) (hbusy : s.status.busy = true)
    (hrun : runsTopCycle s ∨ s.cmdOp = Instr.reset.op) (hk : s.seq.k < loopBound s) :
    SequencerSound (startCycle .sub s) := by
  obtain ⟨-, hmax, -⟩ := legal_iff.1 hl
  obtain ⟨hloop, -⟩ := beginCycle_loop .sub s
  refine (h.beginCycle .sub).sound_goTo (by simpa) ⟨?_, ?_⟩
  · simp only [counters_goTo, beginCycle_tries, goTo_params, beginCycle_params]
    omega
  · simpa [CycleInProgress, runsTopCycle, loopBound, hloop] using ⟨hrun, hk⟩

/-- The end of a cycle: of the command, of its settle read, or of a sub-cycle, whose loop is not at its bound. -/
theorem cycleEnded_sound {s : State} (c : Code) (h : Bounded s) (hbusy : s.status.busy = true)
    (hcycle : CycleInProgress s) : SequencerSound (cycleEnded c s) := by
  cases hctx : s.seq.ctx with
  | top =>
    simp only [CycleInProgress, hctx, runsTopCycle] at hcycle
    by_cases hread : s.cmdOp = Instr.readOne.op
    · simp only [cycleEnded, hctx, hread, if_true]
      exact (h.finish c).sound_idle rfl
    · simp only [cycleEnded, hctx, hread, if_false]
      exact (h.setSettleCode c).sound_goTo hbusy (hcycle.resolve_left hread)
  | sub =>
    simp only [CycleInProgress, hctx] at hcycle
    obtain ⟨hrun, hk⟩ := hcycle
    by_cases hreset : s.cmdOp = Instr.reset.op
    · simp only [loopBound, hreset, if_true] at hk
      have hhead : subHead s = .resetSettle := by simp [subHead, runsReset, hreset]
      simp only [cycleEnded, hctx, hhead]
      exact (h.subDone c (hk.trans_le (le_max_right _ _))).sound_goTo hbusy ⟨hk, hreset⟩
    · simp only [loopBound, hreset, if_false] at hk
      have hhead : subHead s = .recover := by simp [subHead, runsReset, hreset]
      simp only [cycleEnded, hctx, hhead]
      exact (h.subDone c (hk.trans_le (le_max_left _ _))).sound_goTo hbusy ⟨hk, hrun.resolve_right hreset⟩

theorem trailTripped_sound {s : State} (h : Bounded s) (hbusy : s.status.busy = true)
    (hcycle : CycleInProgress s) : SequencerSound (trailTripped s) := by
  cases hctx : s.seq.ctx with
  | top =>
    simp only [CycleInProgress, hctx] at hcycle
    simp only [trailTripped, hctx]
    exact h.beginSubs.sound_goTo hbusy ⟨Nat.zero_le _, hcycle⟩
  | sub =>
    simp only [trailTripped, hctx]
    exact cycleEnded_sound _ h hbusy hcycle

theorem start_sound (i : Instr) {s : State} (hl : s.params.legal = true) (h : Bounded s)
    (hp : s.seq.point = .idle) : SequencerSound (start i s) := by
  have ha : Bounded (accept i.op i.arg s) := h.accept _ _
  cases i with
  | readOne => exact startCycle_top_sound hl ha rfl (.inl rfl)
  | setChannel arg =>
    simp only [start]
    split
    · exact (ha.retire _).sound_idle hp
    · exact startCycle_top_sound hl (ha.setChannel _) rfl (.inr (.inl rfl))
  | setGain arg =>
    simp only [start]
    split
    · exact (ha.setWarn.retire _).sound_idle hp
    · split
      · exact startCycle_top_sound hl (ha.setGainA _) rfl (.inr (.inr rfl))
      · exact (ha.retire _).sound_idle hp
  | powerDown => exact ha.sound_goTo rfl (.inl rfl)
  | powerUp => exact ha.sound_goTo rfl (.inl rfl)
  | reset => exact ha.clearDiag.sound_goTo rfl (.inr rfl)

/-! ### One step of the engine -/

theorem sameCycle_pollDone (s : State) : SameCycle s (pollDone s) := by simp [SameCycle, pollDone, trailOf]
theorem sameCycle_beginData (s : State) : SameCycle s (beginData s) := by simp [SameCycle, beginData, trailOf]
theorem sameCycle_bitDone (b : Level) (s : State) : SameCycle s (bitDone b s) := by
  simp [SameCycle, bitDone, trailOf]
theorem sameCycle_beginTrail (l : Bool) (s : State) : SameCycle s (beginTrail l s) := by
  simp [SameCycle, beginTrail, trailOf]
theorem sameCycle_trailDone (s : State) : SameCycle s (trailDone s) := by simp [SameCycle, trailDone, trailOf]
theorem sameCycle_latchSample (l : Bool) (s : State) : SameCycle s (latchSample l s) := by
  unfold latchSample; split <;> exact ⟨rfl, rfl, rfl, rfl, rfl⟩

/-- Each point of a command in progress leads to a sound one. -/
theorem tick_sound {s : State} (hl : s.params.legal = true) (h : SequencerSound s) : SequencerSound (tick s) := by
  have hB := h.bounded
  obtain ⟨htries, hi, hj⟩ := hB.counters
  obtain ⟨hpos, h3⟩ := trailOf_pos s
  have hbusy := h.busy
  have hpoint := h.point
  unfold tick
  cases hp : s.seq.point <;> simp only [PointSound, hp] at hpoint <;>
    simp only [hp, ne_eq, reduceCtorEq, not_false_eq_true, forall_const] at hbusy <;> dsimp only
  case idle =>
    split
    · exact start_sound .reset hl hB hp
    · exact h
  case poll =>
    obtain ⟨hlt, hcycle⟩ := hpoint
    have hdone : Bounded (pollDone (readData s).2) := hB.readData.pollDone hlt
    have hsame : CycleInProgress (pollDone (readData s).2) := hcycle.of_same (sameCycle_pollDone (readData s).2)
    split
    · exact hdone.beginData.sound_goTo (by simpa) ⟨by simp [frameBits], by simp [trailOf],
        hsame.of_same (sameCycle_beginData _)⟩
    · exact hdone.sound_goTo (by simpa) hsame
  case pollWait =>
    split
    · exact cycleEnded_sound _ (hB.sleep _) hbusy hpoint
    · next hne => exact (hB.sleep _).sound_goTo hbusy ⟨lt_of_le_of_ne htries hne, hpoint⟩
  case dataStart => exact hB.now.sound_goTo hbusy hpoint
  case dataRise t0 => exact (hB.setClk _).sound_goTo hbusy hpoint
  case dataFall t0 => exact (hB.setClk _).sound_goTo hbusy hpoint
  case dataStop t0 =>
    obtain ⟨-, -, hcycle⟩ := id hpoint
    split
    · exact cycleEnded_sound _ hB.now.disarm hbusy hcycle
    · exact hB.now.sound_goTo hbusy hpoint
  case dataSample =>
    obtain ⟨hlt, hn, hcycle⟩ := hpoint
    have hdone : Bounded (bitDone (readData s).1 (readData s).2) := hB.readData.bitDone _ hlt
    have hsame : CycleInProgress (bitDone (readData s).1 (readData s).2) :=
      hcycle.of_same (sameCycle_bitDone _ (readData s).2)
    have hn' : (bitDone (readData s).1 (readData s).2).seq.n = trailOf s := by simp [bitDone, hn]
    split
    · refine (hdone.beginTrail _).sound_goTo (by simpa) ⟨?_, ?_, hsame.of_same (sameCycle_beginTrail _ _)⟩
      · simp only [counters_goTo, counters_beginTrail, goTo_seq, beginTrail_n, hn']
        omega
      · simp only [goTo_seq, beginTrail_n, hn']
        simp [trailOf]
    · next hne =>
      obtain ⟨-, hi', -⟩ := hdone.counters
      refine hdone.sound_goTo (by simpa) ⟨?_, ?_, hsame⟩
      · simp only [counters_goTo]
        exact lt_of_le_of_ne hi' hne
      · simp only [goTo_seq, hn']
        simp [trailOf]
  case trailStart => exact hB.now.sound_goTo hbusy hpoint
  case trailRise t0 => exact (hB.setClk _).sound_goTo hbusy hpoint
  case trailFall t0 => exact (hB.setClk _).sound_goTo hbusy hpoint
  case trailStop t0 =>
    obtain ⟨hlt, hn, hcycle⟩ := hpoint
    split
    · exact trailTripped_sound hB.now.disarm hbusy hcycle
    · have hdone : Bounded (trailDone (now s).2) := hB.now.trailDone (by simp; omega)
      have hsame : CycleInProgress (trailDone (now s).2) := hcycle.of_same (sameCycle_trailDone (now s).2)
      have hn' : (trailDone (now s).2).seq.n = trailOf s := by simp [hn]
      split
      · refine hdone.armTrail.sound_goTo (by simpa) ⟨?_, hsame⟩
        simp only [goTo_config, armTrail_config, hn']
        simp [trailOf]
      · next hne =>
        refine hdone.sound_goTo (by simpa) ⟨?_, ?_, hsame⟩
        · simp only [counters_trailDone, counters_now, hn'] at hne
          simp only [counters_goTo, counters_trailDone, counters_now, goTo_seq, hn']
          omega
        · simp only [goTo_seq, hn']
          simp [trailOf]
  case decode =>
    obtain ⟨-, hcycle⟩ := hpoint
    exact cycleEnded_sound _ (hB.latch _) (by simpa) (hcycle.of_same (sameCycle_latchSample _ s))
  case recover =>
    obtain ⟨hk, hrun⟩ := hpoint
    split
    · next hlt =>
      have hop : s.cmdOp ≠ Instr.reset.op := by
        rcases hrun with hop | hop | hop <;> simp [hop, Instr.op]
      exact startCycle_sub_sound hl hB hbusy (.inl hrun) (by simpa [loopBound, hop] using hlt)
    · exact cycleEnded_sound _ hB.endRecovery hbusy hrun
  case settleWait => exact ((hB.sleep _).finish _).sound_idle rfl
  case pdLow => exact (hB.setClk _).sound_goTo hbusy hpoint
  case pdHigh => exact (hB.setClk _).sound_goTo hbusy hpoint
  case pdHold =>
    split
    · next hreset => exact (hB.sleep _).disarm.sound_goTo hbusy (.inr (by simpa [runsReset] using hreset))
    · exact ((hB.sleep _).disarm.finish _).sound_idle rfl
  case puLow => exact (hB.setClk _).sound_goTo hbusy hpoint
  case puWait =>
    split
    · next hreset =>
      exact (hB.sleep _).beginSubs.sound_goTo hbusy ⟨Nat.zero_le _, by simpa [runsReset] using hreset⟩
    · exact ((hB.sleep _).finish _).sound_idle rfl
  case resetSettle =>
    obtain ⟨hk, hreset⟩ := hpoint
    split
    · next hlt => exact startCycle_sub_sound hl hB hbusy (.inr hreset) (by simpa [loopBound, hreset] using hlt)
    · exact hB.endReset.sound_idle rfl

/-! ### Commands, and one step of the machine -/

/-- A whole command keeps the counters and DIAG within their bounds. -/
theorem exec_bounded {i : Instr} {s t : State} (h : Bounded s) (ht : exec i s = .next t) : Bounded t := by
  cases i <;> cases ht
  case readOne => exact ((h.accept _ _).topCycle true).finish _
  case setChannel arg =>
    simp only [setChannelResult]
    split
    · exact (h.accept _ _).retire _
    · exact ((h.accept _ _).setChannel _).settle.finish _
  case setGain arg =>
    simp only [setGainResult]
    split
    · exact (h.accept _ _).setWarn.retire _
    · split
      · exact ((h.accept _ _).setGainA _).settle.finish _
      · exact (h.accept _ _).retire _
  case powerDown => exact (h.accept _ _).enterPowerDown.finish _
  case powerUp => exact (h.accept _ _).leavePowerDown.finish _
  case reset =>
    have hcycled := (h.accept 0x6#4 0#8).clearDiag.enterPowerDown.leavePowerDown.beginSubs
    exact (hcycled.subLoop _ ((Nat.zero_add _).trans_le (le_max_right _ _))).endReset

/-- A command that runs to its end leaves an idle sequencer idle. -/
theorem exec_idle {i : Instr} {s t : State} (hp : s.seq.point = .idle) (ht : exec i s = .next t) :
    t.seq.point = .idle := by
  cases i <;> cases ht
  case setChannel arg =>
    simp only [setChannelResult]
    split <;> [exact hp; rfl]
  case setGain arg =>
    simp only [setGainResult]
    split <;> [exact hp; split <;> [rfl; exact hp]]
  all_goals rfl

theorem blockReset_bounded (s : State) : Bounded (blockReset true s) where
  top := ⟨Nat.zero_le _, Nat.zero_le _, Nat.zero_le _⟩
  sub := ⟨Nat.zero_le _, Nat.zero_le _, Nat.zero_le _⟩
  loops := ⟨Nat.zero_le _, Nat.le_refl _⟩
  diag := ⟨Nat.zero_le _, Nat.zero_le _, Nat.zero_le _, Nat.zero_le _⟩

theorem engineStep_sound {s : State} (hl : s.params.legal = true) (h : SequencerSound s) :
    SequencerSound (engineStep s) := by
  unfold engineStep
  split
  · exact h
  · exact tick_sound hl h

/-- The queue, the words read, the draws and the level of `rst` are no part of the sequencer. -/
theorem SequencerSound.withHost {s : State} (h : SequencerSound s) (rst : Bool) (b : List HostOp) (r : List Word)
    (e : Env) : SequencerSound { s with rst := rst, bus := b, reads := r, env := e } :=
  ⟨h.busy, h.top, h.sub, h.loops, h.diag, h.point⟩

/-- Settles O51: a step of the engine by its program point, a command by its end, the rest by its frame. -/
theorem sequencerStaysSound : Obligations.SequencerStaysSound := by
  unfold Obligations.SequencerStaysSound
  intro s t h hs
  have hl := legal_of_step hs
  have hqueue (b : List HostOp) : SequencerSound (withBus b s) := h.withHost s.rst b s.reads s.env
  have hidle (hi : Idle s) : s.seq.point = .idle := h.idle_of_not_busy hi.2
  cases stepCase_of_step hs with
  | engine b ht => subst ht; exact engineStep_sound hl (hqueue b)
  | queue b ht => subst ht; exact hqueue b
  | illegal w rest hi hb ht =>
    subst ht
    exact (((hqueue rest).bounded.accept _ _).retire _).sound_idle (hidle hi)
  | run w i rest hi hb ht =>
    exact (exec_bounded (hqueue rest).bounded ht).sound_idle (exec_idle (s := withBus rest s) (hidle hi) ht)
  | start w i rest hi hb ht =>
    subst ht
    exact start_sound i hl (hqueue rest).bounded (hidle hi)
  | read addr bytes off rest hb ht =>
    obtain ⟨w, d, hread⟩ := readRegister_eq off (withBus rest s)
    rw [hread] at ht
    subst ht
    exact h.withHost s.rst rest (w :: s.reads) { s.env with draws := d }
  | assertRst rest hb ht => subst ht; exact (blockReset_bounded _).sound_idle rfl
  | releaseRst rest hb ht => subst ht; exact h.withHost false rest s.reads s.env

/-! ### Block reset (10_state.md R49) -/

/-- Settles O52: the reset values, which are those block reset writes. -/
theorem invariantsHoldAtReset : Obligations.InvariantsHoldAtReset := by
  unfold Obligations.InvariantsHoldAtReset
  refine ⟨rfl, ⟨0#24, by decide, by decide⟩, .inr rfl, List.pairwise_singleton _ _, ?_⟩
  have hB := blockReset_bounded State.reset
  exact Bounded.sound_idle ⟨hB.top, hB.sub, hB.loops, hB.diag⟩ rfl

/-- Settles O55: each field of the state block reset writes. -/
theorem assertingRstSetsResetValues : Obligations.AssertingRstSetsResetValues := by
  unfold Obligations.AssertingRstSetsResetValues
  intro s rest hl hb
  exact ⟨_, step_assertRst hl hb, rfl, rfl, rfl, rfl, rfl, rfl, rfl, rfl, rfl, rfl,
    (by decide : statusWord (State.resetWith Params.default) = 0x00000F1F#32), rfl, rfl, rfl,
    (by decide : diagWord (State.resetWith Params.default) = 0#32)⟩

/-- Settles O56: with `rst` asserted the engine stands still and every write is ignored. -/
theorem assertedRstHoldsTheBlock : Obligations.AssertedRstHoldsTheBlock := by
  unfold Obligations.AssertedRstHoldsTheBlock
  intro s t hr hbusy hs hrelease hassert
  have hni : ¬ Idle s := not_idle_of_busy hbusy
  cases stepCase_of_step hs with
  | engine b ht =>
    subst ht
    simp only [engineStep, withBus, hr, if_true]
  | queue b ht => subst ht; rfl
  | illegal w rest hi hb ht => exact absurd hi hni
  | run w i rest hi hb ht => exact absurd hi hni
  | start w i rest hi hb ht => exact absurd hi hni
  | read addr bytes off rest hb ht =>
    obtain ⟨w, d, hread⟩ := readRegister_eq off (withBus rest s)
    rw [hread] at ht
    subst ht
    rfl
  | assertRst rest hb ht => exact absurd hb (hassert rest)
  | releaseRst rest hb ht => exact absurd hb (hrelease rest)

end Sys2Proof.Machine
end

section
/-!
PROOF. The two granularities agree (60_exceptions.md R222, 70_reset_and_hazards.md R240, log 6, log 12): from the
acceptance of a command the engine's own steps reach the state the command's meaning answers.
-/

namespace Sys2Proof.Machine

/-! ### Each command from its first primitive -/

/-- A top-level cycle is in progress again when its recovery has ended (40_read_cycle.md R116). -/
theorem topCycle_ctx (latch : Bool) (s : State) : (topCycle latch s).2.seq.ctx = .top := by
  simp only [topCycle]
  split
  · exact ((sameCtx_closed latch).cycleBody _).trans (beginCycle_ctx _ _)
  · rfl

theorem readOne_reaches (s : State) (hr : s.rst = false) (hl : s.params.legal = true) :
    Reaches (start .readOne s) (readOneResult s) := by
  have h := topCycle_reaches true (accept 0x1#4 0#8 s) hr hl (by simp) (by simp)
  have hend : cycleEnded (topCycle true (accept 0x1#4 0#8 s)).1 (topCycle true (accept 0x1#4 0#8 s)).2 =
      readOneResult s := by
    simp [cycleEnded, topCycle_ctx, Instr.op, readOneResult]
  exact hend ▸ h

theorem setChannel_reaches (arg : Byte) (s : State) (hr : s.rst = false) (hl : s.params.legal = true) :
    Reaches (start (.setChannel arg) s) (setChannelResult arg s) := by
  cases hc : channelOfArg arg with
  | none =>
    have : start (.setChannel arg) s = setChannelResult arg s := by
      simp [start, setChannelResult, Instr.arg, Instr.op, hc]
    exact this ▸ Reaches.refl _
  | some c =>
    have h := settle_reaches (setChannel c (accept 0x2#4 arg s)) hr hl (by simp) (by simp)
    simpa [start, setChannelResult, Instr.arg, Instr.op, hc] using h

theorem setGain_reaches (arg : Byte) (s : State) (hr : s.rst = false) (hl : s.params.legal = true) :
    Reaches (start (.setGain arg) s) (setGainResult arg s) := by
  by_cases hb : s.config.channel = .b
  · have : start (.setGain arg) s = setGainResult arg s := by
      simp [start, setGainResult, Instr.arg, Instr.op, hb]
    exact this ▸ Reaches.refl _
  · by_cases hg : gainLegal arg = true
    · have h := settle_reaches (setGainA arg (accept 0x3#4 arg s)) hr hl (by simp) (by simp)
      simpa [start, setGainResult, Instr.arg, Instr.op, hb, hg] using h
    · have : start (.setGain arg) s = setGainResult arg s := by
        simp [start, setGainResult, Instr.arg, Instr.op, hb, hg]
      exact this ▸ Reaches.refl _

/-- The power-down pulse, and where the sequencer goes after it (42_power.md R170, R174). -/
theorem enterPowerDown_reaches (s : State) (hr : s.rst = false) :
    Reaches (goTo .pdLow s) (if runsReset s then goTo .puLow (enterPowerDown s)
      else finish .ok (enterPowerDown s)) :=
  (Reaches.tick (s := goTo .pdLow s) hr).trans <|
    (Reaches.tick (s := goTo .pdHigh (setClk 0#1 s)) hr).trans <|
      Reaches.tick (s := goTo .pdHold (setClk 1#1 (setClk 0#1 s))) hr

/-- The wake-up, and where the sequencer goes after it (42_power.md R172, R174). -/
theorem leavePowerDown_reaches (s : State) (hr : s.rst = false) :
    Reaches (goTo .puLow s) (if runsReset s then goTo .resetSettle (beginSubs (leavePowerDown s))
      else finish .ok (leavePowerDown s)) :=
  (Reaches.tick (s := goTo .puLow s) hr).trans (Reaches.tick (s := goTo .puWait (setClk 0#1 s)) hr)

/-- The settle loop of `reset`, from its head to the end of the command (42_power.md R174). -/
theorem settleLoop_reaches (s : State) (hr : s.rst = false) (hl : s.params.legal = true)
    (hreset : runsReset s = true) (hk : s.seq.k = 0) :
    Reaches (goTo .resetSettle s) (endReset (subLoop s.params.resetSettleReads s)) := by
  obtain ⟨-, hmax, -⟩ := legal_iff.1 hl
  have hhead : subHead s = .resetSettle := by simp [subHead, hreset]
  obtain ⟨hloop, hcount⟩ := subLoop_reaches s.params.resetSettleReads s hr hmax (by simp [hk, subLimit, hreset])
  rw [hhead] at hloop
  have hend : tick (goTo .resetSettle (subLoop s.params.resetSettleReads s)) =
      endReset (subLoop s.params.resetSettleReads s) := by
    have hdone : ¬ (subLoop s.params.resetSettleReads s).seq.k <
        (subLoop s.params.resetSettleReads s).params.resetSettleReads := by simp [hcount, hk]
    exact (if_neg hdone).trans rfl
  have hlast := Reaches.tick (s := goTo .resetSettle (subLoop s.params.resetSettleReads s)) (by simpa)
  exact hloop.trans (hend ▸ hlast)

/-- The rest of `reset`, from its power-down pulse. -/
theorem powerCycle_reaches (s : State) (hr : s.rst = false) (hl : s.params.legal = true)
    (hreset : runsReset s = true) :
    Reaches (goTo .pdLow s) (endReset (subLoop s.params.resetSettleReads
      (beginSubs (leavePowerDown (enterPowerDown s))))) := by
  have hdown := enterPowerDown_reaches s hr
  rw [hreset, if_pos rfl] at hdown
  refine hdown.trans ?_
  have hd : (enterPowerDown s).rst = false ∧ (enterPowerDown s).params = s.params ∧
      runsReset (enterPowerDown s) = true := by
    rw [enterPowerDown_eq]
    exact ⟨hr, rfl, hreset⟩
  generalize enterPowerDown s = d at hd
  obtain ⟨hdr, hdp, hdreset⟩ := hd
  have hup := leavePowerDown_reaches d hdr
  rw [hdreset, if_pos rfl] at hup
  refine hup.trans ?_
  have hu : (leavePowerDown d).rst = false ∧ (leavePowerDown d).params = s.params ∧
      runsReset (leavePowerDown d) = true := by
    rw [leavePowerDown_eq]
    exact ⟨hdr, hdp, hdreset⟩
  generalize leavePowerDown d = u at hu
  obtain ⟨hur, hup', hureset⟩ := hu
  have hloop := settleLoop_reaches (beginSubs u) hur (by rw [beginSubs_params, hup']; exact hl) hureset rfl
  rwa [beginSubs_params, hup'] at hloop

theorem reset_reaches (s : State) (hr : s.rst = false) (hl : s.params.legal = true) :
    Reaches (start .reset s) (resetResult s) :=
  powerCycle_reaches (clearDiag (accept 0x6#4 0#8 s)) hr hl rfl

/-- From its acceptance the engine runs a command to the state its meaning answers. -/
theorem start_reaches {i : Instr} {s t : State} (hr : s.rst = false) (hl : s.params.legal = true)
    (h : exec i s = .next t) : Reaches (start i s) t := by
  cases i <;> cases h
  case readOne => exact readOne_reaches s hr hl
  case setChannel arg => exact setChannel_reaches arg s hr hl
  case setGain arg => exact setGain_reaches arg s hr hl
  case powerDown => exact enterPowerDown_reaches (accept 0x4#4 0#8 s) hr
  case powerUp => exact leavePowerDown_reaches (accept 0x5#4 0#8 s) hr
  case reset => exact reset_reaches s hr hl

/-! ### BUSY at both ends -/

theorem exec_not_busy {i : Instr} {s t : State} (h : exec i s = .next t) : t.status.busy = false := by
  cases i <;> cases h
  case setChannel arg => cases hc : channelOfArg arg <;> simp [setChannelResult, hc]
  case setGain arg =>
    by_cases hb : s.config.channel = .b
    · simp [setGainResult, hb]
    · by_cases hg : gainLegal arg = true <;> simp [setGainResult, hb, hg]
  all_goals rfl

/-- A command that was accepted is in progress, or its acceptance was all of it (an operand that is refused, or
`set_gain` on channel B). -/
theorem start_busy_or_done {i : Instr} {s t : State} (h : exec i s = .next t) :
    (start i s).status.busy = true ∨ start i s = t := by
  cases i <;> cases h
  case setChannel arg =>
    cases hc : channelOfArg arg with
    | none => exact .inr (by simp [start, setChannelResult, Instr.arg, Instr.op, hc])
    | some c => exact .inl (by simp [start, startCycle, Instr.arg, hc])
  case setGain arg =>
    by_cases hb : s.config.channel = .b
    · exact .inr (by simp [start, setGainResult, Instr.arg, Instr.op, hb])
    · by_cases hg : gainLegal arg = true
      · exact .inl (by simp [start, startCycle, Instr.arg, hb, hg])
      · exact .inr (by simp [start, setGainResult, Instr.arg, Instr.op, hb, hg])
  all_goals exact .inl rfl

/-- Settles O11: the engine reaches the command's end, and the machine follows it. -/
theorem engineStepsRefineCommand : Obligations.EngineStepsRefineCommand := by
  unfold Obligations.EngineStepsRefineCommand
  intro s w i rest hl hi hb hw
  obtain ⟨t, ht⟩ := exec_completes i (withBus rest s)
  have hstep : step s = .next (start i (withBus rest s)) := by
    rw [step_write_cmd hl hb, writeCmd_of_ok (idle_withBus rest hi) hw]
  obtain ⟨hr, -⟩ := hi
  have hstart : (start i (withBus rest s)).params.legal = true := by
    rw [keepsParams_closed.start i (withBus rest s)]
    exact hl
  exact ⟨_, t, hstep, ht, (start_reaches (s := withBus rest s) hr hl ht).runsTo hstart (start_busy_or_done ht)
    (exec_not_busy ht)⟩

/-- From a block that shows its reset values with `rst` low the automatic `reset` runs to its end. -/
theorem automaticReset_runsTo {s : State} (hl : s.params.legal = true) (hr : s.rst = false)
    (hbusy : s.status.busy = true) (hp : s.seq.point = .idle) :
    ∃ t, exec .reset s = .next t ∧ RunsTo s t := by
  have hfirst := Reaches.tick hr
  rw [tick_idle hp, hbusy, if_pos rfl] at hfirst
  exact ⟨_, rfl, (hfirst.trans (start_reaches hr hl rfl)).runsTo hl (.inl hbusy) rfl⟩

/-- Settles O12: the release of `rst` leaves such a block. -/
theorem deassertionRunsReset : Obligations.DeassertionRunsReset := by
  unfold Obligations.DeassertionRunsReset
  exact ⟨fun s rest hl hb => ⟨step_releaseRst hl hb, fun hbusy hp =>
    automaticReset_runsTo (s := { s with rst := false, bus := rest }) hl rfl hbusy hp⟩,
    fun s => automaticReset_runsTo⟩

end Sys2Proof.Machine
end

section
/-!
PROOF. How `read_one` ends (40_read_cycle.md R110, R121-R123): `topCycle_end` between acceptance and the end of the
command, which write none of the registers it speaks of.
-/

namespace Sys2Proof.Machine

theorem isCycleCode_iff (c : Code) : c.isCycleCode = true ↔
    c = .ok ∨ c = .notReady ∨ c = .timingViolation ∨ c = .invalidSample ∨ c = .protocolDesync := by
  cases c <;> simp [Code.isCycleCode]

/-- Settles O24: the cycle leaves its frame alone and ends with a cycle code. -/
theorem readOneCompletesWithinItsFrame : Obligations.ReadOneCompletesWithinItsFrame := by
  unfold Obligations.ReadOneCompletesWithinItsFrame
  refine fun s => ⟨readOneResult s, rfl, ?_, ?_, ?_⟩
  · simp [readOneResult]
  · exact (isCycleCode_iff _).1 (topCycle_code true (accept 0x1#4 0#8 s))
  · simp [readOneResult, topCycle_params]

/-- Acceptance and the end of `read_one` write nothing that `TopEnd` speaks of. -/
theorem readOneResult_end (s : State) : TopEnd true s (readOneResult s) (readOneResult s).status.code := by
  have hend := topCycle_end true (accept 0x1#4 0#8 s)
  unfold readOneResult
  generalize topCycle true (accept 0x1#4 0#8 s) = r at *
  exact hend

/-! ### The end that each code tells of -/

theorem recoveryCode_trips (v : Nat) : recoveryCode v = .protocolDesync ∨ recoveryCode v = .timingViolation := by
  unfold recoveryCode
  split <;> simp

theorem recoveryCode_eq_desync_iff (v : Nat) : recoveryCode v = .protocolDesync ↔ v = 0 := by
  unfold recoveryCode
  split <;> simp [*]

/-- What a complete cycle leaves (40_read_cycle.md R116-R118, R121). -/
def CompleteEnd (latch : Bool) (s t : State) : Prop :=
  t.config = { s.config with
    armed := BitVec.ofNat 2 (trailOf s),
    sampleCfg := if latch && !isSentinel t.shreg then s.config.armed else s.config.sampleCfg } ∧
  t.raw = (if latch then t.shreg else s.raw) ∧
  t.sample = (if latch && !isSentinel t.shreg then deliver t.shreg else s.sample) ∧
  t.clk = 0#1 ∧ (∃ p, t.diag = ⟨p, 24#8, BitVec.ofNat 4 (trailOf s), 0#4⟩) ∧
  highWrites t.events = highWrites s.events + 24 + trailOf s

section
variable {latch : Bool} {s t : State} {c : Code}

/-- OK and INVALID_SAMPLE are the codes of a complete cycle, by its frame. -/
theorem TopEnd.complete (h : TopEnd latch s t c) (hc : c = .ok ∨ c = .invalidSample) :
    (c = if isSentinel t.shreg then .invalidSample else .ok) ∧ CompleteEnd latch s t := by
  obtain ⟨rfl, -⟩ | ⟨rfl, -⟩ | ⟨_, _, v, rfl, -⟩ | ⟨hcode, p, hcfg, hraw, hsample, hclk, hdiag, hpulses⟩ := h
  · simp at hc
  · simp at hc
  · obtain hv | hv := recoveryCode_trips v <;> simp [hv] at hc
  · exact ⟨hcode, hcfg, hraw, hsample, hclk, ⟨p, hdiag⟩, hpulses⟩

/-- NOT_READY is the code of a cycle without a pulse. -/
theorem TopEnd.notReady (h : TopEnd latch s t .notReady) :
    t.config = s.config ∧ t.raw = s.raw ∧ t.sample = s.sample ∧ t.clk = s.clk ∧ t.shreg = s.shreg ∧
      t.diag = ⟨BitVec.ofNat 8 s.params.readyMaxTries, 0#8, 0#4, 0#4⟩ ∧
      highWrites t.events = highWrites s.events := by
  obtain ⟨-, hend⟩ | ⟨hc, -⟩ | ⟨_, _, v, hc, -⟩ | ⟨hc, -⟩ := h
  · exact hend
  · simp at hc
  · obtain hv | hv := recoveryCode_trips v <;> simp [hv] at hc
  · split at hc <;> simp at hc

end

/-- Settles O25: the three codes of a cycle whose pulses did not trip. -/
theorem readOneOutcomesWithoutTrip : Obligations.ReadOneOutcomesWithoutTrip := by
  unfold Obligations.ReadOneOutcomesWithoutTrip
  intro s _
  refine ⟨readOneResult s, rfl, fun hc => ?_, fun hc => ?_, fun hc => ?_⟩
  · obtain ⟨hcode, hcfg, hraw, hsample, hclk, ⟨p, hdiag⟩, hpulses⟩ := (readOneResult_end s).complete (.inl hc)
    have hgood : isSentinel (readOneResult s).shreg = false := by
      by_contra hother
      simp [hother, hc] at hcode
    simp only [hgood, Bool.not_false, Bool.and_self, if_true] at hcfg hraw hsample
    rw [hraw, hcfg, hdiag]
    exact ⟨hgood, hsample, rfl, rfl, hclk, rfl, rfl, rfl, hpulses⟩
  · obtain ⟨hcode, hcfg, hraw, hsample, hclk, ⟨p, hdiag⟩, hpulses⟩ := (readOneResult_end s).complete (.inr hc)
    have hbad : isSentinel (readOneResult s).shreg = true := by
      by_contra hother
      simp [hother, hc] at hcode
    simp only [hbad, Bool.not_true, Bool.and_false, Bool.false_eq_true, if_true, if_false] at hcfg hraw hsample
    rw [hraw, hcfg, hdiag]
    exact ⟨hbad, hsample, rfl, rfl, hclk, rfl, rfl, rfl, hpulses⟩
  · obtain ⟨hcfg, hraw, hsample, hclk, hshreg, hdiag, hpulses⟩ := TopEnd.notReady (hc ▸ readOneResult_end s)
    exact ⟨hraw, hsample, hcfg, hclk, hshreg, hdiag, hpulses⟩

theorem toNat_ofNat_of_lt {w n : Nat} (h : n < 2 ^ w) : (BitVec.ofNat w n).toNat = n := by
  rw [BitVec.toNat_ofNat, Nat.mod_eq_of_lt h]

/-- Settles O26: a data trip, or a trailing trip whose recovery counted `v` frames. -/
theorem readOneOutcomesWithTrip : Obligations.ReadOneOutcomesWithTrip := by
  unfold Obligations.ReadOneOutcomesWithTrip
  intro s hl
  refine ⟨readOneResult s, rfl, fun hc => ?_⟩
  have hend := readOneResult_end s
  generalize (readOneResult s).status.code = c at hc hend
  obtain ⟨rfl, -⟩ | ⟨rfl, p, q, hq, hcfg, hraw, hsample, hclk, hdiag, hpulses⟩ |
    ⟨p, q, v, rfl, hq, hv, hsample, hclk, hcfg, hdiag, -⟩ | ⟨hcode, -⟩ := hend
  · simp at hc
  · have hbits : (BitVec.ofNat 8 q).toNat = q := toNat_ofNat_of_lt (by omega)
    refine ⟨hsample, by rw [hcfg], hclk, .inl ⟨rfl, ?_⟩⟩
    rw [hdiag, hbits, hcfg]
    exact ⟨hq, rfl, rfl, hraw, rfl, hpulses⟩
  · obtain ⟨-, h3⟩ := trailOf_pos s
    obtain ⟨-, -, -, -, h15, -⟩ := legal_iff.1 hl
    have hval : (BitVec.ofNat 4 v).toNat = v := toNat_ofNat_of_lt (by omega)
    refine ⟨hsample, hcfg, hclk, .inr ?_⟩
    rw [hdiag, toNat_ofNat_of_lt (w := 4) (by omega : q < 2 ^ 4), hval]
    refine ⟨rfl, hq, hv, ?_⟩
    rw [recoveryCode_eq_desync_iff, ← BitVec.toNat_inj, hval]
    rfl
  · split at hcode <;> simp [hcode] at hc

/-- Settles O27: the frame on the line is the one a complete cycle reports. -/
theorem readOneReturnsTheFrame : Obligations.ReadOneReturnsTheFrame := by
  unfold Obligations.ReadOneReturnsTheFrame
  intro s m x ps L D _ hm hlev hdel hn hp
  obtain ⟨hcode, hshreg, hL, hD, hdraws, hdiag⟩ :=
    topCycle_frame true (accept 0x1#4 0#8 s) m x ps L D hm hlev hdel hn hp
  have hdone : (readOneResult s).status.code = .ok ∨ (readOneResult s).status.code = .invalidSample := by
    change (topCycle true (accept 0x1#4 0#8 s)).1 = _ ∨ (topCycle true (accept 0x1#4 0#8 s)).1 = _
    rw [hcode]
    split <;> simp
  have hx : (readOneResult s).shreg = x := hshreg
  obtain ⟨-, hcfg, hraw, hsample, hclk, -, hpulses⟩ := (readOneResult_end s).complete hdone
  simp only [hx, if_true, Bool.true_and, Bool.not_eq_true'] at hcfg hraw hsample
  refine ⟨readOneResult s, rfl, hcode, hraw, hx, hclk, ?_, ?_, hdiag, hpulses, hL, hD, hdraws⟩
  · rw [hsample]
    cases isSentinel x <;> rfl
  · rw [hcfg]
    cases isSentinel x <;> rfl

end Sys2Proof.Machine
end

section
/-!
PROOF. Cycles that meet a dead line or a slow pulse (40_read_cycle.md R113-R116, R119): the readiness wait that never
ends, the data pulse and the trailing pulse that trip the guard, and the recovery after the latter.
-/

namespace Sys2Proof.Machine

/-! ### A line that never reads low -/

/-- The events of `m` readiness samples that read high, newest first: a sample and a sleep each (R113). -/
def deadPolls (p : Params) (m : Nat) : List Event :=
  (List.replicate m [Event.sleep p.pollIntervalNs, Event.dataRead 1#1]).flatten

theorem deadPolls_add (p : Params) (m n : Nat) : deadPolls p (m + n) = deadPolls p m ++ deadPolls p n := by
  rw [deadPolls, List.replicate_add, List.flatten_append]
  rfl

theorem highWrites_append (es fs : List Event) : highWrites (es ++ fs) = highWrites es + highWrites fs :=
  List.count_append

theorem highWrites_deadPolls (p : Params) (m : Nat) : highWrites (deadPolls p m) = 0 := by
  induction m with
  | zero => rfl
  | succ m ih =>
    rw [deadPolls_add, highWrites_append, ih]
    rfl

theorem pollLoop_never_events (m : Nat) {s : State} {L : List Level}
    (h : s.env.levels = List.replicate m 1#1 ++ L) :
    (pollLoop m s).2.events = deadPolls s.params m ++ s.events := by
  induction m generalizing s with
  | zero => rfl
  | succ m ih =>
    have h' : s.env.levels = 1#1 :: (List.replicate m 1#1 ++ L) := h
    obtain ⟨hb, henv⟩ := readData_script h'
    have hnext : s.env.nextLevel = 1#1 := hb
    rw [pollLoop_high m h', ih (by simp [Env.afterLevel, h']), deadPolls_add, List.append_assoc]
    simp [deadPolls, hnext]

/-- A cycle whose readiness wait never ends stops there (R113). -/
theorem cycleBody_never (latch : Bool) {s : State} {L : List Level}
    (h : s.env.levels = List.replicate s.params.readyMaxTries 1#1 ++ L) :
    cycleBody latch s = (.code .notReady, (pollLoop s.params.readyMaxTries s).2) := by
  obtain ⟨hready, -⟩ := pollLoop_never s.params.readyMaxTries s L h
  simp [cycleBody, hready]

theorem topCycle_never (latch : Bool) {s : State} {L : List Level}
    (h : s.env.levels = List.replicate s.params.readyMaxTries 1#1 ++ L) :
    topCycle latch s = (.notReady, (pollLoop s.params.readyMaxTries (beginCycle .top s)).2) := by
  have hbody := cycleBody_never latch (s := beginCycle .top s) (L := L) (by simpa)
  rw [beginCycle_params] at hbody
  simp [topCycle, hbody]

/-- What cycles on a dead line do: they draw `n` high samples, and change nothing that is not named here. -/
structure DeadRun (n : Nat) (L : List Level) (s t : State) : Prop where
  env : t.env = { s.env with levels := L }
  events : t.events = deadPolls s.params n ++ s.events
  config : t.config = s.config
  clk : t.clk = s.clk

theorem DeadRun.pulses {n : Nat} {L : List Level} {s t : State} (h : DeadRun n L s t) :
    highWrites t.events = highWrites s.events := by
  rw [h.events, highWrites_append, highWrites_deadPolls, Nat.zero_add]

theorem pollLoop_dead (c : Ctx) {s : State} {L : List Level}
    (h : s.env.levels = List.replicate s.params.readyMaxTries 1#1 ++ L) :
    DeadRun s.params.readyMaxTries L s (pollLoop s.params.readyMaxTries (beginCycle c s)).2 := by
  have h' : (beginCycle c s).env.levels = List.replicate s.params.readyMaxTries 1#1 ++ L := by simpa
  obtain ⟨-, henv, -⟩ := pollLoop_never s.params.readyMaxTries (beginCycle c s) L h'
  obtain ⟨-, hclk, -, hcfg, -⟩ := pollLoop_keeps s.params.readyMaxTries (beginCycle c s)
  exact ⟨by simpa using henv, by simpa using pollLoop_never_events _ h', by simpa using hcfg, by simpa using hclk⟩

theorem subCycle_never {s : State} {L : List Level}
    (h : s.env.levels = List.replicate s.params.readyMaxTries 1#1 ++ L) :
    (subCycle s).1 = .notReady ∧ DeadRun s.params.readyMaxTries L s (subCycle s).2 := by
  have hbody := cycleBody_never false (s := beginCycle .sub s) (L := L) (by simpa)
  rw [beginCycle_params] at hbody
  have hsub : subCycle s = (.notReady, (pollLoop s.params.readyMaxTries (beginCycle .sub s)).2) := by
    simp [subCycle, hbody]
  rw [hsub]
  exact ⟨rfl, pollLoop_dead .sub h⟩

/-- Sub-cycles on a dead line count nothing (R119). -/
theorem subLoop_never (m : Nat) {s : State} {L : List Level}
    (h : s.env.levels = List.replicate (m * s.params.readyMaxTries) 1#1 ++ L) :
    (subLoop m s).seq.v = s.seq.v ∧ DeadRun (m * s.params.readyMaxTries) L s (subLoop m s) := by
  induction m generalizing s with
  | zero =>
    have hL : s.env.levels = L := by simpa using h
    exact ⟨rfl, by simp [subLoop, ← hL], by simp [subLoop, deadPolls], rfl, rfl⟩
  | succ m ih =>
    have hsplit : (m + 1) * s.params.readyMaxTries = s.params.readyMaxTries + m * s.params.readyMaxTries := by
      ring
    rw [hsplit, List.replicate_add, List.append_assoc] at h
    obtain ⟨hcode, hfirst⟩ := subCycle_never h
    obtain ⟨-, hv, hp⟩ := subCycle_keeps s
    obtain ⟨hrestv, hrest⟩ := ih (s := subDone (subCycle s).1 (subCycle s).2)
      (by simp only [subDone_env, subDone_params, hfirst.env, hp])
    simp only [subDone_params, hp] at hrest
    refine ⟨?_, ?_, ?_, ?_, ?_⟩
    · rw [subLoop, hrestv]
      simp [subDone, hcode, hv]
    · rw [subLoop, hrest.env, subDone_env, hfirst.env]
    · rw [subLoop, hrest.events, subDone_events, subDone_params, hp, hfirst.events, hsplit, ← List.append_assoc,
        ← deadPolls_add, Nat.add_comm]
    · rw [subLoop, hrest.config, subDone_config, hfirst.config]
    · rw [subLoop, hrest.clk, subDone_clk, hfirst.clk]

/-- Settles O28: the cycle ends in its readiness wait. -/
theorem readOneNotReady : Obligations.ReadOneNotReady := by
  unfold Obligations.ReadOneNotReady
  intro s L _ hlev
  have hcycle := topCycle_never true (s := accept 0x1#4 0#8 s) hlev
  have hdead := pollLoop_dead .top (s := accept 0x1#4 0#8 s) hlev
  have hresult : readOneResult s = finish .notReady
      (pollLoop s.params.readyMaxTries (beginCycle .top (accept 0x1#4 0#8 s))).2 := by
    simp only [readOneResult, hcycle]
    rfl
  have hcode : (readOneResult s).status.code = .notReady := by rw [hresult]; rfl
  obtain ⟨hcfg, hraw, hsample, hclk, hshreg, hdiag, -⟩ := TopEnd.notReady (hcode ▸ readOneResult_end s)
  refine ⟨readOneResult s, rfl, hcode, hcfg, hraw, hsample, hclk, hshreg, hdiag, ?_, ?_⟩
  · rw [hresult]
    exact hdead.env
  · rw [hresult]
    exact hdead.events

/-! ### A pulse that trips the guard -/

theorem dataLoop_add (m n : Nat) (s : State) : dataLoop (m + n) s =
    if (dataLoop m s).1 then dataLoop n (dataLoop m s).2 else dataLoop m s := by
  induction m generalizing s with
  | zero => simp [dataLoop]
  | succ m ih =>
    rw [Nat.add_right_comm]
    simp only [dataLoop]
    split
    · simp
    · exact ih _

theorem trailLoop_add (m n : Nat) (s : State) : trailLoop (m + n) s =
    if (trailLoop m s).1 then trailLoop n (trailLoop m s).2 else trailLoop m s := by
  induction m generalizing s with
  | zero => simp [trailLoop]
  | succ m ih =>
    rw [Nat.add_right_comm]
    simp only [trailLoop]
    split
    · simp
    · exact ih _

/-- A data phase of a top-level cycle whose pulse after `bits.length` samples trips (R114). -/
theorem dataLoop_trips {b : State} {bits : List Level} {ps : List (Nat × Nat)} {a e n : Nat} {L : List Level}
    {D : List Nat} (hlt : bits.length < n) (hl : b.env.levels = bits ++ L)
    (hd : b.env.deltas = pulseDeltas ps ++ a :: e :: D) (hn : ps.length = bits.length) (hp : allPass b.params ps)
    (he : b.params.tGuardNs ≤ e) (htop : b.seq.ctx = .top) (hi : (counters b).i = 0) (h0 : b.diag.bitcnt = 0#8) :
    (dataLoop n b).1 = false ∧ (dataLoop n b).2.env.levels = L ∧ (dataLoop n b).2.env.deltas = D ∧
      (dataLoop n b).2.diag = { b.diag with bitcnt := BitVec.ofNat 8 bits.length } := by
  obtain ⟨hpass, hlev, hdel, -, -, -, -, -, hdiag, -⟩ := dataLoop_script bits ps b L (a :: e :: D) hl hd hn hp
  obtain ⟨hparams, -⟩ := dataLoop_keeps bits.length b
  have hshow : (dataLoop bits.length b).2.diag = { b.diag with bitcnt := BitVec.ofNat 8 bits.length } := by
    rcases Nat.eq_zero_or_pos bits.length with hzero | hpos
    · rw [hzero, ← h0]
      rfl
    · rw [(hdiag hpos).2, diagOf, if_pos htop, hi, Nat.zero_add]
  obtain ⟨k, rfl⟩ : ∃ k, n = bits.length + (k + 1) := ⟨n - bits.length - 1, by omega⟩
  rw [dataLoop_add, hpass, if_pos rfl, dataLoop_trip k hdel (by rw [hparams]; exact he)]
  obtain ⟨-, henv⟩ := pulse_script hdel
  exact ⟨rfl, by rw [disarm_env, henv, hlev], by rw [disarm_env, henv], hshow⟩

/-- A trailing phase of a top-level cycle whose pulse after `qs.length` of them trips (R116). -/
theorem trailLoop_trips {b : State} {qs : List (Nat × Nat)} {a e n : Nat} {D : List Nat} (hlt : qs.length < n)
    (hd : b.env.deltas = pulseDeltas qs ++ a :: e :: D) (hp : allPass b.params qs) (he : b.params.tGuardNs ≤ e)
    (htop : b.seq.ctx = .top) (hj : (counters b).j = 0) (h0 : b.diag.trailcnt = 0#4) :
    (trailLoop n b).1 = false ∧ (trailLoop n b).2.shreg = b.shreg ∧ (trailLoop n b).2.env.levels = b.env.levels ∧
      (trailLoop n b).2.env.deltas = D ∧
      (trailLoop n b).2.diag = { b.diag with trailcnt := BitVec.ofNat 4 qs.length } := by
  obtain ⟨hpass, hlev, hdel, -, hshreg, -, -, -, hdiag, -⟩ := trailLoop_script qs b (a :: e :: D) hd hp
  obtain ⟨hparams, -⟩ := trailLoop_keeps qs.length b
  have hshow : (trailLoop qs.length b).2.diag = { b.diag with trailcnt := BitVec.ofNat 4 qs.length } := by
    rcases Nat.eq_zero_or_pos qs.length with hzero | hpos
    · rw [hzero, ← h0]
      rfl
    · rw [(hdiag hpos).2, diagOf, if_pos htop, hj, Nat.zero_add]
  obtain ⟨k, rfl⟩ : ∃ k, n = qs.length + (k + 1) := ⟨n - qs.length - 1, by omega⟩
  rw [trailLoop_add, hpass, if_pos rfl, trailLoop_trip k hdel (by rw [hparams]; exact he)]
  obtain ⟨-, henv⟩ := pulse_script hdel
  exact ⟨rfl, hshreg, by rw [disarm_env, henv, hlev], by rw [disarm_env, henv], hshow⟩

/-- Where a top-level cycle stands at its first data pulse: `m + 1` samples taken, `L` left on the line. -/
structure AtData (m : Nat) (L : List Level) (s b : State) : Prop where
  env : b.env = { s.env with levels := L }
  diag : b.diag = ⟨BitVec.ofNat 8 (m + 1), 0#8, 0#4, 0#4⟩
  ctx : b.seq.ctx = .top
  params : b.params = s.params
  i : (counters b).i = 0
  n : b.seq.n = trailOf s

section
variable {s : State} {m : Nat} {L : List Level} (hm : m < s.params.readyMaxTries)
include hm

/-- The readiness wait of a top-level cycle whose line reads low at sample `m + 1`. -/
theorem atData_of_ready (hl : s.env.levels = List.replicate m 1#1 ++ 0#1 :: L) :
    (pollLoop s.params.readyMaxTries (beginCycle .top s)).1 = true ∧
      AtData m L s (beginData (pollLoop s.params.readyMaxTries (beginCycle .top s)).2) := by
  obtain ⟨hready, henv, -, hdiag⟩ :=
    pollLoop_ready m s.params.readyMaxTries (beginCycle .top s) L hm (by simpa)
  obtain ⟨hp, -, -, hcfg, -, -, hctx, -⟩ := pollLoop_keeps s.params.readyMaxTries (beginCycle .top s)
  generalize pollLoop s.params.readyMaxTries (beginCycle .top s) = r at *
  refine ⟨hready, ?_, ?_, ?_, ?_, ?_, ?_⟩
  · simpa using henv
  · simp only [beginData_diag, hdiag, diagOf, beginCycle_ctx, if_true, beginCycle_top_diag, beginCycle_tries,
      Nat.zero_add]
    rfl
  · simpa [beginData] using hctx
  · simpa using hp
  · simp
  · simp [trailOf, hcfg]

/-- A top-level cycle in which the data pulse after `bits.length` samples trips (R114). -/
theorem cycleBody_dataTrip (latch : Bool) {bits : List Level} {ps : List (Nat × Nat)} {a e : Nat} {D : List Nat}
    (hlt : bits.length < 24) (hl : s.env.levels = List.replicate m 1#1 ++ 0#1 :: (bits ++ L))
    (hd : s.env.deltas = pulseDeltas ps ++ a :: e :: D) (hn : ps.length = bits.length)
    (hp : allPass s.params ps) (he : s.params.tGuardNs ≤ e) :
    (cycleBody latch (beginCycle .top s)).1 = .code .timingViolation ∧
      (cycleBody latch (beginCycle .top s)).2.env.levels = L ∧
      (cycleBody latch (beginCycle .top s)).2.env.deltas = D ∧
      (cycleBody latch (beginCycle .top s)).2.diag =
        ⟨BitVec.ofNat 8 (m + 1), BitVec.ofNat 8 bits.length, 0#4, 0#4⟩ := by
  obtain ⟨hready, hdata⟩ := atData_of_ready hm hl
  simp only [cycleBody, beginCycle_params, hready, Bool.not_true, Bool.false_eq_true, if_false]
  generalize beginData (pollLoop s.params.readyMaxTries (beginCycle .top s)).2 = b at *
  obtain ⟨htrip, hlev, hdel, hdiag⟩ := dataLoop_trips (n := frameBits) (b := b) (L := L) (D := D) hlt
    (by rw [hdata.env]) (by rw [hdata.env]; exact hd) hn (by rw [hdata.params]; exact hp)
    (by rw [hdata.params]; exact he) hdata.ctx hdata.i (by rw [hdata.diag])
  simp only [htrip, Bool.not_false, if_true]
  exact ⟨trivial, hlev, hdel, by rw [hdiag, hdata.diag]⟩

/-- A top-level cycle in which the trailing pulse after the frame `x` and `qs.length` trailing pulses trips (R116). -/
theorem cycleBody_trailTrip (latch : Bool) {x : Frame} {ps qs : List (Nat × Nat)} {a e : Nat} {D : List Nat}
    (hl : s.env.levels = readyLevels m x ++ L) (hd : s.env.deltas = pulseDeltas (ps ++ qs) ++ a :: e :: D)
    (hps : ps.length = 24) (hqs : qs.length < trailOf s) (hp : allPass s.params (ps ++ qs))
    (he : s.params.tGuardNs ≤ e) :
    (cycleBody latch (beginCycle .top s)).1 = .trailTrip ∧
      (cycleBody latch (beginCycle .top s)).2.shreg = x ∧
      (cycleBody latch (beginCycle .top s)).2.env.levels = L ∧
      (cycleBody latch (beginCycle .top s)).2.env.deltas = D ∧
      (cycleBody latch (beginCycle .top s)).2.diag =
        ⟨BitVec.ofNat 8 (m + 1), 24#8, BitVec.ofNat 4 qs.length, 0#4⟩ := by
  have hx24 : (frameLevels x).length = frameBits := by simp [frameLevels, frameBits]
  have hsplit : pulseDeltas (ps ++ qs) = pulseDeltas ps ++ pulseDeltas qs := by simp [pulseDeltas]
  obtain ⟨hready, hdata⟩ := atData_of_ready (L := frameLevels x ++ L) hm (by simpa [readyLevels] using hl)
  simp only [cycleBody, beginCycle_params, hready, Bool.not_true, Bool.false_eq_true, if_false]
  generalize beginData (pollLoop s.params.readyMaxTries (beginCycle .top s)).2 = b at *
  have hbits := dataLoop_script (frameLevels x) ps b L (pulseDeltas qs ++ a :: e :: D)
    (by rw [hdata.env]) (by rw [hdata.env]; simp [hd, hsplit]) (by rw [hps, hx24]; rfl)
    (fun q hq => by rw [hdata.params]; exact hp q (by simp [hq]))
  obtain ⟨hbp, -, -, -, -, -, hbctx, hbn, -⟩ := dataLoop_keeps frameBits b
  rw [hx24] at hbits
  obtain ⟨hpass, hlev, hdel, -, hshreg, -, -, -, hdiag, -⟩ := hbits
  obtain ⟨-, hdiag⟩ := hdiag (by decide)
  rw [diagOf, if_pos hdata.ctx, hdata.diag, hdata.i] at hdiag
  rw [frameLevels_fold] at hshreg
  generalize dataLoop frameBits b = d at *
  simp only [hpass, Bool.not_true, Bool.false_eq_true, if_false]
  have htp : (beginTrail latch d.2).params = s.params := by rw [beginTrail_params, hbp, hdata.params]
  obtain ⟨htrip, htshreg, htlev, htdel, htdiag⟩ := trailLoop_trips (n := (beginTrail latch d.2).seq.n)
    (b := beginTrail latch d.2) (qs := qs) (D := D) (by rw [beginTrail_n, hbn, hdata.n]; exact hqs)
    (by rw [beginTrail_env, hdel]) (fun q hq => by rw [htp]; exact hp q (by simp [hq])) (by rw [htp]; exact he)
    (by simp [beginTrail, hbctx, hdata.ctx]) (by simp) (by rw [beginTrail_diag, hdiag])
  simp only [htrip, Bool.not_false, if_true]
  refine ⟨trivial, by rw [htshreg, beginTrail_shreg, hshreg], by rw [htlev, beginTrail_env, hlev], htdel, ?_⟩
  rw [htdiag, beginTrail_diag, hdiag]
  rfl

end

/-- Settles O29: a data trip of the top-level cycle; the count of its bits is in DIAG. -/
theorem readOneDataPulseTrip : Obligations.ReadOneDataPulseTrip := by
  unfold Obligations.ReadOneDataPulseTrip
  intro s m a e bits ps L D _ hm hlt hl hd hn hp he
  obtain ⟨hcode, hlev, hdel, hdiag⟩ :=
    cycleBody_dataTrip (s := accept 0x1#4 0#8 s) hm true hlt hl hd hn hp he
  have hend := cycleBody_outcome true (beginCycle .top (accept 0x1#4 0#8 s)) (by simp) (fun _ => rfl)
  have hresult : readOneResult s =
      finish .timingViolation (cycleBody true (beginCycle .top (accept 0x1#4 0#8 s))).2 := by
    simp only [readOneResult, topCycle, hcode]
  rw [hcode] at hend
  rw [show exec .readOne s = .next (readOneResult s) from rfl, hresult]
  generalize cycleBody true (beginCycle .top (accept 0x1#4 0#8 s)) = r at *
  generalize hc : Code.timingViolation = c at hend
  cases hend with
  | notReady _ _ _ _ _ _ _ => cases hc
  | complete _ code _ _ _ _ _ _ =>
    rw [← hc] at code
    split at code <;> cases code
  | dataTrip q lt config raw sample clk diag pulses =>
    obtain ⟨p, hdiag'⟩ := diag
    have hq : q = bits.length := by
      have hb := congrArg (fun d : Diag => d.bitcnt.toNat) (hdiag.symm.trans hdiag')
      simp [diagOf, toNat_ofNat_of_lt (w := 8) (by omega : q < 2 ^ 8)] at hb
      omega
    refine ⟨_, rfl, rfl, by simpa using config, by simpa using raw, by simpa using sample, clk, hdiag, ?_, hlev, hdel⟩
    simpa [hq] using pulses

/-! ### Recovery after a trailing trip of `read_one` -/

/-- Where `read_one` stands when a trailing pulse has tripped: the frame `x` read, `j` trailing pulses passed, `L` and
`D` left of the scripts. -/
structure AtRecovery (m j : Nat) (x : Frame) (L : List Level) (D : List Nat) (s u : State) : Prop where
  params : u.params = s.params
  status : u.status = { s.status with busy := true, warn := false }
  config : u.config = { s.config with armed := 0#2 }
  raw : u.raw = x
  sample : u.sample = s.sample
  clk : u.clk = 0#1
  diag : u.diag = ⟨BitVec.ofNat 8 (m + 1), 24#8, BitVec.ofNat 4 j, 0#4⟩
  pulses : highWrites u.events = highWrites s.events + 24 + j + 1
  levels : u.env.levels = L
  deltas : u.env.deltas = D

theorem AtRecovery.trailOf {m j : Nat} {x : Frame} {L : List Level} {D : List Nat} {s u : State}
    (h : AtRecovery m j x L D s u) : trailOf u = trailOf s :=
  trailOf_eq (by rw [h.config]) (by rw [h.config])

theorem readOneResult_of_trailTrip {s : State} {m : Nat} {x : Frame} {ps : List (Nat × Nat)} {a e : Nat}
    {L : List Level} {D : List Nat} (hm : m < s.params.readyMaxTries)
    (hl : s.env.levels = readyLevels m x ++ L) (hd : s.env.deltas = pulseDeltas ps ++ a :: e :: D)
    (h24 : 24 ≤ ps.length) (hlt : ps.length < 24 + trailOf s) (hp : allPass s.params ps)
    (he : s.params.tGuardNs ≤ e) :
    ∃ u, AtRecovery m (ps.length - 24) x L D s u ∧
      readOneResult s = finish (recoverTop u).1 (recoverTop u).2 := by
  have hsplit : ps.take 24 ++ ps.drop 24 = ps := List.take_append_drop 24 ps
  have hlen : (ps.drop 24).length = ps.length - 24 := List.length_drop
  have hlen24 : (ps.take 24).length = 24 := by simp [h24]
  have hcycle := cycleBody_trailTrip (s := accept 0x1#4 0#8 s) (ps := ps.take 24) (qs := ps.drop 24) (L := L)
    (D := D) hm true hl (by rw [hsplit]; exact hd) hlen24
    (by rw [hlen]; exact (by omega : ps.length - 24 < trailOf s)) (by rw [hsplit]; exact hp) he
  rw [hlen] at hcycle
  have hend := cycleBody_outcome true (beginCycle .top (accept 0x1#4 0#8 s)) (by simp) (fun _ => rfl)
  have hkeep := (topKeeps_closed.phases true).cycleBody (beginCycle .top (accept 0x1#4 0#8 s))
  have hresult : readOneResult s =
      finish (topCycle true (accept 0x1#4 0#8 s)).1 (topCycle true (accept 0x1#4 0#8 s)).2 := rfl
  obtain ⟨hstatus, -⟩ := topKeeps_closed.beginTop (accept 0x1#4 0#8 s)
  rw [topCycle] at hresult
  generalize cycleBody true (beginCycle .top (accept 0x1#4 0#8 s)) = r at *
  obtain ⟨hcode, hshreg, hlev, hdel, hdiag⟩ := hcycle
  rw [hcode] at hend
  cases hend with
  | trailTrip q lt config raw sample clk diag pulses =>
    obtain ⟨p, hdiag'⟩ := diag
    obtain ⟨-, h3⟩ := trailOf_pos (beginCycle .top (accept 0x1#4 0#8 s))
    obtain ⟨-, h3s⟩ := trailOf_pos s
    have hq : q = ps.length - 24 := by
      have hb := congrArg (fun d : Diag => d.trailcnt.toNat) (hdiag.symm.trans hdiag')
      simp only [diagOf, beginCycle_ctx, if_true, toNat_ofNat_of_lt (w := 4) (by omega : q < 2 ^ 4),
        toNat_ofNat_of_lt (w := 4) (by omega : ps.length - 24 < 2 ^ 4)] at hb
      exact hb.symm
    refine ⟨r.2, ⟨?_, ?_, by simpa using config, by simpa [hshreg] using raw, by simpa using sample, clk, hdiag,
      by simpa [hq] using pulses, hlev, hdel⟩, ?_⟩
    · rw [hkeep.params]
      simp
    · obtain ⟨hkeptStatus, -⟩ := hkeep
      rw [hkeptStatus, hstatus]
      rfl
    · rw [hresult, hcode]

/-- Settles O30: no sub-cycle of the recovery is ready, so none counts and ARMED stays 0. -/
theorem readOneTrailTripUnrecovered : Obligations.ReadOneTrailTripUnrecovered := by
  unfold Obligations.ReadOneTrailTripUnrecovered
  intro s m a e x ps L D _ hm hl hd h24 hlt hp he
  obtain ⟨u, hu, hresult⟩ := readOneResult_of_trailTrip hm hl hd h24 hlt hp he
  have hdead := subLoop_never u.params.recoveryReads (s := beginSubs u) (L := L)
    (by rw [beginSubs_env, beginSubs_params, hu.levels, hu.params])
  obtain ⟨hkraw, hksample, -⟩ := resultsKept_closed.subLoop u.params.recoveryReads (beginSubs u)
  have hkdiag := subLoop_diag u.params.recoveryReads (beginSubs u)
  have hkstatus := subLoop_status u.params.recoveryReads (beginSubs u)
  have hrecover : recoverTop u = (recoveryCode (subLoop u.params.recoveryReads (beginSubs u)).seq.v,
    endRecovery (subLoop u.params.recoveryReads (beginSubs u))) := rfl
  rw [show exec .readOne s = .next (readOneResult s) from rfl, hresult, hrecover]
  generalize subLoop u.params.recoveryReads (beginSubs u) = v at *
  obtain ⟨hv, hrun⟩ := hdead
  have hv0 : v.seq.v = 0 := hv
  refine ⟨_, rfl, by rw [hv0]; rfl, ?_, hkraw.trans hu.raw, hksample.trans hu.sample, hrun.config.trans hu.config,
    hrun.clk.trans hu.clk, ?_, ?_, by simp [hrun.env], by simp [hrun.env, hu.deltas]⟩
  · simp [hkstatus, hu.status]
  · simp [hkdiag, hu.diag, hv0]
  · have hpulses := hrun.pulses
    simp only [beginSubs_events, hu.pulses] at hpulses
    simp only [finish_events, endRecovery_events, hpulses]
    omega

/-- The code of a recovery that counted the frames of `ys` that are no sentinels. -/
theorem recoveryCode_countP (ys : List Frame) :
    recoveryCode (ys.countP (fun y => !isSentinel y)) =
      if ys.all isSentinel then .protocolDesync else .timingViolation := by
  have hall : ys.countP (fun y => !isSentinel y) = 0 ↔ ys.all isSentinel = true := by
    simp [List.countP_eq_zero]
  simp only [recoveryCode, hall]

/-- Settles O31: every sub-cycle of the recovery reads a frame and arms. -/
theorem readOneTrailTripRecovered : Obligations.ReadOneTrailTripRecovered := by
  unfold Obligations.ReadOneTrailTripRecovered
  intro s m a e x ys ps qs L D hlegal hm hys hl hd h24 hlt hp he hqs hpq
  obtain ⟨-, hmax, -, hrec, -⟩ := legal_iff.1 hlegal
  obtain ⟨u, hu, hresult⟩ := readOneResult_of_trailTrip hm hl hd h24 hlt hp he
  have htrail : trailOf (beginSubs u) = trailOf s := hu.trailOf
  have hreads : u.params.recoveryReads = ys.length := by rw [hu.params, hys]
  have hframes := subLoop_frames ys (beginSubs u) qs L D (by rw [beginSubs_params, hu.params]; exact hmax)
    (by rw [beginSubs_env, hu.levels]) (by rw [beginSubs_env, hu.deltas]) (by rw [htrail]; exact hqs)
    (by rw [beginSubs_params, hu.params]; exact hpq)
  obtain ⟨hkraw, hksample, -⟩ := resultsKept_closed.subLoop ys.length (beginSubs u)
  have hkdiag := subLoop_diag ys.length (beginSubs u)
  have hrecover : recoverTop u = (recoveryCode (subLoop ys.length (beginSubs u)).seq.v,
      endRecovery (subLoop ys.length (beginSubs u))) := by
    simp only [recoverTop, hreads]
  rw [show exec .readOne s = .next (readOneResult s) from rfl, hresult, hrecover]
  generalize subLoop ys.length (beginSubs u) = v at *
  obtain ⟨hlev, hdel, hv, harm, hpulses⟩ := hframes
  obtain ⟨hcfg, hclk⟩ := harm (by rintro rfl; simp at hys; omega)
  have hcount : v.seq.v = ys.countP (fun y => !isSentinel y) := by simpa using hv
  refine ⟨_, rfl, by rw [hcount]; exact recoveryCode_countP ys, hkraw.trans hu.raw, hksample.trans hu.sample, ?_,
    hclk, ?_, ?_, hlev, hdel⟩
  · simp [hcfg, hu.config, htrail]
  · simp [hkdiag, hu.diag, hcount]
  · simp only [beginSubs_events, hu.pulses] at hpulses
    simp only [finish_events, endRecovery_events, hpulses]
    omega

end Sys2Proof.Machine
end

section
/-!
PROOF. `set_channel` and `set_gain` (41_config.md R150-R155): which operands commit, and what the settle read leaves
of a configuration that was committed.
-/

namespace Sys2Proof.Machine

/-! ### The operands -/

theorem setChannelResult_invalid {arg : Byte} (s : State) (h : channelOfArg arg = none) :
    setChannelResult arg s = retire .invalidParameter (accept 0x2#4 arg s) := by
  simp [setChannelResult, h]

theorem setChannelResult_valid {arg : Byte} {c : Channel} (s : State) (h : channelOfArg arg = some c) :
    setChannelResult arg s = finish .ok (settle (setChannel c (accept 0x2#4 arg s))) := by
  simp [setChannelResult, h]

theorem setGainResult_channelB {s : State} (arg : Byte) (h : s.config.channel = .b) :
    setGainResult arg s = retire .ok (setWarn (accept 0x3#4 arg s)) := by
  simp [setGainResult, h]

theorem setGainResult_invalid {s : State} {arg : Byte} (h : s.config.channel = .a) (hg : gainLegal arg = false) :
    setGainResult arg s = retire .invalidParameter (accept 0x3#4 arg s) := by
  simp [setGainResult, h, hg]

theorem setGainResult_valid {s : State} {arg : Byte} (h : s.config.channel = .a) (hg : gainLegal arg = true) :
    setGainResult arg s = finish .ok (settle (setGainA arg (accept 0x3#4 arg s))) := by
  simp [setGainResult, h, hg]

theorem gainLegal_iff (g : Byte) : gainLegal g = true ↔ g = 64#8 ∨ g = 128#8 := by
  simp [gainLegal]

theorem retire_eq (c : Code) (s : State) : retire c s = { s with
    status := { s.status with code := c, busy := false } } := rfl

/-- Settles O32: the two illegal operands end at acceptance. -/
theorem invalidOperandsChangeNothingElse : Obligations.InvalidOperandsChangeNothingElse := by
  unfold Obligations.InvalidOperandsChangeNothingElse
  refine fun s arg => ⟨fun h0 h1 => ?_, fun ha h64 h128 => ?_⟩
  · have hnone : channelOfArg arg = none := by simp [channelOfArg, h0, h1]
    calc exec (.setChannel arg) s
      _ = .next (setChannelResult arg s) := rfl
      _ = _ := by rw [setChannelResult_invalid s hnone, retire_eq, accept_eq]
  · have hillegal : gainLegal arg = false := by simp [gainLegal, h64, h128]
    calc exec (.setGain arg) s
      _ = .next (setGainResult arg s) := rfl
      _ = _ := by rw [setGainResult_invalid ha hillegal, retire_eq, accept_eq]

/-- Settles O34: on channel B the command ends at its warning. -/
theorem setGainOnChannelBWarnsOnly : Obligations.SetGainOnChannelBWarnsOnly := by
  unfold Obligations.SetGainOnChannelBWarnsOnly
  intro s arg hb
  calc exec (.setGain arg) s
    _ = .next (setGainResult arg s) := rfl
    _ = _ := by rw [setGainResult_channelB arg hb, retire_eq, accept_eq, setWarn]

/-! ### Commit and settle -/

/-- The commands that commit a configuration `(c, g)` and settle (41_config.md R150, R153). -/
def Commits (s : State) (i : Instr) (c : Channel) (g : Byte) : Prop :=
  i = .setChannel 0#8 ∧ c = .a ∧ g = s.config.gainA ∨ i = .setChannel 1#8 ∧ c = .b ∧ g = s.config.gainA ∨
    s.config.channel = .a ∧ (g = 64#8 ∨ g = 128#8) ∧ i = .setGain g ∧ c = .a

/-- Where such a command stands when its settle read begins. -/
def committed (i : Instr) (c : Channel) (g : Byte) (s : State) : State :=
  { accept i.op i.arg s with config := { s.config with channel := c, gainA := g } }

theorem exec_of_commits {s : State} {i : Instr} {c : Channel} {g : Byte} (h : Commits s i c g) :
    exec i s = .next (finish .ok (settle (committed i c g s))) := by
  obtain ⟨rfl, rfl, rfl⟩ | ⟨rfl, rfl, rfl⟩ | ⟨ha, hg, rfl, rfl⟩ := h
  · exact congrArg Host.Outcome.next (setChannelResult_valid s rfl)
  · exact congrArg Host.Outcome.next (setChannelResult_valid s rfl)
  · rw [committed, ← ha]
    exact congrArg Host.Outcome.next (setGainResult_valid ha ((gainLegal_iff g).2 hg))

/-- What the end of such a command keeps of the commit: `settle_keeps`, in terms of the state before the command. -/
theorem commits_keeps {s : State} {i : Instr} {c : Channel} {g : Byte} (h : Commits s i c g) :
    ∃ t, exec i s = .next t ∧
      t.status = { s.status with code := .ok, busy := false, warn := false, settleCode := t.status.settleCode } ∧
      t.status.settleCode.isCycleCode = true ∧
      t.config.channel = c ∧ t.config.gainA = g ∧ t.config.sampleCfg = s.config.sampleCfg ∧
      t.raw = s.raw ∧ t.sample = s.sample ∧ t.cmdOp = i.op ∧ t.cmdArg = i.arg ∧ t.seq.point = .idle ∧
      t.events.head? = some (.sleep s.params.tSettleNs) ∧
      (t.status.settleCode = .ok ∨ t.status.settleCode = .invalidSample →
        t.config.armed = BitVec.ofNat 2 (trailOf t)) ∧
      (t.status.settleCode = .notReady → t.config.armed = s.config.armed) ∧
      t.params = s.params ∧ t.rst = s.rst ∧ t.bus = s.bus ∧ t.reads = s.reads := by
  obtain ⟨code, hcode, hstatus, hop, harg, hp, hrst, hbus, hreads, hchannel, hgain, hraw, hsample, hcfg, hlast,
    harmed, hkept⟩ := settle_keeps (committed i c g s)
  refine ⟨_, exec_of_commits h, ?_⟩
  generalize settle (committed i c g s) = t at *
  rw [finish_status, hstatus]
  exact ⟨rfl, hcode, hchannel, hgain, hcfg, hraw, hsample, hop, harg, rfl, hlast, harmed, hkept, hp, hrst, hbus,
    hreads⟩

/-- Settles O33: the operand says which channel is committed. -/
theorem setChannelCommitsAndSettles : Obligations.SetChannelCommitsAndSettles := by
  unfold Obligations.SetChannelCommitsAndSettles
  rintro s arg c (⟨rfl, rfl⟩ | ⟨rfl, rfl⟩)
  · exact commits_keeps (.inl ⟨rfl, rfl, rfl⟩)
  · exact commits_keeps (.inr (.inl ⟨rfl, rfl, rfl⟩))

/-- Settles O35: the operand is the gain committed. -/
theorem setGainCommitsAndSettles : Obligations.SetGainCommitsAndSettles := by
  unfold Obligations.SetGainCommitsAndSettles
  exact fun s arg ha harg => commits_keeps (.inr (.inr ⟨ha, harg, rfl, rfl⟩))

/-- The settle read of a ready chip on a line with the frame `x` and fast pulses (41_config.md R151). -/
theorem settle_frame {u : State} {m : Nat} {x : Frame} {ps : List (Nat × Nat)} {L : List Level} {D : List Nat}
    (hm : m < u.params.readyMaxTries) (hl : u.env.levels = readyLevels m x ++ L)
    (hd : u.env.deltas = pulseDeltas ps ++ D) (hn : ps.length = 24 + trailOf u) (hp : allPass u.params ps) :
    (settle u).status.settleCode = (if isSentinel x then .invalidSample else .ok) ∧
      (settle u).config = { u.config with armed := BitVec.ofNat 2 (trailOf u) } ∧ (settle u).clk = 0#1 ∧
      (settle u).diag = ⟨BitVec.ofNat 8 (m + 1), 24#8, BitVec.ofNat 4 (trailOf u), 0#4⟩ ∧
      highWrites (settle u).events = highWrites u.events + 24 + trailOf u ∧
      (settle u).env.levels = L ∧ (settle u).env.deltas = D := by
  obtain ⟨hcode, -, hlev, hdel, -, hdiag⟩ := topCycle_frame false u m x ps L D hm hl hd hn hp
  have hdone : (topCycle false u).1 = .ok ∨ (topCycle false u).1 = .invalidSample := by
    rw [hcode]
    split
    · exact .inr rfl
    · exact .inl rfl
  obtain ⟨-, hcfg, -, -, hclk, -, hpulses⟩ := (topCycle_end false u).complete hdone
  simp only [settle]
  generalize topCycle false u = r at *
  exact ⟨hcode, by simpa using hcfg, hclk, hdiag, hpulses, hlev, hdel⟩

/-- Settles O36: the settle read runs with the configuration just committed. -/
theorem settleReadArmsNewConfiguration : Obligations.SettleReadArmsNewConfiguration := by
  unfold Obligations.SettleReadArmsNewConfiguration
  intro s i c g m x ps L D hi _ hm hl hd hn hp
  obtain ⟨hcode, hcfg, hclk, hdiag, hpulses, hlev, hdel⟩ := settle_frame
    (u := committed i c g s) hm hl hd hn hp
  refine ⟨_, exec_of_commits hi, ?_⟩
  generalize settle (committed i c g s) = t at *
  exact ⟨rfl, hcode, hcfg, hclk, hdiag, hpulses, hlev, hdel⟩

end Sys2Proof.Machine
end

section
/-!
PROOF. How many primitives a command runs at most (40_read_cycle.md R126, 42_power.md R176): the history grows by one
event per primitive, so the bounds of the loops add up along the shape of the cycle.
-/

namespace Sys2Proof.Machine

/-- From `s` to `t` at most `n` primitives ran. -/
def GrowsBy (n : Nat) (s t : State) : Prop := ∃ es, t.events = es ++ s.events ∧ es.length ≤ n

section
variable {m n : Nat} {s t u : State}

theorem GrowsBy.refl (n : Nat) (s : State) : GrowsBy n s s := ⟨[], rfl, Nat.zero_le n⟩

theorem GrowsBy.trans (h : GrowsBy m s t) (h' : GrowsBy n t u) : GrowsBy (m + n) s u := by
  obtain ⟨es, hes, hm⟩ := h
  obtain ⟨fs, hfs, hn⟩ := h'
  refine ⟨fs ++ es, by rw [hfs, hes, List.append_assoc], ?_⟩
  rw [List.length_append]
  omega

theorem GrowsBy.mono (h : GrowsBy m s t) (hle : m ≤ n) : GrowsBy n s t := by
  obtain ⟨es, hes, hm⟩ := h
  exact ⟨es, hes, hm.trans hle⟩

/-- Updates that write no event do not count. -/
theorem GrowsBy.of_events_eq {s' t' : State} (h : GrowsBy n s t) (hs : s.events = s'.events)
    (ht : t'.events = t.events) : GrowsBy n s' t' := by
  obtain ⟨es, hes, hn⟩ := h
  exact ⟨es, by rw [ht, hes, hs], hn⟩

end

theorem readData_growsBy (s : State) : GrowsBy 1 s (readData s).2 := ⟨[_], rfl, Nat.le_refl 1⟩

theorem sleep_growsBy (d : Nat) (s : State) : GrowsBy 1 s (sleep d s) := ⟨[_], rfl, Nat.le_refl 1⟩

/-- A pulse is two clock writes between two readings of the time (R111). -/
theorem pulse_growsBy (s : State) : GrowsBy 4 s (pulse s).2 := ⟨[_, _, _, _], rfl, Nat.le_refl 4⟩

/-- The readiness wait: a sample and a sleep each (R113). -/
theorem pollLoop_growsBy (m : Nat) (s : State) : GrowsBy (2 * m) s (pollLoop m s).2 := by
  induction m generalizing s with
  | zero => exact .refl 0 s
  | succ m ih =>
    have hsample : GrowsBy 1 s (pollDone (readData s).2) := (readData_growsBy s).of_events_eq rfl (by simp)
    simp only [pollLoop]
    split
    · exact hsample.mono (by omega)
    · exact ((hsample.trans (sleep_growsBy _ _)).trans (ih _)).mono (by omega)

/-- A data pulse and its sample: five primitives (R114). -/
theorem dataLoop_growsBy (m : Nat) (s : State) : GrowsBy (5 * m) s (dataLoop m s).2 := by
  induction m generalizing s with
  | zero => exact .refl 0 s
  | succ m ih =>
    simp only [dataLoop]
    split
    · exact ((pulse_growsBy s).of_events_eq rfl rfl).mono (by omega)
    · have hbit : GrowsBy 5 s (bitDone (readData (pulse s).2).1 (readData (pulse s).2).2) :=
        ((pulse_growsBy s).trans (readData_growsBy _)).of_events_eq rfl (by simp)
      exact (hbit.trans (ih _)).mono (by omega)

/-- A trailing pulse has no sample: four primitives (R116). -/
theorem trailLoop_growsBy (m : Nat) (s : State) : GrowsBy (4 * m) s (trailLoop m s).2 := by
  induction m generalizing s with
  | zero => exact .refl 0 s
  | succ m ih =>
    simp only [trailLoop]
    split
    · exact ((pulse_growsBy s).of_events_eq rfl rfl).mono (by omega)
    · have htrail : GrowsBy 4 s (trailDone (pulse s).2) := (pulse_growsBy s).of_events_eq rfl (by simp)
      exact (htrail.trans (ih _)).mono (by omega)

/-- The primitives of a cycle before recovery: the wait, 24 data pulses and at most 3 trailing ones. -/
def cycleBound (p : Params) : Nat := 2 * p.readyMaxTries + 132

theorem cycleBody_growsBy (latch : Bool) (s : State) : GrowsBy (cycleBound s.params) s (cycleBody latch s).2 := by
  have hpoll := pollLoop_growsBy s.params.readyMaxTries s
  simp only [cycleBody, cycleBound]
  generalize pollLoop s.params.readyMaxTries s = r at *
  split
  · exact hpoll.mono (by omega)
  have hdata : GrowsBy 120 r.2 (dataLoop frameBits (beginData r.2)).2 :=
    (dataLoop_growsBy frameBits (beginData r.2)).of_events_eq (by simp) rfl
  obtain ⟨hn, -⟩ := dataLoop_locals frameBits (beginData r.2)
  have h3 : (dataLoop frameBits (beginData r.2)).2.seq.n ≤ 3 := by
    rw [hn, beginData_n]
    exact (trailOf_pos r.2).2
  generalize dataLoop frameBits (beginData r.2) = d at *
  split
  · exact (hpoll.trans hdata).mono (by omega)
  have htrail : GrowsBy 12 d.2 (trailLoop (beginTrail latch d.2).seq.n (beginTrail latch d.2)).2 :=
    ((trailLoop_growsBy _ (beginTrail latch d.2)).of_events_eq (by simp) rfl).mono (by rw [beginTrail_n]; omega)
  have hall := (hpoll.trans hdata).trans htrail
  split
  · exact hall
  · exact hall.of_events_eq rfl (by simp)

theorem subCycle_growsBy (s : State) : GrowsBy (cycleBound s.params) s (subCycle s).2 := by
  rw [subCycle_state]
  have hbody := cycleBody_growsBy false (beginCycle .sub s)
  rw [beginCycle_params] at hbody
  exact hbody.of_events_eq (by simp) rfl

theorem subLoop_growsBy (m : Nat) (s : State) : GrowsBy (m * cycleBound s.params) s (subLoop m s) := by
  induction m generalizing s with
  | zero => exact .refl _ s
  | succ m ih =>
    obtain ⟨-, -, hp⟩ := subCycle_keeps s
    have hrest := ih (subDone (subCycle s).1 (subCycle s).2)
    rw [subDone_params, hp] at hrest
    have hfirst : GrowsBy (cycleBound s.params) s (subDone (subCycle s).1 (subCycle s).2) :=
      (subCycle_growsBy s).of_events_eq rfl rfl
    exact (hfirst.trans hrest).mono (by rw [Nat.succ_mul, Nat.add_comm])

/-- A top-level cycle and the sub-cycles of its recovery, if it has one (R126). -/
theorem topCycle_growsBy (latch : Bool) (s : State) :
    GrowsBy (cycleBound s.params * (1 + s.params.recoveryReads)) s (topCycle latch s).2 := by
  have hbody := cycleBody_growsBy latch (beginCycle .top s)
  have hp := ((topKeeps_closed.phases latch).cycleBody (beginCycle .top s)).params
  simp only [topCycle]
  generalize cycleBody latch (beginCycle .top s) = r at *
  rw [beginCycle_params] at hbody hp
  replace hbody : GrowsBy (cycleBound s.params) s r.2 := hbody.of_events_eq (by simp) rfl
  split
  · exact hbody.mono (Nat.le_mul_of_pos_right _ (by omega))
  · have hrecover : GrowsBy (s.params.recoveryReads * cycleBound s.params) r.2 (recoverTop r.2).2 := by
      rw [← hp]
      exact (subLoop_growsBy _ (beginSubs r.2)).of_events_eq rfl rfl
    exact (hbody.trans hrecover).mono (by rw [Nat.mul_add, Nat.mul_one, Nat.mul_comm])

end Sys2Proof.Machine
end

section
/-!
PROOF. `reset` (42_power.md R174, R175): the power cycle, then the settle loop, whose count of valid sub-cycles is
REC_VALID and decides CODE and FATAL.
-/

namespace Sys2Proof.Machine

/-! ### The power cycle -/

/-- The events of the power cycle, newest first (R174). -/
def powerEvents (p : Params) : List Event :=
  [.sleep p.tPuNs, .clkWrite 0#1, .sleep p.tPdNs, .clkWrite 1#1, .clkWrite 0#1]

/-- Where `reset` stands when its settle loop begins. -/
def powerCycled (s : State) : State := { s with
  clk := 0#1, cmdOp := 0x6#4, cmdArg := 0#8, diag := .zero,
  status := { s.status with busy := true, warn := false }, config := { s.config with armed := 0#2 },
  seq := { s.seq with k := 0, v := 0 }, events := powerEvents s.params ++ s.events }

theorem powerCycled_pulses (s : State) : highWrites (powerCycled s).events = highWrites s.events + 1 := by
  rw [powerCycled, highWrites_append, Nat.add_comm]
  rfl

theorem resetResult_eq (s : State) :
    resetResult s = endReset (subLoop s.params.resetSettleReads (powerCycled s)) := by
  simp only [resetResult, enterPowerDown_eq, leavePowerDown_eq]
  rfl

/-- What `endReset` writes (R174). -/
theorem endReset_eq (s : State) : endReset s = { s with
    status := { s.status with code := resetCode s.seq.v, busy := false, fatal := s.seq.v == 0 },
    diag := { s.diag with recValid := BitVec.ofNat 4 s.seq.v },
    seq := { s.seq with point := .idle } } := rfl

/-! ### The outcome -/

/-- REC_VALID holds the whole count: there are at most 15 settle reads. -/
theorem resetCount_lt {s : State} (hl : s.params.legal = true) :
    (subLoop s.params.resetSettleReads (powerCycled s)).seq.v ≤ s.params.resetSettleReads ∧
      (subLoop s.params.resetSettleReads (powerCycled s)).seq.v < 2 ^ 4 := by
  obtain ⟨-, -, -, -, -, -, h15⟩ := legal_iff.1 hl
  have hv : (subLoop s.params.resetSettleReads (powerCycled s)).seq.v ≤ 0 + s.params.resetSettleReads :=
    subLoop_v s.params.resetSettleReads (powerCycled s)
  omega

/-- Settles O39: the count of the settle loop decides the outcome; the loop keeps the rest. -/
theorem resetSelfTestOutcome : Obligations.ResetSelfTestOutcome := by
  unfold Obligations.ResetSelfTestOutcome
  intro s hl
  obtain ⟨hbound, hlt⟩ := resetCount_lt hl
  have hkeeps := topKeeps_closed.subLoop s.params.resetSettleReads (powerCycled s)
  obtain ⟨hraw, hsample, hcfg⟩ := resultsKept_closed.subLoop s.params.resetSettleReads (powerCycled s)
  obtain ⟨-, -, hclk, -⟩ := subLoop_arm s.params.resetSettleReads (powerCycled s)
  have hdiag := subLoop_diag s.params.resetSettleReads (powerCycled s)
  obtain ⟨es, hes, -⟩ := subLoop_growsBy s.params.resetSettleReads (powerCycled s)
  refine ⟨resetResult s, rfl, ?_⟩
  rw [resetResult_eq, endReset_eq]
  generalize subLoop s.params.resetSettleReads (powerCycled s) = t at *
  obtain ⟨hstatus, hop, harg, hp, hrst, hbus, hreads, hchannel, hgain⟩ := hkeeps
  have hval : (BitVec.ofNat 4 t.seq.v).toNat = t.seq.v := toNat_ofNat_of_lt hlt
  refine ⟨?_, hval.le.trans hbound, congrArg Diag.polls hdiag, congrArg Diag.bitcnt hdiag,
    congrArg Diag.trailcnt hdiag, hclk rfl, rfl, congrArg Status.warn hstatus, congrArg (·.settleCode) hstatus,
    hchannel, hgain, hcfg, hraw, hsample, hop, harg, rfl, ⟨es, hes⟩, hp, hrst, hbus, hreads⟩
  by_cases hv : t.seq.v = 0
  · exact .inr (by simp [hv, resetCode])
  · refine .inl ⟨by simp [hv, resetCode], by simp [hv], fun h0 => hv ?_⟩
    rw [← hval]
    exact congrArg BitVec.toNat h0

/-- Settles O40: each settle sub-cycle reads a frame and arms. -/
theorem resetCountsValidFrames : Obligations.ResetCountsValidFrames := by
  unfold Obligations.ResetCountsValidFrames
  intro s ys ps L D hl hys hlev hdel hn hp
  obtain ⟨-, hmax, -, -, -, hone, -⟩ := legal_iff.1 hl
  obtain ⟨hL, hD, hv, harm, hpulses⟩ := subLoop_frames ys (powerCycled s) ps L D hmax hlev hdel hn hp
  have hne : ys ≠ [] := by
    rintro rfl
    simp at hys
    omega
  obtain ⟨hcfg, hclk⟩ := harm hne
  have hdiag := subLoop_diag ys.length (powerCycled s)
  refine ⟨resetResult s, rfl, ?_⟩
  rw [resetResult_eq, endReset_eq, ← hys]
  generalize subLoop ys.length (powerCycled s) = t at *
  have hcount : t.seq.v = ys.countP (fun y => !isSentinel y) := by simpa [powerCycled] using hv
  have hall : ys.countP (fun y => !isSentinel y) = 0 ↔ ys.all isSentinel = true := by
    simp [List.countP_eq_zero]
  refine ⟨?_, ?_, ?_, congrArg Setup.armed hcfg, hclk, ?_, hL, hD⟩
  · simp only [hcount, resetCode, hall]
  · rw [hcount, Bool.eq_iff_iff, beq_iff_eq, hall]
  · simp only [hdiag, hcount]
    rfl
  · exact hpulses.trans (by rw [powerCycled_pulses])

/-- Settles O41: no settle sub-cycle is ready, so none counts and ARMED stays 0. -/
theorem resetFindsNoChip : Obligations.ResetFindsNoChip := by
  unfold Obligations.ResetFindsNoChip
  intro s L _ hlev
  obtain ⟨hv, hdead⟩ := subLoop_never s.params.resetSettleReads (s := powerCycled s) (L := L) hlev
  have hdiag := subLoop_diag s.params.resetSettleReads (powerCycled s)
  refine ⟨resetResult s, rfl, ?_⟩
  rw [resetResult_eq, endReset_eq]
  generalize subLoop s.params.resetSettleReads (powerCycled s) = t at *
  have hv0 : t.seq.v = 0 := hv
  refine ⟨by simp [hv0, resetCode], by simp [hv0], ?_, hdead.config, hdead.clk, ?_, congrArg Env.levels hdead.env,
    hdead.events⟩
  · simp only [hdiag, hv0]
    rfl
  · exact hdead.pulses.trans (powerCycled_pulses s)

/-- Settles O42: `read_one` is one top-level cycle; `reset` is the power cycle and its settle loop. -/
theorem primitiveBounds : Obligations.PrimitiveBounds := by
  unfold Obligations.PrimitiveBounds
  refine fun s => ⟨?_, ?_⟩
  · obtain ⟨es, hes, hle⟩ := topCycle_growsBy true (accept 0x1#4 0#8 s)
    exact ⟨readOneResult s, es, rfl, hes, hle⟩
  · have hpower : GrowsBy 5 s (powerCycled s) := ⟨powerEvents s.params, rfl, Nat.le_refl 5⟩
    obtain ⟨es, hes, hle⟩ := hpower.trans (subLoop_growsBy s.params.resetSettleReads (powerCycled s))
    exact ⟨resetResult s, es, rfl, by rw [resetResult_eq]; exact hes, hle⟩

end Sys2Proof.Machine
end

section
/-!
PROOF. The result registers and ARMED after each command (10_state.md R41, R43, 40_read_cycle.md R122, R123): what
the cycles write there, and that the host may trust SAMPLE after one kind of command only.
-/

namespace Sys2Proof.Machine

/-! ### A top-level cycle -/

section
variable {latch : Bool} {s t : State} {c : Code}

/-- A cycle that does not end with OK writes no sample (R118). -/
theorem TopEnd.sample_kept (h : TopEnd latch s t c) (hc : c ≠ .ok) :
    t.sample = s.sample ∧ t.config.sampleCfg = s.config.sampleCfg := by
  obtain ⟨-, hcfg, -, hsample, -⟩ | ⟨-, _, _, -, hcfg, -, hsample, -⟩ | ⟨_, _, _, -, -, -, hsample, -, hcfg, -⟩ |
    ⟨hcode, _, hcfg, -, hsample, -⟩ := h
  · exact ⟨hsample, by rw [hcfg]⟩
  · exact ⟨hsample, by rw [hcfg]⟩
  · exact ⟨hsample, hcfg⟩
  · have hbad : isSentinel t.shreg = true := by
      by_contra hother
      simp [hother] at hcode
      exact hc hcode
    simp [hcfg, hsample, hbad]

/-- A latching cycle that ends with OK notes what ARMED was at its start (R118). -/
theorem TopEnd.sampleCfg_of_ok (h : TopEnd true s t .ok) : t.config.sampleCfg = s.config.armed := by
  obtain ⟨hcode, hcfg, -⟩ := h.complete (.inl rfl)
  have hgood : isSentinel t.shreg = false := by
    by_contra hother
    simp [hother] at hcode
  rw [hcfg]
  simp [hgood]

/-- ARMED is kept, cleared, or the trailing count in force (R123). -/
theorem TopEnd.armed (h : TopEnd latch s t c) : t.config.armed = s.config.armed ∨ t.config.armed = 0#2 ∨
    t.config.armed = BitVec.ofNat 2 (trailOf s) := by
  obtain ⟨-, hcfg, -⟩ | ⟨-, _, _, -, hcfg, -⟩ | ⟨_, _, _, -, -, -, -, -, -, -, harmed, -⟩ | ⟨-, _, hcfg, -⟩ := h
  · exact .inl (by rw [hcfg])
  · exact .inr (.inl (by rw [hcfg]))
  · exact .inr harmed
  · exact .inr (.inr (by rw [hcfg]))

end

theorem readOneResult_trailOf (s : State) : trailOf (readOneResult s) = trailOf s :=
  trailOf_eq (by simp [readOneResult]) (by simp [readOneResult])

/-! ### The result registers -/

/-- RAW, SAMPLE and SAMPLE_CFG are as they were. -/
def ResultsKept (s t : State) : Prop :=
  t.raw = s.raw ∧ t.sample = s.sample ∧ t.config.sampleCfg = s.config.sampleCfg

theorem settle_resultsKept (s : State) : ResultsKept s (finish .ok (settle s)) := by
  simpa [ResultsKept, settle] using topCycle_noLatch s

/-- No command but `read_one` latches (R122). -/
theorem exec_resultsKept {i : Instr} {s t : State} (h : exec i s = .next t) (hi : i ≠ .readOne) :
    ResultsKept s t := by
  cases i <;> cases h
  case readOne => exact absurd rfl hi
  case setChannel arg =>
    cases hc : channelOfArg arg with
    | none => rw [setChannelResult_invalid s hc]; exact ⟨rfl, rfl, rfl⟩
    | some c =>
      rw [setChannelResult_valid s hc]
      exact settle_resultsKept (setChannel c (accept 0x2#4 arg s))
  case setGain arg =>
    cases hchan : s.config.channel with
    | b => rw [setGainResult_channelB arg hchan]; exact ⟨rfl, rfl, rfl⟩
    | a =>
      cases hg : gainLegal arg with
      | false => rw [setGainResult_invalid hchan hg]; exact ⟨rfl, rfl, rfl⟩
      | true =>
        rw [setGainResult_valid hchan hg]
        exact settle_resultsKept (setGainA arg (accept 0x3#4 arg s))
  case powerDown => exact ⟨rfl, rfl, rfl⟩
  case powerUp => exact ⟨rfl, rfl, rfl⟩
  case reset =>
    rw [resetResult_eq]
    exact resultsKept_closed.subLoop s.params.resetSettleReads (powerCycled s)

theorem op_eq_readOne_iff (i : Instr) : i.op = Instr.readOne.op ↔ i = .readOne := by
  cases i <;> simp [Instr.op]

/-- Settles O43: the latches tell which command ran last, and SAMPLE_CFG what ARMED was. -/
theorem resultsWrittenByReadOneOnly : Obligations.ResultsWrittenByReadOneOnly := by
  unfold Obligations.ResultsWrittenByReadOneOnly
  intro i s
  obtain ⟨t, ht⟩ := exec_completes i s
  obtain ⟨hop, -⟩ := exec_latches ht
  have hread (hi : i = .readOne) : TopEnd true s t t.status.code ∧ trailOf t = trailOf s := by
    subst hi
    cases ht
    exact ⟨readOneResult_end s, readOneResult_trailOf s⟩
  refine ⟨t, ht, exec_resultsKept ht, fun hi hc => (hread hi).1.sample_kept hc, ?_⟩
  unfold SampleTrusted
  rw [hop, op_eq_readOne_iff]
  constructor
  · rintro ⟨-, hi, hc, hcfg⟩
    obtain ⟨hend, htrail⟩ := hread hi
    rw [hc] at hend
    exact ⟨hi, hc, by rw [← hend.sampleCfg_of_ok, hcfg, htrail]⟩
  · rintro ⟨hi, hc, harmed⟩
    obtain ⟨hend, htrail⟩ := hread hi
    rw [hc] at hend
    exact ⟨exec_not_busy ht, hi, hc, by rw [hend.sampleCfg_of_ok, harmed, htrail]⟩

/-! ### ARMED -/

/-- ARMED after a command: kept, cleared, or the trailing count after it (10_state.md R41). -/
def ArmedOf (s t : State) : Prop := t.config.armed = s.config.armed ∨ t.config.armed = 0#2 ∨
  t.config.armed = BitVec.ofNat 2 (trailOf t)

theorem settle_armedOf (s : State) : ArmedOf s (finish .ok (settle s)) := by
  obtain ⟨hchannel, hgain, harmed⟩ := settle_arm s
  rw [← trailOf_eq hchannel hgain] at harmed
  exact harmed

theorem exec_armedOf {i : Instr} {s t : State} (h : exec i s = .next t) : ArmedOf s t := by
  cases i <;> cases h
  case readOne =>
    have harmed := (readOneResult_end s).armed
    rw [← readOneResult_trailOf s] at harmed
    exact harmed
  case setChannel arg =>
    cases hc : channelOfArg arg with
    | none => rw [setChannelResult_invalid s hc]; exact .inl rfl
    | some c =>
      rw [setChannelResult_valid s hc]
      exact settle_armedOf (setChannel c (accept 0x2#4 arg s))
  case setGain arg =>
    cases hchan : s.config.channel with
    | b => rw [setGainResult_channelB arg hchan]; exact .inl rfl
    | a =>
      cases hg : gainLegal arg with
      | false => rw [setGainResult_invalid hchan hg]; exact .inl rfl
      | true =>
        rw [setGainResult_valid hchan hg]
        exact settle_armedOf (setGainA arg (accept 0x3#4 arg s))
  case powerDown => exact .inr (.inl rfl)
  case powerUp => exact .inl rfl
  case reset =>
    obtain ⟨hchannel, hgain, -, harmed⟩ := subLoop_arm s.params.resetSettleReads (powerCycled s)
    rw [← trailOf_eq hchannel hgain] at harmed
    rw [resetResult_eq]
    exact .inr (harmed.elim .inl id)

/-- Settles O45: command by command. -/
theorem armedIsKeptClearedOrTrail : Obligations.ArmedIsKeptClearedOrTrail := by
  unfold Obligations.ArmedIsKeptClearedOrTrail
  intro i s
  obtain ⟨t, ht⟩ := exec_completes i s
  exact ⟨t, ht, exec_armedOf ht⟩

end Sys2Proof.Machine
end

section
/-!
PROOF. A command neither reads nor writes the host's side of the state (95_test_vectors.md 2.8, 20_memory.md R75): each
update commutes with a change of what the host has queued and read, and so do the loops built from them.
-/

namespace Sys2Proof.Machine

/-- The state with another queue and other words read. -/
def withHost (b : List HostOp) (r : List Word) (s : State) : State := { s with bus := b, reads := r }

/-- An update that does the same whatever the host has queued and read. -/
def HostBlind (f : State → State) : Prop := ∀ b r s, f (withHost b r s) = withHost b r (f s)

/-- The same of one that also answers a value, which does not depend on the host either. -/
def HostBlindWith {α : Type} (f : State → α × State) : Prop :=
  ∀ b r s, f (withHost b r s) = ((f s).1, withHost b r (f s).2)

theorem HostBlind.comp {f g : State → State} (hf : HostBlind f) (hg : HostBlind g) : HostBlind (f ∘ g) := by
  intro b r s
  rw [Function.comp, hg, hf]
  rfl

/-! ### The updates -/

theorem noteDiag_withHost (d : Diag) : HostBlind (noteDiag d) := by
  intro b r s
  unfold noteDiag
  cases h : s.seq.ctx <;> simp [withHost, h]

theorem setCounters_withHost (c : Counters) : HostBlind (setCounters c) := by
  intro b r s
  unfold setCounters
  cases h : s.seq.ctx <;> simp [withHost, h]

theorem latchSample_withHost (l : Bool) : HostBlind (latchSample l) := by
  intro b r s
  unfold latchSample
  by_cases h : (l && !isSentinel s.shreg) = true <;> simp [withHost, h]

theorem pollDone_withHost : HostBlind pollDone := by
  intro b r s
  simp only [pollDone, ← setCounters_withHost _ b r _, ← noteDiag_withHost _ b r _]
  rfl

theorem bitDone_withHost (l : Level) : HostBlind (bitDone l) := by
  intro b r s
  simp only [bitDone, ← setCounters_withHost _ b r _, ← noteDiag_withHost _ b r _]
  rfl

theorem trailDone_withHost : HostBlind trailDone := by
  intro b r s
  simp only [trailDone, ← setCounters_withHost _ b r _, ← noteDiag_withHost _ b r _]
  rfl

theorem beginData_withHost : HostBlind beginData := by
  intro b r s
  simp only [beginData, ← setCounters_withHost _ b r _]
  rfl

theorem beginTrail_withHost (l : Bool) : HostBlind (beginTrail l) := by
  intro b r s
  simp only [beginTrail, ← setCounters_withHost _ b r _]
  rfl

theorem beginCycle_withHost (c : Ctx) : HostBlind (beginCycle c) := by
  intro b r s
  cases c <;> rfl

/-! ### The phases -/

theorem pulse_withHost : HostBlindWith pulse := fun _ _ _ => rfl

theorem pollLoop_withHost (m : Nat) : HostBlindWith (pollLoop m) := by
  intro b r s
  induction m generalizing s with
  | zero => rfl
  | succ m ih =>
    have hsample : pollDone (readData (withHost b r s)).2 = withHost b r (pollDone (readData s).2) :=
      pollDone_withHost b r (readData s).2
    have hlevel : (readData (withHost b r s)).1 = (readData s).1 := rfl
    simp only [pollLoop, hsample, hlevel]
    split
    · rfl
    · exact ih (sleep (pollDone (readData s).2).params.pollIntervalNs (pollDone (readData s).2))

theorem dataLoop_withHost (m : Nat) : HostBlindWith (dataLoop m) := by
  intro b r s
  induction m generalizing s with
  | zero => rfl
  | succ m ih =>
    have hbit (u : State) : bitDone (readData (withHost b r u)).1 (readData (withHost b r u)).2 =
        withHost b r (bitDone (readData u).1 (readData u).2) := bitDone_withHost _ b r (readData u).2
    have hparams (u : State) : (withHost b r u).params = u.params := rfl
    simp only [dataLoop, pulse_withHost b r s, hbit, hparams]
    split
    · rfl
    · exact ih _

theorem trailLoop_withHost (m : Nat) : HostBlindWith (trailLoop m) := by
  intro b r s
  induction m generalizing s with
  | zero => rfl
  | succ m ih =>
    have hparams (u : State) : (withHost b r u).params = u.params := rfl
    simp only [trailLoop, pulse_withHost b r s, trailDone_withHost b r, hparams]
    split
    · rfl
    · exact ih _

/-! ### The cycles and the loops of sub-cycles -/

theorem cycleBody_withHost (latch : Bool) : HostBlindWith (cycleBody latch) := by
  intro b r s
  have hparams : (withHost b r s).params = s.params := rfl
  have hn (u : State) : (withHost b r u).seq.n = u.seq.n := rfl
  have harm (u : State) : armTrail (withHost b r u) = withHost b r (armTrail u) := rfl
  have hcode (u : State) : frameCode (withHost b r u) = frameCode u := rfl
  simp only [cycleBody, hparams, pollLoop_withHost _ b r s, beginData_withHost b r, dataLoop_withHost _ b r,
    beginTrail_withHost _ b r, hn, trailLoop_withHost _ b r, harm, hcode, latchSample_withHost _ b r]
  split
  · rfl
  split
  · rfl
  split
  · rfl
  · rfl

theorem subCycle_withHost : HostBlindWith subCycle := by
  intro b r s
  simp only [subCycle, beginCycle_withHost _ b r s, cycleBody_withHost _ b r]
  split <;> rfl

theorem subLoop_withHost (m : Nat) : HostBlind (subLoop m) := by
  intro b r s
  induction m generalizing s with
  | zero => rfl
  | succ m ih =>
    simp only [subLoop, subCycle_withHost b r s]
    exact ih (subDone (subCycle s).1 (subCycle s).2)

theorem recoverTop_withHost : HostBlindWith recoverTop := by
  intro b r s
  have hloop : subLoop s.params.recoveryReads (beginSubs (withHost b r s)) =
      withHost b r (subLoop s.params.recoveryReads (beginSubs s)) := subLoop_withHost _ b r (beginSubs s)
  have hparams : (withHost b r s).params = s.params := rfl
  simp only [recoverTop, hparams, hloop]
  rfl

theorem topCycle_withHost (latch : Bool) : HostBlindWith (topCycle latch) := by
  intro b r s
  simp only [topCycle, beginCycle_withHost _ b r s, cycleBody_withHost _ b r]
  split
  · rfl
  · exact recoverTop_withHost b r _

theorem settle_withHost : HostBlind settle := by
  intro b r s
  simp only [settle, topCycle_withHost false b r s]
  rfl

/-! ### The commands -/

theorem readOneResult_withHost : HostBlind readOneResult := by
  intro b r s
  have hcycle : topCycle true (accept 0x1#4 0#8 (withHost b r s)) =
      ((topCycle true (accept 0x1#4 0#8 s)).1, withHost b r (topCycle true (accept 0x1#4 0#8 s)).2) :=
    topCycle_withHost true b r (accept 0x1#4 0#8 s)
  simp only [readOneResult, hcycle]
  rfl

/-- The settle read of a committed configuration, and the end of its command. -/
theorem finishSettle_withHost : HostBlind (finish .ok ∘ settle) :=
  HostBlind.comp (fun _ _ _ => rfl) settle_withHost

theorem setChannelResult_withHost (arg : Byte) : HostBlind (setChannelResult arg) := by
  intro b r s
  cases hc : channelOfArg arg with
  | none =>
    rw [setChannelResult_invalid s hc, setChannelResult_invalid _ hc]
    rfl
  | some c =>
    rw [setChannelResult_valid s hc, setChannelResult_valid _ hc]
    exact finishSettle_withHost b r (setChannel c (accept 0x2#4 arg s))

theorem setGainResult_withHost (arg : Byte) : HostBlind (setGainResult arg) := by
  intro b r s
  cases hchan : s.config.channel with
  | b =>
    rw [setGainResult_channelB arg hchan, setGainResult_channelB (s := withHost b r s) arg hchan]
    rfl
  | a =>
    cases hg : gainLegal arg with
    | false =>
      rw [setGainResult_invalid hchan hg, setGainResult_invalid (s := withHost b r s) hchan hg]
      rfl
    | true =>
      rw [setGainResult_valid hchan hg, setGainResult_valid (s := withHost b r s) hchan hg]
      exact finishSettle_withHost b r (setGainA arg (accept 0x3#4 arg s))

theorem resetResult_withHost : HostBlind resetResult := by
  intro b r s
  have hloop := subLoop_withHost s.params.resetSettleReads b r (powerCycled s)
  rw [resetResult_eq, resetResult_eq]
  exact congrArg endReset hloop

/-- Settles O46: command by command. -/
theorem hostQueueDoesNotDisturbCommand : Obligations.HostQueueDoesNotDisturbCommand := by
  unfold Obligations.HostQueueDoesNotDisturbCommand
  intro i s b r
  cases i with
  | readOne => exact ⟨_, rfl, congrArg Host.Outcome.next (readOneResult_withHost b r s)⟩
  | setChannel arg => exact ⟨_, rfl, congrArg Host.Outcome.next (setChannelResult_withHost arg b r s)⟩
  | setGain arg => exact ⟨_, rfl, congrArg Host.Outcome.next (setGainResult_withHost arg b r s)⟩
  | powerDown => exact ⟨_, rfl, rfl⟩
  | powerUp => exact ⟨_, rfl, rfl⟩
  | reset => exact ⟨_, rfl, congrArg Host.Outcome.next (resetResult_withHost b r s)⟩

end Sys2Proof.Machine
end

section
/-!
PROOF. The host's `acquire` (45_host_aggregator.md R192-R194): what one round gets back, from an idle block and from a
busy one, and that the list collects decoded samples.
-/

namespace Sys2Proof.Machine

/-! ### The parts of a round -/

theorem code_bits_eq_ok_iff (c : Code) : c.bits = Code.ok.bits ↔ c = .ok := by
  cases c <;> simp [Code.bits]

/-- The host's view of a block at rest: CODE, and SAMPLE if it is OK (R193). -/
theorem readResult_done {u : State} (hl : u.params.legal = true) (hb : u.status.busy = false) :
    readResult u = if u.status.code = .ok then .ok ((0#4, some u.sample),
        { u with bus := [], reads := u.sample :: statusWord u :: u.reads })
      else .ok ((u.status.code.bits, none), { u with bus := [], reads := statusWord u :: u.reads }) := by
  have hstatus : memRead statusOffset u = some (statusWord u, { u with
      bus := [], reads := statusWord u :: u.reads }) := memRead_idle hl hb (by decide) rfl
  have hsample : memRead sampleOffset { u with bus := [], reads := statusWord u :: u.reads } =
      some (u.sample, { u with bus := [], reads := u.sample :: statusWord u :: u.reads }) :=
    memRead_idle (s := { u with bus := [], reads := statusWord u :: u.reads }) hl hb (by decide) rfl
  obtain ⟨hcode, -⟩ := statusWord_fields u
  simp only [readResult, hstatus, hsample, hcode, code_bits_eq_ok_iff]
  split
  · next hok => rw [hok]; rfl
  · rfl

theorem readOneResult_params (s : State) : (readOneResult s).params = s.params := by
  simp [readOneResult, topCycle_params]

theorem readOneResult_legal {s : State} (h : s.params.legal = true) : (readOneResult s).params.legal = true := by
  rw [readOneResult_params]
  exact h

theorem readOneResult_idle {s : State} (h : Idle s) : Idle (readOneResult s) := by
  obtain ⟨hrst, -⟩ := h
  exact ⟨by simpa [readOneResult] using hrst, rfl⟩

section
variable {s : State} (hl : s.params.legal = true)
include hl

theorem issue_readOne_idle (hi : Idle s) :
    issue (.command (encode .readOne)) s = .next (readOneResult (withBus [] s)) :=
  step_command_ok (s := withBus [.command (encode .readOne)] s) hl rfl hi rfl

theorem issue_readOne_ignored (hi : ¬ Idle s) :
    issue (.command (encode .readOne)) s = .next (withBus [.waitIdle] s) :=
  step_command_ignored (s := withBus [.command (encode .readOne)] s) hl rfl hi

/-- An idle block has ended `read_one` when the round begins to wait. -/
theorem acquireRound_idle (hi : Idle s) (polls : Nat) :
    acquireRound polls s = readResult (readOneResult (withBus [] s)) := by
  have hbus : (readOneResult (withBus [] s)).bus = [] := by simp [readOneResult, withBus]
  have hwait : awaitIdle polls (readOneResult (withBus [] s)) = .ok (readOneResult (withBus [] s)) := by
    cases polls <;> simp [awaitIdle, hbus]
  simp only [acquireRound, issue_readOne_idle hl hi, hwait]

/-- A block that is not idle ignores the round's write, and the round waits (R193, 60_exceptions.md R222). -/
theorem acquireRound_ignored (hi : ¬ Idle s) (polls : Nat) :
    acquireRound polls s = (awaitIdle polls (withBus [.waitIdle] s)).bind readResult := by
  simp only [acquireRound, issue_readOne_ignored hl hi]
  cases awaitIdle polls (withBus [.waitIdle] s) <;> rfl

end

/-- Settles O60: an idle block reads the frame in the round's one step; a busy one is waited for. -/
theorem acquireRoundCollectsAFrame : Obligations.AcquireRoundCollectsAFrame := by
  unfold Obligations.AcquireRoundCollectsAFrame
  refine ⟨fun s polls m x ps L D hl hi hm hx hlev hdel hn hp => ?_, fun s t hl hb ht hrun => ?_⟩
  · obtain ⟨t, ht, hcode, -, -, -, hsample, hcfg, -, -, hL, hD, -⟩ :=
      readOneReturnsTheFrame (withBus [] s) m x ps L D hl hm hlev hdel hn hp
    cases ht
    have hround := acquireRound_idle hl hi polls
    rw [readResult_done (readOneResult_legal (s := withBus [] s) hl) rfl, hcode, hsample] at hround
    simp only [hx, Bool.false_eq_true, if_false, if_true] at hround
    exact ⟨_, hround, readOneResult_idle (s := withBus [] s) hi, hL, hD, readOneResult_params (withBus [] s),
      by rw [hcfg]; rfl⟩
  · obtain ⟨⟨m, hm, -⟩, -, -⟩ := hrun
    have hsteps : engineSteps m (withBus [.waitIdle] s) = withBus [.waitIdle] t := by
      rw [engineSteps_withBus, hm]
    have hlt : t.params.legal = true := by
      rw [← hm, keepsParams_closed.engineSteps]
      exact hl
    obtain ⟨polls, hwait⟩ := awaitIdle_wait m (s := withBus [.waitIdle] s) hl rfl (.inl hb)
      (by rw [hsteps]; exact ht)
    refine ⟨polls, ?_⟩
    rw [acquireRound_ignored hl (not_idle_of_busy hb), hwait, hsteps]
    exact readResult_done (u := withBus [] t) hlt ht

/-! ### What a round can end with -/

/-- A wait that ends has left BUSY = 0, and only the machine's own steps have run. -/
theorem awaitIdle_ok {polls : Nat} {s u : State} (hb : s.bus = [.waitIdle]) (h : awaitIdle polls s = .ok u) :
    u.status.busy = false ∧ Keeps s u := by
  have hne : s.bus ≠ [] := by simp [hb]
  induction polls generalizing s with
  | zero => simp [awaitIdle, hne] at h
  | succ polls ih =>
    cases hs : step s with
    | fault r => simp [awaitIdle, hne, hs] at h
    | refused r => simp [awaitIdle, hne, hs] at h
    | next t =>
      have hl := legal_of_step hs
      have hkeep := keeps_closed.step hs
      simp only [awaitIdle, if_neg hne, hs] at h
      cases hbusy : s.status.busy with
      | true =>
        obtain rfl : engineStep s = t := by simpa [step_waitIdle_busy hl hb hbusy] using hs
        have hbus := (engineStep_bus s).trans hb
        obtain ⟨hdone, hrest⟩ := ih hbus h (by simp [hbus])
        exact ⟨hdone, keeps_closed.trans hkeep hrest⟩
      | false =>
        obtain rfl : withBus [] s = t := by simpa [step_waitIdle_done hl hb hbusy] using hs
        obtain rfl : withBus [] s = u := by cases polls <;> simpa [awaitIdle, withBus] using h
        exact ⟨hbusy, hkeep⟩

theorem awaitIdle_error {polls : Nat} {s : State} {e : Acquired × State} (h : awaitIdle polls s = .error e) :
    e.1 = .running ∨ e.1 = .stopped := by
  induction polls generalizing s with
  | zero =>
    by_cases hb : s.bus = []
    · simp [awaitIdle, hb] at h
    · simp only [awaitIdle, if_neg hb, Except.error.injEq] at h
      exact .inl (by rw [← h])
  | succ polls ih =>
    by_cases hb : s.bus = []
    · simp [awaitIdle, hb] at h
    · simp only [awaitIdle, if_neg hb] at h
      split at h
      · exact ih h
      · cases h; exact .inr rfl
      · cases h; exact .inr rfl

/-- Where a round reads its result: the command it issued has ended, or the one it found in progress. -/
structure RoundDone (s u : State) : Prop where
  legal : u.params.legal = true
  busy : u.status.busy = false
  from_start : Idle s ∧ u = readOneResult (withBus [] s) ∨ ¬ Idle s ∧ Keeps s u

/-- A round that ends without its result is waiting still, or the machine has stopped. -/
theorem acquireRound_cases (polls : Nat) (s : State) :
    (∃ e, acquireRound polls s = .error e ∧ (e.1 = .running ∨ e.1 = .stopped)) ∨
      ∃ u, RoundDone s u ∧ acquireRound polls s = readResult u := by
  cases hl : s.params.legal with
  | false =>
    have hstop : issue (.command (encode .readOne)) s = .refused .illegalConfiguration :=
      step_illegalConfiguration hl
    exact .inl ⟨(.stopped, s), by simp only [acquireRound, hstop], .inr rfl⟩
  | true =>
    by_cases hi : Idle s
    · exact .inr ⟨_, ⟨readOneResult_legal (s := withBus [] s) hl, rfl, .inl ⟨hi, rfl⟩⟩, acquireRound_idle hl hi polls⟩
    · rw [acquireRound_ignored hl hi]
      cases hwait : awaitIdle polls (withBus [.waitIdle] s) with
      | error e => exact .inl ⟨e, rfl, awaitIdle_error hwait⟩
      | ok u =>
        obtain ⟨hbusy, hkeep⟩ := awaitIdle_ok rfl hwait
        exact .inr ⟨u, ⟨by rw [hkeep.params]; exact hl, hbusy,
          .inr ⟨hi, keeps_closed.trans (keeps_closed.setBus _ s) hkeep⟩⟩, rfl⟩

/-- What the rounds keep: the next one finds an idle block, or a sound SAMPLE. -/
def RoundReady (s : State) : Prop := Idle s ∨ SampleSound s

/-- An OK of `read_one` delivers a frame that is no sentinel, whatever SAMPLE was (40_read_cycle.md R118). -/
theorem readOneResult_sound {s : State} (h : (readOneResult s).status.code = .ok) :
    SampleSound (readOneResult s) := by
  obtain ⟨hcode, -, -, hsample, -⟩ := (readOneResult_end s).complete (.inl h)
  have hgood : isSentinel (readOneResult s).shreg = false := by
    by_contra hother
    simp [hother, h] at hcode
  exact ⟨_, hgood, by rw [hsample]; simp [hgood]⟩

section
variable {s u : State} (h : RoundDone s u) (hs : RoundReady s)
include h hs

theorem RoundDone.ready : RoundReady u := by
  obtain ⟨hi, rfl⟩ | ⟨hi, hkeep⟩ := h.from_start
  · exact .inl (readOneResult_idle hi)
  · exact .inr (hkeep.sample (hs.resolve_left hi))

theorem RoundDone.sound (hc : u.status.code = .ok) : SampleSound u := by
  obtain ⟨hi, rfl⟩ | ⟨hi, hkeep⟩ := h.from_start
  · exact readOneResult_sound hc
  · exact hkeep.sample (hs.resolve_left hi)

end

/-! ### The list -/

/-- The decode of a frame that is no sentinel (40_read_cycle.md R125). -/
def InRange (x : Word) : Prop := -(2 ^ 23) + 1 ≤ x.toInt ∧ x.toInt ≤ 2 ^ 23 - 2

theorem SampleSound.inRange {s : State} (h : SampleSound s) : InRange s.sample := by
  obtain ⟨r, hgood, hsample⟩ := h
  obtain ⟨-, hrange⟩ := decodeRoundTripAndRange
  obtain ⟨-, hsigned⟩ := decodeIsTwosComplement r
  rw [InRange, hsample, hsigned]
  exact hrange r hgood

theorem acquireLoop_full {h : HostParams} {times polls d : Nat} {out : List Word} {s : State}
    (hfull : ¬ out.length < times) (rounds : Nat) :
    acquireLoop h times polls rounds out d s = (.samples out, s) := by
  cases rounds <;> simp [acquireLoop, hfull]

/-- The loop ends with a list when it has `times` samples, and each of them is one a round got back. -/
theorem acquireLoop_samples {h : HostParams} {times polls rounds d : Nat} {out l : List Word} {s t : State}
    (hs : RoundReady s) (hlen : out.length ≤ times) (hout : ∀ x ∈ out, InRange x)
    (hloop : acquireLoop h times polls rounds out d s = (.samples l, t)) :
    l.length = times ∧ ∀ x ∈ l, InRange x := by
  induction rounds generalizing out d s with
  | zero =>
    by_cases hlt : out.length < times
    · simp [acquireLoop, hlt] at hloop
    · rw [acquireLoop_full hlt] at hloop
      cases hloop
      exact ⟨by omega, hout⟩
  | succ rounds ih =>
    by_cases hlt : out.length < times
    case neg =>
      rw [acquireLoop_full hlt] at hloop
      cases hloop
      exact ⟨by omega, hout⟩
    obtain ⟨e, he, hstop⟩ | ⟨u, hu, hround⟩ := acquireRound_cases polls s
    · simp only [acquireLoop, if_pos hlt, he] at hloop
      simp [hloop] at hstop
    · rw [readResult_done hu.legal hu.busy] at hround
      have hready : ∀ r, RoundReady { u with bus := [], reads := r } := fun _ => hu.ready hs
      split at hround
      · next hok =>
        simp only [acquireLoop, if_pos hlt, hround] at hloop
        have hx := (hu.sound hs hok).inRange
        refine ih (hready _) (by simpa using hlt) ?_ hloop
        simpa [or_imp, forall_and] using ⟨hout, hx⟩
      · simp only [acquireLoop, if_pos hlt, hround] at hloop
        split at hloop
        · split at hloop
          · simp at hloop
          · exact ih (hready _) hlen hout hloop
        · exact ih (hready _) hlen hout hloop

theorem hostParams_legal_iff (h : HostParams) :
    h.legal = true ↔ 2 ≤ h.minMeasures ∧ h.minMeasures ≤ 3 ∧ 3 ≤ h.maxMeasures := by
  simp [HostParams.legal, and_assoc]

theorem validateMeasureCount_of_illegal {h : HostParams} (hillegal : ¬ h.legal = true) (times : Int) :
    validateMeasureCount h times = .illegalBounds := if_neg hillegal

/-- Settles O59: bounds that are not legal end `acquire` before its loop; a list is the loop's. -/
theorem acquireReturnsDecodedSamples : Obligations.AcquireReturnsDecodedSamples := by
  unfold Obligations.AcquireReturnsDecodedSamples
  refine ⟨fun h times fuel s hbounds => ?_, fun h times fuel s t l hs hacq => ?_⟩
  · rw [← hostParams_legal_iff] at hbounds
    have hcheck := validateMeasureCount_of_illegal hbounds times
    exact ⟨hcheck, by simp [acquire, hcheck]⟩
  · by_cases hlegal : h.legal = true
    case neg => simp [acquire, validateMeasureCount_of_illegal hlegal] at hacq
    by_cases htimes : (h.minMeasures : Int) ≤ times ∧ times ≤ h.maxMeasures
    case neg =>
      have hcheck := (validateMeasureCount_eq_invalidParameter_iff hlegal times).2 htimes
      simp [acquire_of_invalidParameter hcheck] at hacq
    have hcheck := (validateMeasureCount_eq_accepted_iff hlegal times).2 htimes
    simp only [acquire, hcheck] at hacq
    obtain ⟨hlen, hrange⟩ := acquireLoop_samples hs (Nat.zero_le _) (by simp) hacq
    obtain ⟨hlo, hhi⟩ := htimes
    exact ⟨(hostParams_legal_iff h).1 hlegal, by omega, hlo, hhi, hrange⟩

end Sys2Proof.Machine
end
